-- ==== Sys2Proof/Word.lean ====
section
/-! DEFINITION. The word types of the ATXRX block: bits are used only for what the spec numbers as bits. -/

namespace Sys2Proof

/-- A byte, the unit in which a command word may be carried (R34). -/
abbrev Byte := BitVec 8

/-- A command word (R47). -/
abbrev Word := BitVec 64

/-- A tick value, the content of one auto-reload register entry (R6 `TICK_MAX`, R24). -/
abbrev Tick := BitVec 16

/-- A 32-bit quantity: an RX count, a callback context, a frequency, a producer duration. -/
abbrev Count := BitVec 32

/-- A producer answer as it stands on the producer port (R53). -/
abbrev AnswerWord := BitVec 35

end Sys2Proof
end

