-- ==== Sys2Proof/Syntax.lean ====
section
/-! DEFINITION. The eleven commands of the block (R49) and a command word taken apart into its fields (R47). -/

namespace Sys2Proof

/-- One constructor per row of spec/opcode_table.json. Every operand is the unsigned content of its field (R48), so a
term of this type always fits its encoding. -/
inductive Instr where
  /-- `RX_START`, 0x10, format Z (R58). -/
  | rxStart
  /-- `RX_STOP`, 0x11, format Z (R59). -/
  | rxStop
  /-- `RX_SET_TIMEOUT timeout_us`, 0x12, format A (R60). -/
  | rxSetTimeout (timeoutUs : Count)
  /-- `RX_SET_CAPTURE_CB valid, ctx`, 0x13, format B (R61). -/
  | rxSetCaptureCb (valid : Bool) (ctx : Count)
  /-- `RX_SET_TIMEOUT_CB valid, ctx`, 0x14, format B (R62). -/
  | rxSetTimeoutCb (valid : Bool) (ctx : Count)
  /-- `TX_SET_DATA_CB valid, ctx`, 0x20, format B (R73). -/
  | txSetDataCb (valid : Bool) (ctx : Count)
  /-- `TX_SET_SENT_CB valid, ctx`, 0x21, format B (R74). -/
  | txSetSentCb (valid : Bool) (ctx : Count)
  /-- `TX_START freq, duty`, 0x22, format S (R75). -/
  | txStart (freq : Count) (duty : BitVec 24)
  /-- `TX_STOP`, 0x23, format Z (R76). -/
  | txStop
  /-- `TX_WAIT_TERM`, 0x24, format Z (R77). -/
  | txWaitTerm
  /-- `TX_IS_COMPLETE`, 0x25, format Z (R79). -/
  | txIsComplete
  deriving DecidableEq, Repr, Inhabited

/-- The three fields of a command word: `OP` 63:56, `AUX` 55:32, `ARG` 31:0 (R47). -/
structure RawCommand where
  op  : BitVec 8
  aux : BitVec 24
  arg : Count
  deriving DecidableEq, Repr

/-- The four formats of R47. -/
inductive Format where
  | z | a | b | s
  deriving DecidableEq, Repr

end Sys2Proof
end

