-- ==== Sys2Proof/WellFormed.lean ====
section
/-! DEFINITION. When the fields of a command word make a command: an assigned opcode whose must-be-zero fields are zero
(R47, R50). A term of `Instr` needs no check of its own: its operand types are its fields' widths (R48). -/

namespace Sys2Proof

/-- The format of an assigned opcode (R49). -/
def formatOf (op : BitVec 8) : Option Format :=
  if op = 0x10#8 ∨ op = 0x11#8 ∨ op = 0x23#8 ∨ op = 0x24#8 ∨ op = 0x25#8 then some .z
  else if op = 0x12#8 then some .a
  else if op = 0x13#8 ∨ op = 0x14#8 ∨ op = 0x20#8 ∨ op = 0x21#8 then some .b
  else if op = 0x22#8 then some .s
  else none

/-- The must-be-zero fields of a format are zero (R47). -/
def Format.reservedZero (f : Format) (c : RawCommand) : Bool :=
  match f with
  | .z => decide (c.aux = 0#24) && decide (c.arg = 0#32)
  | .a => decide (c.aux = 0#24)
  | .b => decide (c.aux >>> 1 = 0#24)
  | .s => true

/-- The fields are those of one of the eleven commands (R50, R51). -/
def RawCommand.wellFormed (c : RawCommand) : Bool :=
  match formatOf c.op with
  | some f => f.reservedZero c
  | none => false

end Sys2Proof
end

