-- ==== Sys2Proof/Decode.lean ====
section
/-! DEFINITION. The decoder (R47 to R51), total on any bytes and rejecting by name, and the encoder, both written from the
match and mask columns of R49. -/

namespace Sys2Proof

/-! ## Fields and bytes of a word -/

/-- `OP`, bits 63:56 (R47). -/
def opField (w : Word) : BitVec 8 := w.extractLsb' 56 8

/-- `AUX`, bits 55:32 (R47). -/
def auxField (w : Word) : BitVec 24 := w.extractLsb' 32 24

/-- `ARG`, bits 31:0 (R47). -/
def argField (w : Word) : Count := w.extractLsb' 0 32

/-- `VALID`, bit 32 of the word (R47, format B). -/
def validField (w : Word) : Bool := w.getLsbD 32

/-- The three fields together (R47). -/
def rawOf (w : Word) : RawCommand := { op := opField w, aux := auxField w, arg := argField w }

/-- A word from its fields (R47). -/
def assemble (op : BitVec 8) (aux : BitVec 24) (arg : Count) : Word := op ++ aux ++ arg

/-- The eight bytes of a word, byte 0 first: bits 7 to 0 (R34). -/
def bytesOfWord (w : Word) : List Byte :=
  [w.extractLsb' 0 8, w.extractLsb' 8 8, w.extractLsb' 16 8, w.extractLsb' 24 8,
   w.extractLsb' 32 8, w.extractLsb' 40 8, w.extractLsb' 48 8, w.extractLsb' 56 8]

/-- The word eight bytes carry (R34); any other number of bytes is no command word (R35). -/
def wordOfBytes : List Byte → Option Word
  | [b0, b1, b2, b3, b4, b5, b6, b7] => some (b7 ++ b6 ++ b5 ++ b4 ++ b3 ++ b2 ++ b1 ++ b0)
  | _ => none

/-! ## Decoding -/

/-- Why bytes are no command. -/
inductive Reject where
  /-- Not 64 bits: not a command at all, refused by the port (R35). Safe. -/
  | notEightBytes
  /-- `OP` outside the eleven assigned (R50): the block raises `IllegalCommand`. -/
  | unassignedOpcode
  /-- An assigned `OP` with a must-be-zero bit set (R50): the block raises `IllegalCommand`. -/
  | reservedBitSet
  deriving DecidableEq, Repr

/-- What the decoder answers: it is total (R51). -/
inductive Decoded where
  | instr (i : Instr)
  | reject (r : Reject)
  deriving DecidableEq, Repr

/-- The instruction, where there is one. -/
def Decoded.toOption : Decoded → Option Instr
  | .instr i => some i
  | .reject _ => none

/-- One row of R49's table: a word `w` is the row's command when `w &&& mask = pattern`. -/
structure Row where
  mnemonic : String
  pattern  : Word
  mask     : Word
  build    : Word → Instr

/-- The mask of format Z: every bit. -/
def maskZ : Word := 0xFFFFFFFFFFFFFFFF#64

/-- The mask of format A: `OP` and `AUX`. -/
def maskA : Word := 0xFFFFFFFF00000000#64

/-- The mask of format B: `OP` and `AUX[23:1]`. -/
def maskB : Word := 0xFFFFFFFE00000000#64

/-- The mask of format S: `OP`. -/
def maskS : Word := 0xFF00000000000000#64

/-- The rows of R49, in its order. -/
def opcodeTable : List Row :=
  [ { mnemonic := "RX_START", pattern := 0x1000000000000000#64, mask := maskZ, build := fun _ => .rxStart },
    { mnemonic := "RX_STOP", pattern := 0x1100000000000000#64, mask := maskZ, build := fun _ => .rxStop },
    { mnemonic := "RX_SET_TIMEOUT", pattern := 0x1200000000000000#64, mask := maskA,
      build := fun w => .rxSetTimeout (argField w) },
    { mnemonic := "RX_SET_CAPTURE_CB", pattern := 0x1300000000000000#64, mask := maskB,
      build := fun w => .rxSetCaptureCb (validField w) (argField w) },
    { mnemonic := "RX_SET_TIMEOUT_CB", pattern := 0x1400000000000000#64, mask := maskB,
      build := fun w => .rxSetTimeoutCb (validField w) (argField w) },
    { mnemonic := "TX_SET_DATA_CB", pattern := 0x2000000000000000#64, mask := maskB,
      build := fun w => .txSetDataCb (validField w) (argField w) } ] ++
  [ { mnemonic := "TX_SET_SENT_CB", pattern := 0x2100000000000000#64, mask := maskB,
      build := fun w => .txSetSentCb (validField w) (argField w) },
    { mnemonic := "TX_START", pattern := 0x2200000000000000#64, mask := maskS,
      build := fun w => .txStart (argField w) (auxField w) },
    { mnemonic := "TX_STOP", pattern := 0x2300000000000000#64, mask := maskZ, build := fun _ => .txStop },
    { mnemonic := "TX_WAIT_TERM", pattern := 0x2400000000000000#64, mask := maskZ, build := fun _ => .txWaitTerm },
    { mnemonic := "TX_IS_COMPLETE", pattern := 0x2500000000000000#64, mask := maskZ, build := fun _ => .txIsComplete } ]

/-- The word matches the row (R49). -/
def Row.hits (r : Row) (w : Word) : Bool := decide (w &&& r.mask = r.pattern)

/-- `OP` is one of the eleven assigned (R49). -/
def opAssigned (op : BitVec 8) : Bool := opcodeTable.any fun r => decide (opField r.pattern = op)

/-- Decoding of a command word (R49 to R51). -/
def decode (w : Word) : Decoded :=
  match opcodeTable.find? fun r => r.hits w with
  | some r => .instr (r.build w)
  | none => .reject (if opAssigned (opField w) then .reservedBitSet else .unassignedOpcode)

/-- Decoding of what is written to the command port, any number of bytes (R34, R35). -/
def decodeBytes (bytes : List Byte) : Decoded :=
  match wordOfBytes bytes with
  | some w => decode w
  | none => .reject .notEightBytes

/-! ## Encoding -/

/-- `AUX` of format B: `VALID` in bit 0, the rest 0 (R47). -/
def auxOfValid (valid : Bool) : BitVec 24 := if valid then 1#24 else 0#24

/-- The opcode of a command (R49). -/
def opcodeOf : Instr → BitVec 8
  | .rxStart => 0x10#8
  | .rxStop => 0x11#8
  | .rxSetTimeout _ => 0x12#8
  | .rxSetCaptureCb _ _ => 0x13#8
  | .rxSetTimeoutCb _ _ => 0x14#8
  | .txSetDataCb _ _ => 0x20#8
  | .txSetSentCb _ _ => 0x21#8
  | .txStart _ _ => 0x22#8
  | .txStop => 0x23#8
  | .txWaitTerm => 0x24#8
  | .txIsComplete => 0x25#8

/-- The mnemonic of a command, as spec/opcode_table.json spells it. -/
def mnemonicOf : Instr → String
  | .rxStart => "RX_START"
  | .rxStop => "RX_STOP"
  | .rxSetTimeout _ => "RX_SET_TIMEOUT"
  | .rxSetCaptureCb _ _ => "RX_SET_CAPTURE_CB"
  | .rxSetTimeoutCb _ _ => "RX_SET_TIMEOUT_CB"
  | .txSetDataCb _ _ => "TX_SET_DATA_CB"
  | .txSetSentCb _ _ => "TX_SET_SENT_CB"
  | .txStart _ _ => "TX_START"
  | .txStop => "TX_STOP"
  | .txWaitTerm => "TX_WAIT_TERM"
  | .txIsComplete => "TX_IS_COMPLETE"

/-- The word of a command (R47 to R49). -/
def encode (i : Instr) : Word :=
  match i with
  | .rxSetTimeout t => assemble (opcodeOf i) 0#24 t
  | .rxSetCaptureCb v c => assemble (opcodeOf i) (auxOfValid v) c
  | .rxSetTimeoutCb v c => assemble (opcodeOf i) (auxOfValid v) c
  | .txSetDataCb v c => assemble (opcodeOf i) (auxOfValid v) c
  | .txSetSentCb v c => assemble (opcodeOf i) (auxOfValid v) c
  | .txStart f d => assemble (opcodeOf i) d f
  | .rxStart | .rxStop | .txStop | .txWaitTerm | .txIsComplete => assemble (opcodeOf i) 0#24 0#32

/-- The bytes of a command as they are written to the port (R34). -/
def encodeBytes (i : Instr) : List Byte := bytesOfWord (encode i)

/-! ## The opcode table's own numbering of bits -/

/-- A word given by the opcode table's numbering: bit 0 is the least significant, bits from `nbits` up are 0. -/
def tableWord (nbits w : Nat) : Word := BitVec.ofNat 64 (w % 2 ^ nbits)

/-- What the decoder reads from the bytes of a table word laid out as R34 says. -/
def decodeTableWord (nbits w : Nat) : Option Instr :=
  (decodeBytes (bytesOfWord (tableWord nbits w))).toOption

end Sys2Proof
end

