-- ==== Sys2Proof/Config.lean ====
section
/-! DEFINITION. What an implementation fixes (R6) and the free values the spec leaves to the environment. -/

namespace Sys2Proof

/-- The parameters of R6 that no source fixes, or that R6 lets a model take as an argument.
DESIGN CHOICE (log 2, safe): they are carried in the state as data no step changes, so a statement about
every state is a statement about every implementation. -/
structure Params where
  /-- `TX_BUF_CAP`, OPEN (D5). -/
  txBufCap  : Nat
  /-- `TX_FREQ_MIN`, OPEN (D6). -/
  txFreqMin : Count
  /-- `TX_FREQ_MAX`, OPEN (D6). -/
  txFreqMax : Count
  /-- `RX_PERIOD`, decided 0xFFFFFFFF or an argument (D8). -/
  rxPeriod  : Count
  deriving DecidableEq, Repr, Inhabited

/-- The bounds R6 puts on the parameters; the upper bounds 2^32-1 are the field widths. -/
def Params.wf (p : Params) : Bool :=
  decide (2 ≤ p.txBufCap) && decide (1 ≤ p.txFreqMin.toNat) &&
    decide (p.txFreqMin.toNat ≤ p.txFreqMax.toNat) && decide (1 ≤ p.rxPeriod.toNat)

/-- The parameters `State.reset` carries: `TX_FREQ_MIN`, `TX_FREQ_MAX` and `RX_PERIOD` as the conventions of
95_test_vectors.md take them, and the capacity its programs P2 to P4 take.
DESIGN CHOICE (log 2, unsafe for a claim that starts from `State.reset` alone; no statement rests on it). -/
def Params.standard : Params :=
  { txBufCap := 4, txFreqMin := 1#32, txFreqMax := 0xFFFFFFFF#32, rxPeriod := 0xFFFFFFFF#32 }

/-- FREE VALUE (log 7, safe): the producer's answer number `k` after the listed answers have run out.
The producer is an oracle "under no law except the contract" (R5, R53). -/
opaque Config.freeAnswer : Nat → AnswerWord

/-- FREE VALUE (log 8, safe): the bound the producer's contract of "bounded execution time" (R53, R107) puts on the free
answers of the fill that begins after `k` of them were drawn. Nothing constrains it, so for every producer that lets its fills
end there is a value that lets the model's end with them. -/
opaque Config.freeDrawLimit : Nat → Nat

end Sys2Proof
end

