-- ==== Sys2Proof/Machine/State.lean ====
section
/-! DEFINITION. All the state the spec gives the block, as plain data, with its reset values (10_state.md), and the
reasons a step can stop. -/

namespace Sys2Proof.Machine

/-- The value of `STATE` (R8). Code 7 is never held, so it has no constructor (U8). -/
inductive EngineState where
  | idle
  | asyncRx
  | asyncTx
  | asyncTxStopRequested
  | asyncTxStopInProgress
  | asyncTxStopped
  | asyncTxLast
  deriving DecidableEq, Repr

/-- The value of `HOST_HELD` (R13): no command, a `TX_STOP`, a `TX_WAIT_TERM`. Code 3 is never held. -/
inductive Held where
  | free
  | stop
  | wait
  deriving DecidableEq, Repr

/-- The causes of a fatal assertion (R94). -/
inductive FatalCause where
  | badState
  | nullDataCallback
  | badDutyCycle
  | badFrequency
  | producerError
  | illegalCommand
  deriving DecidableEq, Repr

/-- A producer status (R53), also the content of `REST_STATUS` (R20). -/
inductive Status where
  | error
  | ok
  | done
  | lastDone
  deriving DecidableEq, Repr

/-- A producer answer taken apart (R53). -/
structure Answer where
  level    : Bool
  status   : Status
  duration : Count
  deriving DecidableEq, Repr

/-- A callback slot (R15). -/
structure CbSlot where
  valid : Bool
  ctx   : Count
  deriving DecidableEq, Repr

/-- One entry of a playback buffer, and one pair of `TX_TRACE`: a polarity flag (true is carrier) and a tick value
(R24, R26). -/
structure Entry where
  pol   : Bool
  ticks : Tick
  deriving DecidableEq, Repr

/-- The entries of one playback buffer that hold a value: pairs of index and entry, indexes strictly rising. An index
that is not listed has no value (log 9). -/
abbrev Memory := List (Nat × Entry)

/-- One playback buffer (R24). -/
structure Buffer where
  cells          : Memory
  count          : Nat
  packetEnd      : Bool
  lastPacketEnd  : Bool
  deriving DecidableEq, Repr

/-- Which buffer of the pair. -/
inductive BufIdx where
  | b0
  | b1
  deriving DecidableEq, Repr

/-- The playback buffer pair (R24). -/
structure BufPair where
  buf0 : Buffer
  buf1 : Buffer
  deriving DecidableEq, Repr

/-- The two end-of-stream flags of one buffer (R23). -/
structure EndFlags where
  packetEnd      : Bool
  lastPacketEnd  : Bool
  deriving DecidableEq, Repr

/-- `BUF_VALID`, and what the buffer pair then holds (R24). While it is not allocated its entries and counts have no value.
The end-of-stream flags hold their reset values from a reset on (R23) and no value after the completion of a session, which
leaves the contents unspecified (R78; log 9). -/
inductive Buffers where
  /-- `BUF_VALID = 0`. -/
  | unallocated (flags0 flags1 : Option EndFlags)
  /-- `BUF_VALID = 1`. -/
  | allocated (pair : BufPair)
  deriving DecidableEq, Repr

/-- A callout record (R27, R55). -/
inductive Callout where
  | capture (ctx : Count) (level : Bool) (duration : Count)
  | timeout (ctx : Count)
  | dataReq (ctx : Count) (answer : Answer)
  | signalSent (ctx : Count)
  deriving DecidableEq, Repr

/-- One step an agent takes, one line of the spec's program syntax (R57). -/
inductive Input where
  /-- `Host` writes these bytes to the command port (R31, R34, R52). -/
  | portWrite (bytes : List Byte)
  /-- `Host` takes the completion step of the held command, `.complete` (R78). -/
  | complete
  /-- `Env` lets one RX tick elapse, `.tick` (R63). -/
  | tick
  /-- `Env` raises the RX pin, `.rise` (R64). -/
  | rise
  /-- `Env` lowers the RX pin, `.fall` (R65). -/
  | fall
  /-- The TX timer and the DMA move one entry, `.play` (R88). -/
  | play
  /-- The block reset, `.reset` (R104). -/
  | reset
  deriving DecidableEq, Repr

/-- The state of the block, its two observation traces, and the model's own fields. -/
structure State where
  /-- MODEL's own: the parameters of R6 (log 2). -/
  params       : Params
  /-- MODEL's own: the steps the agents take next, in order (R40, log 3). -/
  inputs       : List Input
  /-- MODEL's own: the producer's next answers, in order (R5, log 7). -/
  producer     : List AnswerWord
  /-- MODEL's own: how many answers were drawn as free values (log 7). -/
  draws        : Nat
  /-- `STATE` (R8). -/
  engine       : EngineState
  /-- `HALTED` (R12). -/
  halted       : Bool
  /-- `FAULT_CAUSE` (R12). -/
  faultCause   : BitVec 8
  /-- `FAULT_OP` (R12). -/
  faultOp      : BitVec 8
  /-- `HOST_HELD` (R13). -/
  hostHeld     : Held
  /-- `RESP` (R13). -/
  resp         : BitVec 32
  /-- `SEM_VALID` (R14). -/
  semValid     : Bool
  /-- `TERM_SEM` (R14). -/
  termSem      : Bool
  /-- `CB[CAP]` (R15). -/
  cbCap        : CbSlot
  /-- `CB[TMO]` (R15). -/
  cbTmo        : CbSlot
  /-- `CB[DATA]` (R15). -/
  cbData       : CbSlot
  /-- `CB[SENT]` (R15). -/
  cbSent       : CbSlot
  /-- `RX_EN` (R16). -/
  rxEn         : Bool
  /-- `RX_CNT` (R16). -/
  rxCnt        : Count
  /-- `RX_CCR1` (R16). -/
  rxCcr1       : Count
  /-- `RX_CCR2` (R16). -/
  rxCcr2       : Count
  /-- `RX_CCR3` (R16). -/
  rxCcr3       : Count
  /-- `RX_TMO_ARMED` (R16). -/
  rxTmoArmed   : Bool
  /-- `PREV_CH2` (R16). -/
  prevCh2      : Count
  /-- `RX_PIN` (R18). -/
  rxPin        : Bool
  /-- `FREQ` (R19). -/
  freq         : Count
  /-- `DUTY` (R19). -/
  duty         : BitVec 24
  /-- `REST_DURATION` (R20). -/
  restDuration : BitVec 64
  /-- `REST_LEVEL` (R20). -/
  restLevel    : Bool
  /-- `REST_STATUS` (R20). -/
  restStatus   : Status
  /-- `DMA_BUF` (R21). -/
  dmaBuf       : BufIdx
  /-- `DMA_POS` (R21). -/
  dmaPos       : Nat
  /-- `TX_EN` (R22). -/
  txEn         : Bool
  /-- `TX_LEVEL` (R22). -/
  txLevel      : Bool
  /-- `TX_ARR` (R22). -/
  txArr        : Tick
  /-- `BUF_VALID`, `BUF[0]` and `BUF[1]` with their flags (R23, R24; log 9). -/
  bufs         : Buffers
  /-- `TX_TRACE` (R26), an observation. -/
  txTrace      : List Entry
  /-- `CALLOUTS` (R27), an observation. -/
  callouts     : List Callout
  deriving DecidableEq, Repr

/-- Why the machine stops where the spec lets no step follow. -/
inductive Fault where
  /-- Raised by `step` and by every command's meaning in a state with `HALTED = 1` from which no reset follows: no agent has
  a step (R95; U4 `stuck`). Safe: the hardware too does nothing but reset. -/
  | halted
  /-- Raised by `fill` when the producer's answers never let it end: "such a `Fill` has no result, so the step that contains it
  does not exist and the `Play` agent (or `TX_START`) is stuck" (R107). Safe (log 8). -/
  | fillDoesNotReturn
  /-- Raised by a buffer access outside R32's and R33's bounds, or to a freed pair (R35, U7). Safe: under the rules it does
  not arise (log 9). -/
  | bufferIndex
  deriving DecidableEq, Repr

/-- Why there is no such step. -/
inductive Refusal where
  /-- Raised by an arm of `exec` whose instruction has no meaning yet. Safe. -/
  | notModelled (mnemonic : String)
  /-- Raised by the command port on a write that is not 64 bits (R35: not a command, a model refuses it). Safe. -/
  | notACommandWord
  /-- Raised by the command port while a command is held (R52; U6 `refuse`). Safe. -/
  | hostSuspended
  /-- Raised by `Rise` with the pin high: not enabled (R64). Safe. -/
  | pinAlreadyHigh
  /-- Raised by `Fall` with the pin low: not enabled (R65). Safe. -/
  | pinAlreadyLow
  /-- Raised by `Play` with the TX timer off or the buffer played out: not enabled (R88). Safe. -/
  | nothingToPlay
  /-- Raised by the completion step with no command held or the semaphore not given: not enabled (R78). Safe. -/
  | nothingToComplete
  deriving DecidableEq, Repr

/-- An empty callback slot (R15). -/
def CbSlot.empty : CbSlot := { valid := false, ctx := 0#32 }

/-- The end-of-stream flags at reset (R23). -/
def EndFlags.clear : EndFlags := { packetEnd := false, lastPacketEnd := false }

/-- The buffer pair at reset: not allocated, the flags 0 (R23, R24). -/
def Buffers.reset : Buffers := .unallocated (some EndFlags.clear) (some EndFlags.clear)

/-- The buffer pair as the completion of a session leaves it: not allocated, the contents unspecified (R78). -/
def Buffers.freed : Buffers := .unallocated none none

/-- The block after the reset of R104: the values of R30. `RX_PIN` is an input without a reset value: DESIGN CHOICE high,
no signal (log 1, unsafe). The model's own fields: no step supplied (log 3), no answer listed and none drawn (log 7),
`Params.standard` (log 2). -/
def State.reset : State :=
  { params := Params.standard, inputs := [], producer := [], draws := 0,
    engine := .idle, halted := false, faultCause := 0#8, faultOp := 0#8,
    hostHeld := .free, resp := 0#32, semValid := false, termSem := false,
    cbCap := CbSlot.empty, cbTmo := CbSlot.empty, cbData := CbSlot.empty, cbSent := CbSlot.empty,
    rxEn := false, rxCnt := 0#32, rxCcr1 := 0#32, rxCcr2 := 0#32, rxCcr3 := 0#32, rxTmoArmed := false,
    prevCh2 := 0#32, rxPin := true,
    freq := 0#32, duty := 0#24, restDuration := 0#64, restLevel := false, restStatus := .error,
    dmaBuf := .b0, dmaPos := 0, txEn := false, txLevel := false, txArr := 0#16,
    bufs := Buffers.reset, txTrace := [], callouts := [] }

end Sys2Proof.Machine
end

