-- ==== Sys2Proof/Machine/Operands.lean ====
section
/-! DEFINITION. The numbers behind the names: every code of the spec, the producer's answer (R53) and the sets of states the
rules use (R9). -/

namespace Sys2Proof.Machine

/-- The code of `STATE` (R8). -/
def engineCode : EngineState → BitVec 3
  | .idle => 0#3
  | .asyncRx => 1#3
  | .asyncTx => 2#3
  | .asyncTxStopRequested => 3#3
  | .asyncTxStopInProgress => 4#3
  | .asyncTxStopped => 5#3
  | .asyncTxLast => 6#3

/-- What an observer standing for the caller sees of `STATE`: code 6 is shown as code 2 (R10). -/
def callerView : EngineState → EngineState
  | .asyncTxLast => .asyncTx
  | e => e

/-- `TxActive` (R9): the states in which the TX timer and the DMA run. -/
def txActive : EngineState → Bool
  | .asyncTx | .asyncTxLast | .asyncTxStopRequested | .asyncTxStopInProgress => true
  | .idle | .asyncRx | .asyncTxStopped => false

/-- `TxOrLater` (R9), the source's "state ≥ AsyncTx". -/
def txOrLater : EngineState → Bool
  | .asyncTx | .asyncTxLast | .asyncTxStopRequested | .asyncTxStopInProgress | .asyncTxStopped => true
  | .idle | .asyncRx => false

/-- The code of `HOST_HELD` (R13). -/
def heldCode : Held → BitVec 2
  | .free => 0#2
  | .stop => 1#2
  | .wait => 2#2

/-- The code written to `FAULT_CAUSE` (R94). -/
def causeCode : FatalCause → BitVec 8
  | .badState => 0x01#8
  | .nullDataCallback => 0x02#8
  | .badDutyCycle => 0x03#8
  | .badFrequency => 0x04#8
  | .producerError => 0x05#8
  | .illegalCommand => 0x06#8

/-- The code of a callout record (R55). -/
def calloutCode : Callout → BitVec 8
  | .capture _ _ _ => 0x01#8
  | .timeout _ => 0x02#8
  | .dataReq _ _ => 0x03#8
  | .signalSent _ => 0x04#8

/-- Event code of the RX rising capture, `CC1` (R56). -/
def eventCc1 : BitVec 8 := 0x81#8

/-- Event code of the RX falling capture, `CC2` (R56). -/
def eventCc2 : BitVec 8 := 0x82#8

/-- Event code of the RX timeout compare, `CC3` (R56). -/
def eventCc3 : BitVec 8 := 0x83#8

/-- Event code of the TX half-transfer, `HT` (R56). -/
def eventHt : BitVec 8 := 0x84#8

/-- Event code of the TX transfer-complete, `TC` (R56). -/
def eventTc : BitVec 8 := 0x85#8

/-- The code of a producer status (R53). -/
def statusCode : Status → BitVec 2
  | .error => 0#2
  | .ok => 1#2
  | .done => 2#2
  | .lastDone => 3#2

/-- The status of a code (R53). -/
def statusOf (c : BitVec 2) : Status :=
  if c = 0#2 then .error else if c = 1#2 then .ok else if c = 2#2 then .done else .lastDone

/-- A producer answer from its 35 bits: `LEVEL` 34, `STATUS` 33:32, `DURATION` 31:0 (R53). -/
def answerOf (a : AnswerWord) : Answer :=
  { level := a.getLsbD 34, status := statusOf (a.extractLsb' 32 2), duration := a.extractLsb' 0 32 }

/-- The 35 bits of a producer answer (R53). -/
def answerWord (status : Status) (level : Bool) (duration : Count) : AnswerWord :=
  BitVec.ofBool level ++ statusCode status ++ duration

/-- The index of the other buffer, `other(b) = 1 - b` (00_scope.md section 7). -/
def otherBuf : BufIdx → BufIdx
  | .b0 => .b1
  | .b1 => .b0

/-- The largest tick value, `TICK_MAX` (R6). -/
def tickMax : Nat := 65535

/-- The tick value of each flush entry, `FLUSH_TICKS` (R6, D27). -/
def flushTicks : Tick := 0#16

/-- The tick value of the forced entry of an empty buffer, `DEGENERATE_TICKS` (R6, D26). -/
def degenerateTicks : Tick := 0#16

/-- One entry of the flush buffer, low (R87). -/
def flushEntry : Entry := { pol := false, ticks := flushTicks }

/-- The forced entry of an empty buffer, low (R84 step 4). -/
def degenerateEntry : Entry := { pol := false, ticks := degenerateTicks }

/-- The RX timer's prescaler, `RX_PRESCALE` (R6). No rule depends on it. -/
def rxPrescale : Nat := 64

end Sys2Proof.Machine
end

