-- ==== Sys2Proof/Machine/Flags.lean ====
section
/-! DEFINITION. The flags: the two end-of-stream flags of a buffer (R23), and the five interrupt flags, which are set and
serviced inside one step and so are computed and not held (R17, R98). -/

namespace Sys2Proof.Machine

/-- `packet_end` of a fill that ended with this status (R84 step 3, D25). -/
def packetEndOf : Status → Bool
  | .done | .lastDone => true
  | .error | .ok => false

/-- `last_packet_end` of a fill that ended with this status (R84 step 3, D25). -/
def lastPacketEndOf : Status → Bool
  | .lastDone => true
  | .error | .ok | .done => false

/-- `HtPoint(n) = ceil(n / 2)` (R6, R88, D28). -/
def htPoint (n : Nat) : Nat := (n + 1) / 2

/-- The half-transfer flag after a transfer that left `pos` of `n` entries transferred (R88, R98). -/
def htFlag (pos n : Nat) : Bool := decide (pos = htPoint n)

/-- The transfer-complete flag after a transfer that left `pos` of `n` entries transferred (R88, R98). -/
def tcFlag (pos n : Nat) : Bool := decide (pos = n)

/-- The rising-capture flag of a `Rise` step (R98): the source is enabled while the timer runs. -/
def cc1Flag (rxEn : Bool) : Bool := rxEn

/-- The falling-capture flag of a `Fall` step (R98). -/
def cc2Flag (rxEn : Bool) : Bool := rxEn

/-- The timeout-compare flag of a `Tick` step that produced this count (R63, R98, D13). -/
def cc3Flag (armed : Bool) (count compare : Count) : Bool := armed && decide (count = compare)

/-- The count a `Tick` produces: up by one, or 0 from `RX_PERIOD` (R63, R70). -/
def nextCount (count period : Count) : Count := if count = period then 0#32 else count + 1#32

end Sys2Proof.Machine
end

