-- ==== Sys2Proof/Machine/Ops.lean ====
section
/-! DEFINITION. The named operations over buffer RAM, slots, ports and traces, the fatal assertion (R95) and the reset that is
the only way out of it (R96, R104). -/

namespace Sys2Proof.Machine

/-- What a step answers. -/
abbrev Result := Host.Outcome State Fault Refusal

/-! ## Buffer RAM (R31 to R33) -/

/-- The canonical form: indexes strictly rising. -/
def Memory.wf : Memory → Bool
  | [] => true
  | (i, _) :: rest => rest.all (fun c => decide (i < c.1)) && Memory.wf rest

/-- The entry at an index; an index that is not listed has no value. -/
def Memory.read : Memory → Nat → Option Entry
  | [], _ => none
  | (j, e) :: rest, i => if i = j then some e else Memory.read rest i

/-- An entry written at an index, in the canonical form. -/
def Memory.write : Memory → Nat → Entry → Memory
  | [], i, e => [(i, e)]
  | (j, f) :: rest, i, e =>
    if i < j then (i, e) :: (j, f) :: rest
    else if i = j then (i, e) :: rest
    else (j, f) :: Memory.write rest i e

/-- A buffer as `TX_START` allocates it: no entry, both flags 0 (R75). -/
def Buffer.fresh : Buffer := { cells := [], count := 0, packetEnd := false, lastPacketEnd := false }

/-- `BUF[b]` of a pair. -/
def BufPair.get (p : BufPair) : BufIdx → Buffer
  | .b0 => p.buf0
  | .b1 => p.buf1

/-- The pair with `BUF[b]` replaced. -/
def BufPair.set (p : BufPair) (b : BufIdx) (u : Buffer) : BufPair :=
  match b with
  | .b0 => { p with buf0 := u }
  | .b1 => { p with buf1 := u }

/-- The pair, while it is allocated. -/
def Buffers.pair : Buffers → Option BufPair
  | .unallocated _ _ => none
  | .allocated p => some p

/-- The allocated pair changed; nothing while it is not allocated. -/
def Buffers.map (f : BufPair → BufPair) : Buffers → Buffers
  | .unallocated f0 f1 => .unallocated f0 f1
  | .allocated p => .allocated (f p)

/-- The end-of-stream flags of `BUF[b]` (R23). -/
def Buffers.endFlags : Buffers → BufIdx → Option EndFlags
  | .unallocated f0 _, .b0 => f0
  | .unallocated _ f1, .b1 => f1
  | .allocated p, b => some { packetEnd := (p.get b).packetEnd, lastPacketEnd := (p.get b).lastPacketEnd }

/-- `BUF_VALID` (R24). -/
def State.bufValid (s : State) : Bool := s.bufs.pair.isSome

/-- `BUF[b].packet_end` and `BUF[b].last_packet_end` (R23). -/
def State.endFlags (s : State) (b : BufIdx) : Option EndFlags := s.bufs.endFlags b

/-- `BUF[b]`, while the pair is allocated. -/
def State.buf (s : State) (b : BufIdx) : Option Buffer := s.bufs.pair.map (·.get b)

/-- `BufRead(b, i)` (R32): defined only when `BUF_VALID = 1` and `i < BUF[b].count`. -/
def State.bufRead (s : State) (b : BufIdx) (i : Nat) : Option Entry :=
  match s.buf b with
  | some u => if i < u.count then Memory.read u.cells i else none
  | none => none

/-- `BUF[b]` replaced, while the pair is allocated. -/
def State.setBuf (s : State) (b : BufIdx) (u : Buffer) : State :=
  { s with bufs := s.bufs.map (·.set b u) }

/-- `BufWrite(b, i, pol, t)` (R33): defined only when `BUF_VALID = 1` and `i < TX_BUF_CAP`; `t <= TICK_MAX` by its width. -/
def State.bufWrite (s : State) (b : BufIdx) (i : Nat) (e : Entry) : Option State :=
  match s.buf b with
  | some u => if i < s.params.txBufCap then some (s.setBuf b { u with cells := Memory.write u.cells i e }) else none
  | none => none

/-- `count` and the two flags of `BUF[b]` written, the entries kept (the end of `Fill` and `FillFlush`, R84, R87). -/
def State.closeBuf (s : State) (b : BufIdx) (n : Nat) (packetEnd lastPacketEnd : Bool) : State :=
  match s.buf b with
  | some u => s.setBuf b { u with count := n, packetEnd := packetEnd, lastPacketEnd := lastPacketEnd }
  | none => s

/-! ## Callouts, trace, producer port -/

/-- `Callout(ev)`: the record appended to `CALLOUTS` (R27). -/
def State.callout (s : State) (c : Callout) : State := { s with callouts := s.callouts ++ [c] }

/-- A record sent through a slot: dropped without any other effect when the slot is not valid (R55, D16). -/
def State.notify (s : State) (slot : CbSlot) (record : Count → Callout) : State :=
  if slot.valid then s.callout (record slot.ctx) else s

/-- `Emit(level, t)`: the pair appended to `TX_TRACE` (R26). -/
def State.emit (s : State) (e : Entry) : State := { s with txTrace := s.txTrace ++ [e] }

/-- The producer's next answer (R5): the next listed one; after the list, a free value (log 7). -/
def State.nextAnswer (s : State) : AnswerWord × State :=
  match s.producer with
  | a :: rest => (a, { s with producer := rest })
  | [] => (Config.freeAnswer s.draws, { s with draws := s.draws + 1 })

/-- `DataReq(CB[DATA].ctx)` (R37, R53): one answer is taken and the record appended. -/
def State.dataReq (s : State) : Answer × State :=
  (answerOf s.nextAnswer.1, s.nextAnswer.2.callout (.dataReq s.cbData.ctx (answerOf s.nextAnswer.1)))

/-- The level of the TX pin as the rules fix it: the inactive level while `TX_EN = 0` (R22, D35), else the polarity flag
last transferred. A halted block's pin is not specified (U4), so it has no value. -/
def State.txPin (s : State) : Option Bool :=
  if s.halted then none else some (s.txEn && s.txLevel)

/-! ## The fatal assertion and the reset -/

/-- `raise Fatal(cause)` (R95): every effect of the step on the block is discarded, so the block is as it was `before` the
step, with the fault registers written; what happened outside the block up to the state `reached` stays: the callouts and
data requests, the producer's answers taken for them (log 11), and the pair a `Play` step appended. -/
def raiseFatal (before reached : State) (cause : FatalCause) (op : BitVec 8) : State :=
  { before with
    halted := true, faultCause := causeCode cause, faultOp := op,
    callouts := reached.callouts, txTrace := reached.txTrace,
    producer := reached.producer, draws := reached.draws }

/-- The `Reset` step (R104), the only way out of the halt (R96): every register at its reset value; the RX pin keeps the
level the environment drives; the histories are emptied (log 10); the model's own fields go on. -/
def resetBlock (s : State) : State :=
  { State.reset with
    params := s.params, inputs := s.inputs, producer := s.producer, draws := s.draws, rxPin := s.rxPin }

/-! ## The command port -/

/-- When `Host` may issue a command (R52): not in a halted block, where no agent has a step (R95), and not while a command
is held (R13). -/
def hostGate (s : State) (issue : State → Result) : Result :=
  if s.halted then .fault .halted
  else match s.hostHeld with
    | .free => issue s
    | .stop | .wait => .refused .hostSuspended

/-- The checks every command begins with, in R52's order: enabled, then the state precondition. -/
def issueCommand (op : BitVec 8) (legal : EngineState → Bool) (s : State) (effect : State → Result) : Result :=
  hostGate s fun s => if legal s.engine then effect s else .next (raiseFatal s s .badState op)

/-- The legal state of a command that needs `Idle` (R80). -/
def legalInIdle (e : EngineState) : Bool := decide (e = .idle)

/-- The legal state of a command that needs `AsyncRx` (R80). -/
def legalInRx (e : EngineState) : Bool := decide (e = .asyncRx)

end Sys2Proof.Machine
end

