-- ==== Sys2Proof/Machine/RxCommands.lean ====
section
/-! DEFINITION. The five commands of the RX edge capturer (40_rx_capture.md section 1). -/

namespace Sys2Proof.Machine

/-- `RX_START` (R58). -/
def execRxStart (s : State) : Result :=
  issueCommand 0x10#8 legalInIdle s fun s =>
    .next { s with
      rxCnt := 0#32, rxCcr1 := 0#32, rxCcr2 := 0#32, rxCcr3 := 0#32, rxTmoArmed := false, prevCh2 := 0#32,
      rxEn := true, engine := .asyncRx }

/-- `RX_STOP` (R59). -/
def execRxStop (s : State) : Result :=
  issueCommand 0x11#8 legalInRx s fun s =>
    .next { s with rxEn := false, rxTmoArmed := false, engine := .idle }

/-- `RX_SET_TIMEOUT timeout_us` (R60). -/
def execRxSetTimeout (timeoutUs : Count) (s : State) : Result :=
  issueCommand 0x12#8 legalInRx s fun s => .next { s with rxCcr3 := timeoutUs, rxTmoArmed := true }

/-- `RX_SET_CAPTURE_CB valid, ctx` (R61). -/
def execRxSetCaptureCb (valid : Bool) (ctx : Count) (s : State) : Result :=
  issueCommand 0x13#8 legalInIdle s fun s => .next { s with cbCap := { valid := valid, ctx := ctx } }

/-- `RX_SET_TIMEOUT_CB valid, ctx` (R62). -/
def execRxSetTimeoutCb (valid : Bool) (ctx : Count) (s : State) : Result :=
  issueCommand 0x14#8 legalInIdle s fun s => .next { s with cbTmo := { valid := valid, ctx := ctx } }

end Sys2Proof.Machine
end

