-- ==== Sys2Proof/Machine/Fill.lean ====
section
/-! DEFINITION. Conversion of a duration to carrier cycles (R81), the buffer fill with its carry-over remainder (R84 to R86)
and the flush buffer (R87). -/

namespace Sys2Proof.Machine

/-- `NumCycles(d, f)`: `d` microseconds in carrier cycles at `f` Hz, a half rounded up (R81). -/
def numCycles (d f : Nat) : Nat := (2 * d * f + 1000000) / 2000000

/-- What one iteration of the fill's loop answers: it goes on, with the entries written so far and the status; the producer
answered `Error`; or a buffer access out of bounds. -/
inductive FillIter where
  | go (n : Nat) (status : Status) (s : State)
  | producerError (reached : State)
  | stuck (f : Fault)
  deriving DecidableEq, Repr

/-- Step 1 of R84: one entry of the carry-over remainder. -/
def drainRest (b : BufIdx) (n : Nat) (s : State) : FillIter :=
  let v := min s.restDuration.toNat tickMax
  match s.bufWrite b n { pol := s.restLevel, ticks := BitVec.ofNat 16 v } with
  | none => .stuck .bufferIndex
  | some t =>
    let left := BitVec.ofNat 64 (s.restDuration.toNat - v)
    .go (n + 1) (if left = 0#64 then s.restStatus else .ok) { t with restDuration := left }

/-- The rest of step 2 of R84 for an answer that is no `Error`: `c` is its number of cycles. -/
def placeSample (b : BufIdx) (n : Nat) (a : Answer) (c : Nat) (s : State) : FillIter :=
  if c = 0 then .go n (if n = 0 ∧ a.status = .done then .ok else a.status) s
  else if c - 1 > tickMax then
    match s.bufWrite b n { pol := a.level, ticks := BitVec.ofNat 16 tickMax } with
    | none => .stuck .bufferIndex
    | some t =>
      .go (n + 1) .ok
        { t with restDuration := BitVec.ofNat 64 (c - 1 - tickMax), restLevel := a.level, restStatus := a.status }
  else
    match s.bufWrite b n { pol := a.level, ticks := BitVec.ofNat 16 (c - 1) } with
    | none => .stuck .bufferIndex
    | some t => .go (n + 1) a.status t

/-- Step 2 of R84: one sample from the producer. -/
def pullSample (b : BufIdx) (n : Nat) (s : State) : FillIter :=
  match s.dataReq.1.status with
  | .error => .producerError s.dataReq.2
  | .ok | .done | .lastDone =>
    placeSample b n s.dataReq.1 (numCycles s.dataReq.1.duration.toNat s.freq.toNat) s.dataReq.2

/-- One iteration of the loop of R84: the remainder first (R86). -/
def fillIter (b : BufIdx) (n : Nat) (s : State) : FillIter :=
  if s.restDuration = 0#64 then pullSample b n s else drainRest b n s

/-- What `Fill` answers. -/
inductive FillResult where
  | filled (s : State)
  | producerError (reached : State)
  | stuck (f : Fault)
  deriving DecidableEq, Repr

/-- The end of R84: the forced entry of an empty buffer (step 4), the count, the flags (step 3), and the move to
`AsyncTxLast` (D30). -/
def closeFill (b : BufIdx) (n : Nat) (status : Status) (s : State) : FillResult :=
  let close (m : Nat) (t : State) : FillResult :=
    let u := t.closeBuf b m (packetEndOf status) (lastPacketEndOf status)
    .filled (if status = .lastDone ∧ u.engine = .asyncTx then { u with engine := .asyncTxLast } else u)
  if n = 0 then
    match s.bufWrite b 0 degenerateEntry with
    | none => .stuck .bufferIndex
    | some t => close 1 t
  else close n s

/-- The loop of R84. The fuel bounds the iterations so that the definition is total. A fill that uses it up is one that the
producer does not let end: it has no result, and the step that contains it does not exist (R107, R84 corner case 7; log 8). -/
def fillLoop (b : BufIdx) : Nat → Nat → Status → State → FillResult
  | fuel, n, status, s =>
    if n < s.params.txBufCap ∧ status = .ok then
      match fuel with
      | 0 => .stuck .fillDoesNotReturn
      | fuel + 1 =>
        match fillIter b n s with
        | .go n' status' s' => fillLoop b fuel n' status' s'
        | .producerError r => .producerError r
        | .stuck f => .stuck f
    else closeFill b n status s

/-- How many iterations a fill may take: one for each entry, one for each listed answer, and the free draws that the
producer's contract allows (log 8). -/
def fillFuel (s : State) : Nat := Config.freeDrawLimit s.draws + s.params.txBufCap + s.producer.length

/-- `Fill(b)` (R84). -/
def fill (b : BufIdx) (s : State) : FillResult := fillLoop b (fillFuel s) 0 .ok s

/-- `FillFlush(b)` (R87): two low entries, both flags set, no data request, the remainder untouched. -/
def fillFlush (b : BufIdx) (s : State) : Option State :=
  match s.bufWrite b 0 flushEntry with
  | none => none
  | some t =>
    match t.bufWrite b 1 flushEntry with
    | none => none
    | some u => some (u.closeBuf b 2 true true)

end Sys2Proof.Machine
end

