-- ==== Sys2Proof/Machine/TxCommands.lean ====
section
/-! DEFINITION. The six commands of the TX streamer (41_tx_commands.md section 2) and the completion step of a held command
(R78). -/

namespace Sys2Proof.Machine

/-- `TX_SET_DATA_CB valid, ctx` (R73). -/
def execTxSetDataCb (valid : Bool) (ctx : Count) (s : State) : Result :=
  issueCommand 0x20#8 legalInIdle s fun s => .next { s with cbData := { valid := valid, ctx := ctx } }

/-- `TX_SET_SENT_CB valid, ctx` (R74). -/
def execTxSetSentCb (valid : Bool) (ctx : Count) (s : State) : Result :=
  issueCommand 0x21#8 legalInIdle s fun s => .next { s with cbSent := { valid := valid, ctx := ctx } }

/-- `TX_START` up to its first fill (R75): the parameters, the allocated pair, the semaphore, no remainder, `AsyncTx`. -/
def armTx (freq : Count) (duty : BitVec 24) (s : State) : State :=
  { s with
    freq := freq, duty := duty,
    bufs := .allocated { buf0 := Buffer.fresh, buf1 := Buffer.fresh },
    semValid := true, termSem := false,
    restDuration := 0#64, restLevel := false, restStatus := .error,
    engine := .asyncTx }

/-- `TX_START` after its first fill (R75): the playback pointer and the timer. -/
def launchTx (s : State) : State :=
  { s with dmaBuf := .b0, dmaPos := 0, txLevel := false, txArr := 0#16, txEn := true }

/-- The duty cycle is one of 1 to 65536 (R48, R75). -/
def dutyLegal (duty : BitVec 24) : Bool := decide (duty ≠ 0#24) && decide (duty.toNat ≤ 65536)

/-- The frequency is in the valid radio range (R75). -/
def freqLegal (p : Params) (freq : Count) : Bool :=
  decide (p.txFreqMin.toNat ≤ freq.toNat) && decide (freq.toNat ≤ p.txFreqMax.toNat)

/-- `TX_START freq, duty` (R75), its checks in R100's order. -/
def execTxStart (freq : Count) (duty : BitVec 24) (s : State) : Result :=
  issueCommand 0x22#8 legalInIdle s fun s =>
    if !s.cbData.valid then .next (raiseFatal s s .nullDataCallback 0x22#8)
    else if !dutyLegal duty then .next (raiseFatal s s .badDutyCycle 0x22#8)
    else if !freqLegal s.params freq then .next (raiseFatal s s .badFrequency 0x22#8)
    else match fill .b0 (armTx freq duty s) with
      | .filled t => .next (launchTx t)
      | .producerError r => .next (raiseFatal s r .producerError 0x22#8)
      | .stuck f => .fault f

/-- The state a stop request leaves (R72, R76): it is flagged only in the steady running state. -/
def afterStopRequest : EngineState → EngineState
  | .asyncTx => .asyncTxStopRequested
  | e => e

/-- `TX_STOP`, issue step (R76). -/
def execTxStop (s : State) : Result :=
  issueCommand 0x23#8 txOrLater s fun s => .next { s with engine := afterStopRequest s.engine, hostHeld := .stop }

/-- `TX_WAIT_TERM`, issue step (R77). -/
def execTxWaitTerm (s : State) : Result :=
  issueCommand 0x24#8 txOrLater s fun s => .next { s with hostHeld := .wait }

/-- `TX_IS_COMPLETE` (R79): legal in every state (D39). -/
def execTxIsComplete (s : State) : Result :=
  issueCommand 0x25#8 (fun _ => true) s fun s =>
    .next { s with resp := if s.engine = .asyncTxStopped then 1#32 else 0#32 }

/-- Completion step of a held `TX_STOP` or `TX_WAIT_TERM` (R78). -/
def completeHeld (s : State) : Result :=
  if s.hostHeld ≠ .free ∧ s.termSem = true then
    .next { s with termSem := false, semValid := false, bufs := Buffers.freed, engine := .idle, hostHeld := .free }
  else .refused .nothingToComplete

end Sys2Proof.Machine
end

