-- ==== Sys2Proof/Machine/Dispatch.lean ====
section
/-! DEFINITION. The meaning of each command, one arm per constructor. -/

namespace Sys2Proof.Machine

def exec (i : Instr) (s : State) : Host.Outcome State Fault Refusal :=
  match i with
  | .rxStart => Sys2Proof.Machine.execRxStart s
  | .rxStop => Sys2Proof.Machine.execRxStop s
  | .rxSetTimeout t => Sys2Proof.Machine.execRxSetTimeout t s
  | .rxSetCaptureCb v c => Sys2Proof.Machine.execRxSetCaptureCb v c s
  | .rxSetTimeoutCb v c => Sys2Proof.Machine.execRxSetTimeoutCb v c s
  | .txSetDataCb v c => Sys2Proof.Machine.execTxSetDataCb v c s
  | .txSetSentCb v c => Sys2Proof.Machine.execTxSetSentCb v c s
  | .txStart f d => Sys2Proof.Machine.execTxStart f d s
  | .txStop => Sys2Proof.Machine.execTxStop s
  | .txWaitTerm => Sys2Proof.Machine.execTxWaitTerm s
  | .txIsComplete => Sys2Proof.Machine.execTxIsComplete s

end Sys2Proof.Machine
end

