-- ==== Sys2Proof/Machine/Env.lean ====
section
/-! DEFINITION. The steps of the environment and the three RX interrupt services (40_rx_capture.md sections 2 and 3). -/

namespace Sys2Proof.Machine

/-- `RisingService` (R67): the mark the rising edge ends. -/
def risingService (s : State) : State :=
  s.notify s.cbCap fun ctx => .capture ctx true (s.rxCcr1 - s.prevCh2)

/-- `FallingService` (R68): the space the falling edge ends, stashed for the next rising edge. -/
def fallingService (s : State) : State :=
  { s with prevCh2 := s.rxCcr2 }.notify s.cbCap fun ctx => .capture ctx false s.rxCcr2

/-- `TimeoutService` (R69): reported only when the live pin is high, which is silence. -/
def timeoutService (s : State) : State :=
  if s.rxPin then s.notify s.cbTmo fun ctx => .timeout ctx else s

/-- `Tick` (R63). -/
def tick (s : State) : State :=
  if s.rxEn then
    let t := { s with rxCnt := nextCount s.rxCnt s.params.rxPeriod }
    if cc3Flag t.rxTmoArmed t.rxCnt t.rxCcr3 then timeoutService t else t
  else s

/-- `Rise` (R64): channel 1 captures the count, the same edge resets it. -/
def rise (s : State) : Result :=
  if s.rxPin then .refused .pinAlreadyHigh
  else
    let t := { s with rxPin := true }
    if cc1Flag t.rxEn then .next (risingService { t with rxCcr1 := t.rxCnt, rxCnt := 0#32 }) else .next t

/-- `Fall` (R65): channel 2 captures the count, which runs on. -/
def fall (s : State) : Result :=
  if s.rxPin then
    let t := { s with rxPin := false }
    if cc2Flag t.rxEn then .next (fallingService { t with rxCcr2 := t.rxCnt }) else .next t
  else .refused .pinAlreadyLow

end Sys2Proof.Machine
end

