-- ==== Sys2Proof/Machine/Playback.lean ====
section
/-! DEFINITION. The `Play` step with the half-transfer and transfer-complete services (42_tx_refill_playback.md section 3). -/

namespace Sys2Proof.Machine

/-- `HalfTransferService` (R89): the other buffer is refilled, in `AsyncTx` only. -/
def halfTransferService (s : State) : FillResult :=
  if s.engine = .asyncTx then fill (otherBuf s.dmaBuf) s else .filled s

/-- The playback pointer at the start of the other buffer (R90). -/
def switchBuf (s : State) : State := { s with dmaBuf := otherBuf s.dmaBuf, dmaPos := 0 }

/-- The terminal completion (R90, first branch). -/
def finishTx (s : State) : State :=
  { s with txEn := false, txLevel := false, engine := .asyncTxStopped, termSem := true }

/-- The state update of `TransferCompleteService` (R90) when the buffer with this content just finished. -/
def handOver (u : Buffer) (s : State) : Option State :=
  if s.engine = .asyncTxStopInProgress then some (finishTx s)
  else if u.lastPacketEnd = true ∨ s.engine = .asyncTxStopRequested then
    match fillFlush (otherBuf s.dmaBuf) s with
    | some t => some { switchBuf t with engine := .asyncTxStopInProgress }
    | none => none
  else some (switchBuf s)

/-- The signal-sent callout of `TransferCompleteService` (R90, R91), `s` being the state as just updated. -/
def signalPacket (u : Buffer) (s : State) : State :=
  if u.packetEnd = true ∧ s.engine ≠ .asyncTxStopped then s.notify s.cbSent fun ctx => .signalSent ctx else s

/-- `TransferCompleteService` (R90). -/
def transferCompleteService (s : State) : Result :=
  match s.buf s.dmaBuf with
  | none => .fault .bufferIndex
  | some u =>
    match handOver u s with
    | none => .fault .bufferIndex
    | some t => .next (signalPacket u t)

/-- The transfer of one entry (R88): the polarity flag, the period value (R42), the trace, the pointer. -/
def transferEntry (e : Entry) (s : State) : State :=
  { s with txLevel := e.pol, txArr := e.ticks, dmaPos := s.dmaPos + 1 }.emit e

/-- `Play` (R88), in a buffer of `n` entries. -/
def playEntry (n : Nat) (s : State) : Result :=
  match s.bufRead s.dmaBuf s.dmaPos with
  | none => .fault .bufferIndex
  | some e =>
    let t := transferEntry e s
    match (if htFlag t.dmaPos n then halfTransferService t else .filled t) with
    | .producerError r => .next (raiseFatal s r .producerError eventHt)
    | .stuck f => .fault f
    | .filled u => if tcFlag u.dmaPos n then transferCompleteService u else .next u

/-- `Play` (R88): enabled while the timer runs and the buffer is not played out. -/
def play (s : State) : Result :=
  if s.txEn then
    match s.buf s.dmaBuf with
    | none => .fault .bufferIndex
    | some u => if s.dmaPos < u.count then playEntry u.count s else .refused .nothingToPlay
  else .refused .nothingToPlay

end Sys2Proof.Machine
end

