-- ==== Sys2Proof/Machine/Agents.lean ====
section
/-! DEFINITION. The steps of the agents (R5), and which one the block takes next. -/

namespace Sys2Proof.Machine

/-- `OP` of what was written to the port: bits 63:56 of the word, its last byte (R34, R47). -/
def opOfBytes (bytes : List Byte) : BitVec 8 := bytes.getLastD 0#8

/-- `Host` writes to the command port (R52): decode first, an illegal word raises `IllegalCommand` before any check of
`STATE` (R50, R100); a write that is not 64 bits is no command (R35). -/
def hostWrite (bytes : List Byte) (s : State) : Result :=
  match decodeBytes bytes with
  | .instr i => exec i s
  | .reject .notEightBytes => .refused .notACommandWord
  | .reject .unassignedOpcode => hostGate s fun s => .next (raiseFatal s s .illegalCommand (opOfBytes bytes))
  | .reject .reservedBitSet => hostGate s fun s => .next (raiseFatal s s .illegalCommand (opOfBytes bytes))

/-- One step of one agent (R5), in a block that is not halted or for a reset. -/
def takeInput (i : Input) (s : State) : Result :=
  match i with
  | .portWrite bytes => hostWrite bytes s
  | .complete => completeHeld s
  | .tick => .next (tick s)
  | .rise => rise s
  | .fall => fall s
  | .play => play s
  | .reset => .next (resetBlock s)

/-- The supplied steps still to come. -/
def State.withInputs (s : State) (l : List Input) : State := { s with inputs := l }

/-- The supplied steps from the next reset on. -/
def fromReset : List Input → List Input
  | [] => []
  | .reset :: rest => .reset :: rest
  | .portWrite _ :: rest | .complete :: rest | .tick :: rest | .rise :: rest | .fall :: rest | .play :: rest =>
    fromReset rest

/-- The next step (R40). A halted block has no step but the reset (R95, R96): what is supplied before the next reset is no
step (log 6), and with none supplied it is stuck (U4). A block that is not halted takes the first step supplied; with none
supplied it waits (R104, log 4). -/
def takeStep (s : State) : Result :=
  if s.halted then
    match fromReset s.inputs with
    | [] => .fault .halted
    | i :: rest => takeInput i (s.withInputs rest)
  else
    match s.inputs with
    | [] => .next s
    | i :: rest => takeInput i (s.withInputs rest)

/-- A command word placed where the next step takes it: a write of its eight bytes at the head of the supplied steps
(R31, R34, R46, log 3). -/
def supplyWord (w : Word) (s : State) : State := s.withInputs (.portWrite (bytesOfWord w) :: s.inputs)

end Sys2Proof.Machine
end

