-- ==== Sys2Proof/Machine/Step.lean ====
section
/-! DEFINITION. One step of the block. -/

namespace Sys2Proof.Machine

/-- One atomic step of one agent (R5, R40). -/
def step (s : State) : Host.Outcome State Fault Refusal := takeStep s

/-- The state in which the very next step issues the table word `w` on the command port. -/
def State.withFetchWord (s : State) (nbits w : Nat) : State := supplyWord (tableWord nbits w) s

end Sys2Proof.Machine
end

