-- ==== Sys2Proof/Safety.lean ====
section
/-! DEFINITION. What the claims are stated in: the tables of R72 and R80, the bytes of a command, the states the rules rule
out, and how a run by `Play` steps alone goes. -/

namespace Sys2Proof.Machine

/-! ## Tables -/

/-- The legal states of every command, R80's table row by row. -/
def legalState (i : Instr) (e : EngineState) : Bool :=
  match i, e with
  | .rxStart, .idle | .rxSetCaptureCb _ _, .idle | .rxSetTimeoutCb _ _, .idle => true
  | .txSetDataCb _ _, .idle | .txSetSentCb _ _, .idle | .txStart _ _, .idle => true
  | .rxStop, .asyncRx | .rxSetTimeout _, .asyncRx => true
  | .txStop, .asyncTx | .txStop, .asyncTxLast | .txStop, .asyncTxStopRequested
  | .txStop, .asyncTxStopInProgress | .txStop, .asyncTxStopped => true
  | .txWaitTerm, .asyncTx | .txWaitTerm, .asyncTxLast | .txWaitTerm, .asyncTxStopRequested
  | .txWaitTerm, .asyncTxStopInProgress | .txWaitTerm, .asyncTxStopped => true
  | .txIsComplete, _ => true
  | _, _ => false

/-- The transitions of R72's table, row by row. -/
def listedTransition (a b : EngineState) : Bool :=
  match a, b with
  | .idle, .asyncTx | .asyncTx, .asyncTxLast | .asyncTx, .asyncTxStopRequested
  | .asyncTxLast, .asyncTxStopInProgress | .asyncTxStopRequested, .asyncTxStopInProgress
  | .asyncTxStopInProgress, .asyncTxStopped | .asyncTxStopped, .idle
  | .idle, .asyncRx | .asyncRx, .idle => true
  | _, _ => false

/-- The host may issue a command: R52's enabling condition. -/
def State.hostReady (s : State) : Prop := s.halted = false ∧ s.hostHeld = .free

/-! ## Invariants -/

/-- Both buffers' entries are in canonical form. -/
def State.memoriesCanonical (s : State) : Prop :=
  ∀ b u, s.buf b = some u → Memory.wf u.cells = true

/-- A buffer that may be handed to the DMA: at least one entry and at most the capacity, each entry below `count` written,
and a last packet's end is a packet's end (R23, R25, R32). -/
structure Buffer.Playable (u : Buffer) (cap : Nat) : Prop where
  nonempty : 1 ≤ u.count
  fits : u.count ≤ cap
  written : ∀ i, i < u.count → (Memory.read u.cells i).isSome = true
  lastIsEnd : u.lastPacketEnd = true → u.packetEnd = true

/-- The flush buffer of R87. -/
def Buffer.IsFlush (u : Buffer) : Prop :=
  u.count = 2 ∧ Memory.read u.cells 0 = some flushEntry ∧ Memory.read u.cells 1 = some flushEntry

/-- What holds of the buffers while the DMA runs. -/
structure Streaming (s : State) : Prop where
  /-- R21, R25: the playing buffer has an entry left to play. -/
  playing : ∃ u, s.buf s.dmaBuf = some u ∧ u.Playable s.params.txBufCap ∧ s.dmaPos < u.count
  /-- R84, D30: in `AsyncTx` no `LastDone` has been met; past the half-transfer point the other buffer is filled (R90). -/
  steady : s.engine = .asyncTx → ∃ u v, s.buf s.dmaBuf = some u ∧ s.buf (otherBuf s.dmaBuf) = some v ∧
    u.lastPacketEnd = false ∧ (htPoint u.count ≤ s.dmaPos → v.Playable s.params.txBufCap ∧ v.lastPacketEnd = false)
  /-- In `AsyncTxLast` the playing buffer is the last one, or the other one is and is filled (R90). -/
  last : s.engine = .asyncTxLast → ∃ u v, s.buf s.dmaBuf = some u ∧ s.buf (otherBuf s.dmaBuf) = some v ∧
    (u.lastPacketEnd = true ∨ (v.Playable s.params.txBufCap ∧ v.lastPacketEnd = true))
  /-- R87, R90: in `AsyncTxStopInProgress` the flush buffer plays, and what it has played is in the trace. -/
  flushing : s.engine = .asyncTxStopInProgress → ∃ u, s.buf s.dmaBuf = some u ∧ u.IsFlush ∧
    (s.dmaPos = 1 → ∃ l, s.txTrace = l ++ [flushEntry])

/-- What holds of the block after reset and after every step. -/
structure State.Inv (s : State) : Prop where
  /-- R6. -/
  params : s.params.wf = true
  /-- R12: while `HALTED = 0` the fault registers are 0. -/
  faultRegs : s.halted = false → s.faultCause = 0#8 ∧ s.faultOp = 0#8
  /-- R14: the semaphore is given exactly in `AsyncTxStopped`. -/
  termSem : s.termSem = true ↔ s.engine = .asyncTxStopped
  /-- R14: the semaphore exists exactly during a TX session. -/
  semValid : s.semValid = txOrLater s.engine
  /-- R24: the buffers are allocated exactly during a TX session. -/
  bufValid : s.bufValid = txOrLater s.engine
  /-- R9, R22: the TX timer runs exactly in the states of `TxActive`. -/
  txEn : s.txEn = txActive s.engine
  /-- R22, D35: the TX level is inactive while the timer is off. -/
  txLevel : s.txEn = false → s.txLevel = false
  /-- R16: the RX timer runs exactly in `AsyncRx`. -/
  rxEn : s.rxEn = true ↔ s.engine = .asyncRx
  /-- R16: channel 3 is armed only in an RX session. -/
  armed : s.rxTmoArmed = true → s.engine = .asyncRx
  /-- R76 to R78: a command is held only during a TX session. -/
  held : s.hostHeld ≠ .free → txOrLater s.engine = true
  /-- U8: a remainder never carries the status `Error`. -/
  restStatus : s.restDuration ≠ 0#64 → s.restStatus ≠ .error
  /-- The buffers while the DMA runs. -/
  streaming : txActive s.engine = true → Streaming s
  /-- R90 corner case 5: in `AsyncTxStopped` the last two pairs are the flush buffer's. -/
  stopped : s.engine = .asyncTxStopped → ∃ l, s.txTrace = l ++ [flushEntry, flushEntry]

/-! ## Runs -/

/-- The answers the data requests among callout records carry, in order. -/
def requestedAnswers (l : List Callout) : List Answer :=
  l.filterMap fun c => match c with
    | .dataReq _ a => some a
    | .capture _ _ _ | .timeout _ | .signalSent _ => none

/-- The producer's next `n` answers (R5): the listed ones, then free values (log 7). -/
def State.nextAnswers (s : State) (n : Nat) : List AnswerWord :=
  s.producer.take n ++ (List.range (n - s.producer.length)).map fun k => Config.freeAnswer (s.draws + k)

/-- The records of the next `n` data requests (R37, R53, R55). -/
def State.nextRequests (s : State) (n : Nat) : List Callout :=
  (s.nextAnswers n).map fun a => .dataReq s.cbData.ctx (answerOf a)

/-- `n` data requests were made from `s` to `t`, each for the producer's next answer, and no other callout (R37). -/
def madeRequests (n : Nat) (s t : State) : Prop :=
  t.producer = s.producer.drop n ∧ t.draws = s.draws + (n - s.producer.length) ∧
    t.callouts = s.callouts ++ s.nextRequests n

/-- The number of signal-sent records among callout records. -/
def signalSentCount (l : List Callout) : Nat :=
  l.countP fun c => match c with
    | .signalSent _ => true
    | .capture _ _ _ | .timeout _ | .dataReq _ _ => false

/-- The number of timeout records among callout records. -/
def timeoutCount (l : List Callout) : Nat :=
  l.countP fun c => match c with
    | .timeout _ => true
    | .capture _ _ _ | .dataReq _ _ | .signalSent _ => false

/-- The number of entries a remainder or an oversized sample of `r` ticks splits into, `ceil(r / TICK_MAX)` (R85). -/
def splitCount (r : Nat) : Nat := (r + tickMax - 1) / tickMax

/-- The tick value of entry `i` of that split (R85). -/
def splitTicks (r i : Nat) : Nat := min tickMax (r - i * tickMax)

/-- The entries `r` ticks at one level are written as (R85). -/
def splitEntries (level : Bool) (r : Nat) : List Entry :=
  (List.range (splitCount r)).map fun i => { pol := level, ticks := BitVec.ofNat 16 (splitTicks r i) }

/-- The entries one sample of `c` cycles is written as (R83): none for no cycle, one of tick value 0 for one cycle, else the
split of `c - 1`. -/
def cycleEntries (level : Bool) (c : Nat) : List Entry :=
  if c = 0 then [] else if c = 1 then [{ pol := level, ticks := 0#16 }] else splitEntries level (c - 1)

/-- The entries of one producer answer at frequency `freq` (R81, R83). -/
def sampleEntries (freq : Count) (a : Answer) : List Entry :=
  cycleEntries a.level (numCycles a.duration.toNat freq.toNat)

/-- The entries the carry-over remainder stands for (R20, R85). -/
def State.restEntries (s : State) : List Entry := splitEntries s.restLevel s.restDuration.toNat

/-- The entries of a buffer below its count, in order (R24). -/
def Buffer.entries (u : Buffer) : List Entry := (List.range u.count).filterMap fun i => Memory.read u.cells i

/-- The entries of `BUF[b]`; none while it is not allocated. -/
def State.bufEntries (s : State) (b : BufIdx) : List Entry :=
  match s.buf b with
  | some u => u.entries
  | none => []

/-- The entries a session that takes no more samples still plays (R76, R89, R90, R111): the rest of the playing buffer; after
it, where the producer's last packet is in the other buffer, that buffer; and the flush buffer, unless it is the one
playing. What a stop request finds in the other buffer, and the remainder, are not played. -/
def State.windDownEntries (s : State) : List Entry :=
  match s.buf s.dmaBuf with
  | none => []
  | some u =>
    match s.engine with
    | .asyncTx | .asyncTxStopRequested => u.entries.drop s.dmaPos ++ [flushEntry, flushEntry]
    | .asyncTxLast =>
      u.entries.drop s.dmaPos ++ (if u.lastPacketEnd then [] else s.bufEntries (otherBuf s.dmaBuf)) ++
        [flushEntry, flushEntry]
    | .asyncTxStopInProgress => u.entries.drop s.dmaPos
    | .idle | .asyncRx | .asyncTxStopped => []

/-- How many packets such a session still finishes (R91): the playing buffer's and, in `AsyncTxLast`, the last one's. The
end of the flush buffer is none. -/
def State.windDownPackets (s : State) : Nat :=
  match s.buf s.dmaBuf with
  | none => 0
  | some u =>
    match s.engine with
    | .asyncTx | .asyncTxStopRequested => if u.packetEnd then 1 else 0
    | .asyncTxLast => (if u.packetEnd then 1 else 0) + (if u.lastPacketEnd then 0 else 1)
    | .idle | .asyncRx | .asyncTxStopInProgress | .asyncTxStopped => 0

/-- The entries of the remainder a fill from `s` found, and of these samples (R84, R85). -/
def State.entriesDue (s : State) (answers : List Answer) : List Entry :=
  s.restEntries ++ answers.flatMap (sampleEntries s.freq)

/-- The status of the last sample a fill from `s` took; with no sample taken, that of the remainder it found (R84). -/
def State.lastStatus (s : State) (answers : List Answer) : Status :=
  match answers.getLast? with
  | some a => a.status
  | none => s.restStatus

/-- The loop of a fill from `s` goes on after a sample that follows these (R84, corner cases 1 to 3): an `Ok`, or a `Done` of
no cycle while the buffer is empty. -/
def State.goesOnAfter (s : State) (before : List Answer) (a : Answer) : Prop :=
  a.status = .ok ∨
    (a.status = .done ∧ numCycles a.duration.toNat s.freq.toNat = 0 ∧ s.entriesDue before = [])

/-- The status that stands at the end of a fill from `s` to `t` that took these answers (R84, corner cases 5 and 6): `Ok`
while a remainder is left, else that of the last sample; with no sample taken, that of the remainder it drained. -/
def endStatus (s t : State) (answers : List Answer) : Status :=
  if t.restDuration ≠ 0#64 then .ok else s.lastStatus answers

/-- No listed answer is an `Error`. -/
def noErrorListed (s : State) : Prop := ∀ a ∈ s.producer, (answerOf a).status ≠ .error

/-- The listed answers end a fill of this capacity at this frequency: one of them is `LastDone`, or a `Done` of at least
one cycle, or as many as the buffer has entries are at least one cycle long. -/
def listedAnswersEndFill (freq : Count) (s : State) : Prop :=
  (∃ a ∈ s.producer, (answerOf a).status = .lastDone ∨
    ((answerOf a).status = .done ∧ numCycles (answerOf a).duration.toNat freq.toNat ≠ 0)) ∨
  s.params.txBufCap ≤
    (s.producer.filter fun a => decide (numCycles (answerOf a).duration.toNat freq.toNat ≠ 0)).length

end Sys2Proof.Machine
end

