-- ==== Sys2Proof/Certificates/Slice0/Obligations.lean ====
section
/-! DEFINITION. The statements about the model. Each docstring names the rules it formalises; what rests on a choice of the
model's own names its log entry. -/

open Sys2Proof Sys2Proof.Machine

/-! ## Encoding -/

/-- R47, R48, R49: the word of a command, and its bytes (R34), decode to the command with every operand whole. -/
def Obligations.DecodeOfEncodeIsTheCommand : Prop :=
  ∀ i : Instr, decode (encode i) = .instr i ∧ decodeBytes (encodeBytes i) = .instr i

/-- R49, R51: the word a command is decoded from is the command's one word. -/
def Obligations.DecodedWordIsTheEncoding : Prop :=
  ∀ (w : Word) (i : Instr), decode w = .instr i → encode i = w

/-- R51: a word matches one row and decodes as that row's command, or matches none and is illegal; no two rows overlap; no
value of `DUTY` or `FREQ` is a decoding error, and `TX_START` with a duty cycle out of range raises its own fatal assertion. -/
def Obligations.DecodingIsTotalAndUnambiguous : Prop :=
  (∀ w : Word,
    (∃ r ∈ opcodeTable, r.hits w = true ∧ decode w = .instr (r.build w) ∧
      ∀ q ∈ opcodeTable, q.hits w = true → q.mnemonic = r.mnemonic) ∨
    ((∀ r ∈ opcodeTable, r.hits w = false) ∧ ∃ why, decode w = .reject why)) ∧
  (∀ w : Word, opField w = 0x22#8 → decode w = .instr (.txStart (argField w) (auxField w))) ∧
  (∀ (freq : Count) (duty : BitVec 24) (s : State), s.hostReady → s.engine = .idle → s.cbData.valid = true →
    (duty = 0#24 ∨ 65536 < duty.toNat) →
    exec (.txStart freq duty) s = .next { s with halted := true, faultCause := 0x03#8, faultOp := 0x22#8 })

/-- R47, R50: the match and mask columns of R49 accept exactly the words whose fields R47 allows. -/
def Obligations.MasksAgreeWithFormats : Prop :=
  ∀ w : Word, (∃ i, decode w = .instr i) ↔ (rawOf w).wellFormed = true

/-- R49, words of 95_test_vectors.md section 2.1: some commands' words, written out. -/
def Obligations.SampleWordsDecode : Prop :=
  decode 0x1000000000000000#64 = .instr .rxStart ∧
  decode 0x12000000000249F0#64 = .instr (.rxSetTimeout 150000#32) ∧
  decode 0x13000000DEADBEEF#64 = .instr (.rxSetCaptureCb false 0xDEADBEEF#32) ∧
  decode 0x20000001D0D00001#64 = .instr (.txSetDataCb true 0xD0D00001#32) ∧
  decodeBytes [0x70#8, 0x94#8, 0x00#8, 0x00#8, 0x7B#8, 0x54#8, 0x00#8, 0x22#8] =
    .instr (.txStart 38000#32 21627#24) ∧
  decode 0x2300000000000000#64 = .instr .txStop ∧
  decode 0x2300000100000000#64 = .reject .reservedBitSet ∧
  decode 0x2600000000000000#64 = .reject .unassignedOpcode

/-- R53: the fields of a producer answer, read from its bits, and every answer has its 35 bits. -/
def Obligations.ProducerAnswerFields : Prop :=
  (∀ (status : Status) (level : Bool) (duration : Count),
    answerOf (answerWord status level duration) = { level := level, status := status, duration := duration }) ∧
  (∀ a : AnswerWord, (answerOf a).level = a.getLsbD 34 ∧ statusCode (answerOf a).status = a.extractLsb' 32 2 ∧
    (answerOf a).duration = a.extractLsb' 0 32)

/-! ## Steps -/

/-- R46, R52: when the bytes at the head of the supplied steps (log 3) decode to a command, the step is that command's
`exec`, the write taken off the list and nothing else around it. -/
def Obligations.StepRunsDecodedCommand : Prop :=
  (∀ (s : State) (bytes : List Byte) (rest : List Input) (i : Instr), s.halted = false →
    s.inputs = .portWrite bytes :: rest → decodeBytes bytes = .instr i →
    step s = exec i { s with inputs := rest }) ∧
  (∀ (s : State) (i : Instr), s.halted = false →
    step (s.withFetchWord 64 (encode i).toNat) = exec i s)

/-- R5, R40: every other supplied step (log 3) is the step of its agent, and with none supplied a block that runs waits
(R104; log 4). -/
def Obligations.StepTakesTheSuppliedStep : Prop :=
  ∀ (s : State) (rest : List Input), s.halted = false →
    (s.inputs = .complete :: rest → step s = completeHeld { s with inputs := rest }) ∧
    (s.inputs = .tick :: rest → step s = .next (tick { s with inputs := rest })) ∧
    (s.inputs = .rise :: rest → step s = rise { s with inputs := rest }) ∧
    (s.inputs = .fall :: rest → step s = fall { s with inputs := rest }) ∧
    (s.inputs = .play :: rest → step s = play { s with inputs := rest }) ∧
    (s.inputs = [] → step s = .next s)

/-- R50, R52, R94, R100: a word that matches no row halts the block with `IllegalCommand`, in whatever state the engine is,
and changes nothing else. -/
def Obligations.IllegalWordHalts : Prop :=
  ∀ (s : State) (w : Word) (rest : List Input), s.hostReady → s.inputs = .portWrite (bytesOfWord w) :: rest →
    (∀ r ∈ opcodeTable, r.hits w = false) →
    step s = .next { s with inputs := rest, halted := true, faultCause := 0x06#8, faultOp := opField w }

/-- R35: a write that is not 64 bits is no command: the port refuses it (the supplied steps are log 3). -/
def Obligations.OtherWriteLengthsAreRefused : Prop :=
  ∀ (s : State) (bytes : List Byte) (rest : List Input), s.halted = false → s.inputs = .portWrite bytes :: rest →
    bytes.length ≠ 8 → step s = .refused .notACommandWord

/-! ## Fatal assertions -/

/-- R80: the table of legal states. In any other state every command halts the block with `BadState` and changes nothing
else; in a legal state no command does. -/
def Obligations.CommandsAreLegalExactlyInTheirStates : Prop :=
  ∀ (i : Instr) (s : State), s.hostReady →
    (legalState i s.engine = false →
      exec i s = .next { s with halted := true, faultCause := 0x01#8, faultOp := opcodeOf i }) ∧
    (legalState i s.engine = true → ∀ t, exec i s = .next t → t.faultCause = s.faultCause ∨ t.faultCause ≠ 0x01#8)

/-- R95: a step that halts the block discards every other effect on it. What stays is outside the block: the data requests it
made, `n` of them and none where the cause is not `ProducerError`, with the producer's next answers, which they have taken
(log 11); and the pair a `Play` step appended, the entry the playback pointer stands at. -/
def Obligations.FatalDiscardsTheStep : Prop :=
  ∀ s t : State, s.halted = false → step s = .next t → t.halted = true →
    ∃ n : Nat, (t.faultCause ≠ 0x05#8 → n = 0) ∧
      (s.inputs.head? = some .play → (s.bufRead s.dmaBuf s.dmaPos).isSome = true) ∧
      t = { s with
        inputs := s.inputs.tail, halted := true, faultCause := t.faultCause, faultOp := t.faultOp,
        producer := s.producer.drop n, draws := s.draws + (n - s.producer.length),
        callouts := s.callouts ++ s.nextRequests n,
        txTrace := s.txTrace ++ if s.inputs.head? = some .play then (s.bufRead s.dmaBuf s.dmaPos).toList else [] }

/-- R96, R95: a halted block takes no step but the reset: no command runs, and a step that answers a state is a reset. That
what is supplied before the reset is dropped, and the name of the stop, are the model's choice (log 6). -/
def Obligations.OnlyResetLeavesTheHalt : Prop :=
  ∀ s : State, s.halted = true →
    (∀ i, exec i s = .fault .halted) ∧
    (∀ t, step s = .next t → t.halted = false ∧ ∃ rest, .reset :: rest <:+ s.inputs ∧
      t = resetBlock { s with inputs := rest }) ∧
    (.reset ∉ s.inputs → step s = .fault .halted)

/-- R13, R52: while a command is held the host can issue none, legal or not. A step that is not enabled is refused (log 5). -/
def Obligations.HeldHostIssuesNothing : Prop :=
  ∀ s : State, s.halted = false → s.hostHeld ≠ .free →
    (∀ i, exec i s = .refused .hostSuspended) ∧
    (∀ (w : Word) (rest : List Input), s.inputs = .portWrite (bytesOfWord w) :: rest → step s = .refused .hostSuspended)

/-- R94, R71, R100: whatever step halts the block, its cause is a row of the table: raised by what the row names, when the
row says, with the `FAULT_OP` of the row; of the causes `TX_START` checks for, each with the earlier checks passed. -/
def Obligations.FatalCausesAreThoseOfTheTable : Prop :=
  ∀ s t : State, s.halted = false → step s = .next t → t.halted = true →
    (∃ bytes i, s.inputs.head? = some (.portWrite bytes) ∧ decodeBytes bytes = .instr i ∧ t.faultOp = opcodeOf i ∧
      ((t.faultCause = 0x01#8 ∧ legalState i s.engine = false) ∨
       ∃ freq duty, i = .txStart freq duty ∧ s.engine = .idle ∧
        ((t.faultCause = 0x02#8 ∧ s.cbData.valid = false) ∨
         (t.faultCause = 0x03#8 ∧ s.cbData.valid = true ∧ (duty = 0#24 ∨ 65536 < duty.toNat)) ∨
         (t.faultCause = 0x04#8 ∧ s.cbData.valid = true ∧ duty ≠ 0#24 ∧ duty.toNat ≤ 65536 ∧
          (freq.toNat < s.params.txFreqMin.toNat ∨ s.params.txFreqMax.toNat < freq.toNat)) ∨
         (t.faultCause = 0x05#8 ∧ s.cbData.valid = true ∧ duty ≠ 0#24 ∧ duty.toNat ≤ 65536 ∧
          s.params.txFreqMin.toNat ≤ freq.toNat ∧ freq.toNat ≤ s.params.txFreqMax.toNat ∧
          ∃ a, t.callouts.getLast? = some (.dataReq s.cbData.ctx a) ∧ a.status = .error)))) ∨
    (∃ w, s.inputs.head? = some (.portWrite (bytesOfWord w)) ∧ (∀ r ∈ opcodeTable, r.hits w = false) ∧
      t.faultCause = 0x06#8 ∧ t.faultOp = opField w) ∨
    (s.inputs.head? = some .play ∧ s.engine = .asyncTx ∧ t.faultCause = 0x05#8 ∧ t.faultOp = 0x84#8 ∧
      ∃ a, t.callouts.getLast? = some (.dataReq s.cbData.ctx a) ∧ a.status = .error)

/-! ## The RX capturer -/

/-- R58: `RX_START`. -/
def Obligations.RxStartBeginsASession : Prop :=
  decode 0x1000000000000000#64 = .instr .rxStart ∧
  ∀ s : State, s.hostReady →
    (s.engine = .idle → exec .rxStart s = .next { s with
      rxCnt := 0#32, rxCcr1 := 0#32, rxCcr2 := 0#32, rxCcr3 := 0#32, rxTmoArmed := false, prevCh2 := 0#32,
      rxEn := true, engine := .asyncRx }) ∧
    (s.engine ≠ .idle → exec .rxStart s = .next { s with halted := true, faultCause := 0x01#8, faultOp := 0x10#8 })

/-- R59: `RX_STOP`; the counter, the captures and the slots stay. -/
def Obligations.RxStopEndsASession : Prop :=
  decode 0x1100000000000000#64 = .instr .rxStop ∧
  ∀ s : State, s.hostReady →
    (s.engine = .asyncRx → exec .rxStop s = .next { s with rxEn := false, rxTmoArmed := false, engine := .idle }) ∧
    (s.engine ≠ .asyncRx → exec .rxStop s = .next { s with halted := true, faultCause := 0x01#8, faultOp := 0x11#8 })

/-- R60: `RX_SET_TIMEOUT` sets the compare and arms it, and touches nothing else; a compare above the period never
matches, and a compare of 0 matches only where a tick wraps the counter. -/
def Obligations.RxSetTimeoutArmsTheCompare : Prop :=
  (∀ us : Count, decode (0x12000000#32 ++ us) = .instr (.rxSetTimeout us)) ∧
  (∀ (us : Count) (s : State), s.hostReady →
    (s.engine = .asyncRx → exec (.rxSetTimeout us) s = .next { s with rxCcr3 := us, rxTmoArmed := true }) ∧
    (s.engine ≠ .asyncRx → exec (.rxSetTimeout us) s =
      .next { s with halted := true, faultCause := 0x01#8, faultOp := 0x12#8 })) ∧
  (∀ s : State, s.rxCnt.toNat ≤ s.params.rxPeriod.toNat →
    (s.params.rxPeriod.toNat < s.rxCcr3.toNat → (tick s).callouts = s.callouts) ∧
    (s.rxCcr3 = 0#32 → (tick s).callouts ≠ s.callouts → s.rxCnt = s.params.rxPeriod))

/-- R61, R62: the two RX callback commands. -/
def Obligations.RxCallbackCommandsWriteTheirSlot : Prop :=
  ∀ (valid : Bool) (ctx : Count) (s : State), s.hostReady →
    (s.engine = .idle →
      exec (.rxSetCaptureCb valid ctx) s = .next { s with cbCap := { valid := valid, ctx := ctx } } ∧
      exec (.rxSetTimeoutCb valid ctx) s = .next { s with cbTmo := { valid := valid, ctx := ctx } }) ∧
    (s.engine ≠ .idle →
      exec (.rxSetCaptureCb valid ctx) s = .next { s with halted := true, faultCause := 0x01#8, faultOp := 0x13#8 } ∧
      exec (.rxSetTimeoutCb valid ctx) s = .next { s with halted := true, faultCause := 0x01#8, faultOp := 0x14#8 })

/-- R63, R69: a tick, with the timeout service it may run. -/
def Obligations.TickCountsAndCompares : Prop :=
  ∀ s : State,
    (s.rxEn = false → tick s = s) ∧
    (s.rxEn = true → ∀ c : Count, (c = if s.rxCnt = s.params.rxPeriod then 0#32 else s.rxCnt + 1#32) →
      tick s = { s with
        rxCnt := c,
        callouts := s.callouts ++
          if s.rxTmoArmed = true ∧ c = s.rxCcr3 ∧ s.rxPin = true ∧ s.cbTmo.valid = true
          then [.timeout s.cbTmo.ctx] else [] })

/-- R64, R67: a rising edge captures the count reached, resets the counter and reports the mark, modulo 2^32. With the pin
high it is not enabled (log 5). -/
def Obligations.RiseCapturesAndReportsTheMark : Prop :=
  ∀ s : State,
    (s.rxPin = true → rise s = .refused .pinAlreadyHigh) ∧
    (s.rxPin = false → s.rxEn = false → rise s = .next { s with rxPin := true }) ∧
    (s.rxPin = false → s.rxEn = true → rise s = .next { s with
      rxPin := true, rxCcr1 := s.rxCnt, rxCnt := 0#32,
      callouts := s.callouts ++
        if s.cbCap.valid = true then [.capture s.cbCap.ctx true (s.rxCnt - s.prevCh2)] else [] })

/-- R65, R68: a falling edge captures the count, lets it run on, stashes it and reports the space. With the pin low it is
not enabled (log 5). -/
def Obligations.FallCapturesAndReportsTheSpace : Prop :=
  ∀ s : State,
    (s.rxPin = false → fall s = .refused .pinAlreadyLow) ∧
    (s.rxPin = true → s.rxEn = false → fall s = .next { s with rxPin := false }) ∧
    (s.rxPin = true → s.rxEn = true → fall s = .next { s with
      rxPin := false, rxCcr2 := s.rxCnt, prevCh2 := s.rxCnt,
      callouts := s.callouts ++ if s.cbCap.valid = true then [.capture s.cbCap.ctx false s.rxCnt] else [] })

/-- R68, R112: the duration reported for a space is the number of ticks since the rising edge, modulo the period. -/
def Obligations.SpaceDurationIsTheTicksSinceTheRise : Prop :=
  ∀ (s t : State) (n : Nat), s.rxEn = true → s.cbCap.valid = true → rise s = .next t →
    ∃ u, fall (tick^[n] t) = .next u ∧
      u.callouts = (tick^[n] t).callouts ++
        [.capture s.cbCap.ctx false (BitVec.ofNat 32 (n % (s.params.rxPeriod.toNat + 1)))]

/-- R67: the duration reported for a mark is the number of ticks since the falling edge: while the counter does not wrap;
modulo 2^32 with the full period; and off by `2^32 - (RX_PERIOD + 1)` where a smaller period wrapped once. -/
def Obligations.MarkDurationIsTheTicksSinceTheFall : Prop :=
  ∀ (s t : State) (n : Nat), s.rxEn = true → s.cbCap.valid = true → fall s = .next t →
    ∃ u duration, rise (tick^[n] t) = .next u ∧
      u.callouts = (tick^[n] t).callouts ++ [.capture s.cbCap.ctx true duration] ∧
      (s.rxCnt.toNat + n ≤ s.params.rxPeriod.toNat → duration = BitVec.ofNat 32 n) ∧
      (s.params.rxPeriod = 0xFFFFFFFF#32 → duration = BitVec.ofNat 32 n) ∧
      (s.rxCnt.toNat ≤ s.params.rxPeriod.toNat → s.params.rxPeriod.toNat < s.rxCnt.toNat + n →
        s.rxCnt.toNat + n ≤ 2 * s.params.rxPeriod.toNat + 1 →
        duration = BitVec.ofNat 32 (n + 2 ^ 32 - (s.params.rxPeriod.toNat + 1)))

/-- R63: in as many ticks as the counter has values at most one timeout is reported. -/
def Obligations.TimeoutAtMostOncePerPeriod : Prop :=
  ∀ (s : State) (n : Nat), s.rxCnt.toNat ≤ s.params.rxPeriod.toNat → n ≤ s.params.rxPeriod.toNat + 1 →
    timeoutCount (tick^[n] s).callouts ≤ timeoutCount s.callouts + 1

/-- R16, R63: every step keeps the counter within its period. -/
def Obligations.RxCounterStaysWithinItsPeriod : Prop :=
  ∀ s t : State, s.rxCnt.toNat ≤ s.params.rxPeriod.toNat → step s = .next t →
    t.rxCnt.toNat ≤ t.params.rxPeriod.toNat

/-! ## The TX commands -/

/-- R73, R74: the two TX callback commands. -/
def Obligations.TxCallbackCommandsWriteTheirSlot : Prop :=
  ∀ (valid : Bool) (ctx : Count) (s : State), s.hostReady →
    (s.engine = .idle →
      exec (.txSetDataCb valid ctx) s = .next { s with cbData := { valid := valid, ctx := ctx } } ∧
      exec (.txSetSentCb valid ctx) s = .next { s with cbSent := { valid := valid, ctx := ctx } }) ∧
    (s.engine ≠ .idle →
      exec (.txSetDataCb valid ctx) s = .next { s with halted := true, faultCause := 0x01#8, faultOp := 0x20#8 } ∧
      exec (.txSetSentCb valid ctx) s = .next { s with halted := true, faultCause := 0x01#8, faultOp := 0x21#8 })

/-- R75, R100: the checks of `TX_START` in their order, each with its cause; the first that fails is the one reported. -/
def Obligations.TxStartReportsTheFirstFailingCheck : Prop :=
  ∀ (freq : Count) (duty : BitVec 24) (s : State), s.hostReady →
    (s.engine ≠ .idle → exec (.txStart freq duty) s =
      .next { s with halted := true, faultCause := 0x01#8, faultOp := 0x22#8 }) ∧
    (s.engine = .idle → s.cbData.valid = false → exec (.txStart freq duty) s =
      .next { s with halted := true, faultCause := 0x02#8, faultOp := 0x22#8 }) ∧
    (s.engine = .idle → s.cbData.valid = true → (duty = 0#24 ∨ 65536 < duty.toNat) → exec (.txStart freq duty) s =
      .next { s with halted := true, faultCause := 0x03#8, faultOp := 0x22#8 }) ∧
    (s.engine = .idle → s.cbData.valid = true → duty ≠ 0#24 → duty.toNat ≤ 65536 →
      (freq.toNat < s.params.txFreqMin.toNat ∨ s.params.txFreqMax.toNat < freq.toNat) → exec (.txStart freq duty) s =
      .next { s with halted := true, faultCause := 0x04#8, faultOp := 0x22#8 })

/-- R75, R95: an `Error` during the first fill, after samples of `Ok` that one entry each holds: nothing of the command
stays but the halt and the data requests (and, log 11, the producer's answers are taken). -/
def Obligations.TxStartProducerErrorKeepsTheRequests : Prop :=
  ∀ (freq : Count) (duty : BitVec 24) (s : State) (good : List AnswerWord) (bad : AnswerWord) (rest : List AnswerWord),
    s.hostReady → s.engine = .idle → s.cbData.valid = true → duty ≠ 0#24 → duty.toNat ≤ 65536 →
    s.params.txFreqMin.toNat ≤ freq.toNat → freq.toNat ≤ s.params.txFreqMax.toNat →
    s.producer = good ++ bad :: rest → good.length < s.params.txBufCap →
    (∀ a ∈ good, (answerOf a).status = .ok ∧ 1 ≤ numCycles (answerOf a).duration.toNat freq.toNat ∧
      numCycles (answerOf a).duration.toNat freq.toNat ≤ 65536) →
    (answerOf bad).status = .error →
    exec (.txStart freq duty) s = .next { s with
      halted := true, faultCause := 0x05#8, faultOp := 0x22#8, producer := rest,
      callouts := s.callouts ++ (good ++ [bad]).map fun a => .dataReq s.cbData.ctx (answerOf a) }

/-- R75, R84: a `TX_START` whose checks hold, with a producer whose listed answers hold no `Error` and end the first fill,
starts the session: a first buffer of at least one entry, a second not filled yet, the pointer at its start, the timer on. -/
def Obligations.TxStartCompletes : Prop :=
  ∀ (freq : Count) (duty : BitVec 24) (s : State), s.hostReady → s.params.wf = true → s.engine = .idle →
    s.cbData.valid = true → duty ≠ 0#24 → duty.toNat ≤ 65536 →
    s.params.txFreqMin.toNat ≤ freq.toNat → freq.toNat ≤ s.params.txFreqMax.toNat →
    noErrorListed s → listedAnswersEndFill freq s →
    ∃ t u, exec (.txStart freq duty) s = .next t ∧ t.halted = false ∧ t.freq = freq ∧ t.duty = duty ∧
      t.buf .b0 = some u ∧ u.Playable s.params.txBufCap ∧ t.buf .b1 = some Buffer.fresh ∧
      t.engine = (if u.lastPacketEnd = true then .asyncTxLast else .asyncTx) ∧
      t.semValid = true ∧ t.termSem = false ∧ t.dmaBuf = .b0 ∧ t.dmaPos = 0 ∧
      t.txLevel = false ∧ t.txArr = 0#16 ∧ t.txEn = true

/-- R75, R84: what `TX_START` does whenever it does not halt: the parameters, the semaphore, the pointer and the timer as the
rule sets them, the first buffer the entries of the samples it took, a remainder left with the status of the last one, and
every other register and the trace as before. -/
def Obligations.TxStartResultAndFrame : Prop :=
  ∀ (freq : Count) (duty : BitVec 24) (s t : State), s.params.wf = true → exec (.txStart freq duty) s = .next t →
    t.halted = false →
    t = { s with
      freq := freq, duty := duty, semValid := true, termSem := false, dmaBuf := .b0, dmaPos := 0,
      txLevel := false, txArr := 0#16, txEn := true,
      engine := t.engine, bufs := t.bufs, restDuration := t.restDuration, restLevel := t.restLevel,
      restStatus := t.restStatus, producer := t.producer, draws := t.draws, callouts := t.callouts } ∧
    t.buf .b1 = some Buffer.fresh ∧
    ∃ u l, t.buf .b0 = some u ∧ t.callouts = s.callouts ++ l ∧ (∀ c ∈ l, ∃ a, c = .dataReq s.cbData.ctx a) ∧
      t.engine = (if u.lastPacketEnd = true then .asyncTxLast else .asyncTx) ∧
      ((requestedAnswers l).flatMap (sampleEntries freq) ≠ [] →
        u.entries ++ t.restEntries = (requestedAnswers l).flatMap (sampleEntries freq)) ∧
      ((requestedAnswers l).flatMap (sampleEntries freq) = [] →
        u.entries = [{ pol := false, ticks := degenerateTicks }]) ∧
      (t.restDuration ≠ 0#64 → ∃ a, (requestedAnswers l).getLast? = some a ∧ t.restStatus = a.status)

/-- R76: the issue step of `TX_STOP`. -/
def Obligations.TxStopIssueStep : Prop :=
  decode 0x2300000000000000#64 = .instr .txStop ∧
  ∀ s : State, s.hostReady →
    (s.engine = .asyncTx → exec .txStop s = .next { s with engine := .asyncTxStopRequested, hostHeld := .stop }) ∧
    (txOrLater s.engine = true → s.engine ≠ .asyncTx → exec .txStop s = .next { s with hostHeld := .stop }) ∧
    (txOrLater s.engine = false → exec .txStop s =
      .next { s with halted := true, faultCause := 0x01#8, faultOp := 0x23#8 })

/-- R77: the issue step of `TX_WAIT_TERM`: no stop is asked for. -/
def Obligations.TxWaitTermIssueStep : Prop :=
  decode 0x2400000000000000#64 = .instr .txWaitTerm ∧
  ∀ s : State, s.hostReady →
    (txOrLater s.engine = true → exec .txWaitTerm s = .next { s with hostHeld := .wait }) ∧
    (txOrLater s.engine = false → exec .txWaitTerm s =
      .next { s with halted := true, faultCause := 0x01#8, faultOp := 0x24#8 })

/-- R78, R45: the completion step of a held command takes the semaphore, frees it and the buffers and returns to `Idle`;
without a held command or the semaphore it is not enabled (log 5). -/
def Obligations.CompletionFreesTheSession : Prop :=
  ∀ s : State,
    (s.hostHeld ≠ .free → s.termSem = true → completeHeld s = .next { s with
      termSem := false, semValid := false, bufs := Buffers.freed, engine := .idle, hostHeld := .free }) ∧
    ((s.hostHeld = .free ∨ s.termSem = false) → completeHeld s = .refused .nothingToComplete)

/-- R79: `TX_IS_COMPLETE` answers in `RESP` and changes nothing else, in every state. -/
def Obligations.TxIsCompletePollsStopped : Prop :=
  decode 0x2500000000000000#64 = .instr .txIsComplete ∧
  ∀ s : State, s.hostReady →
    (s.engine = .asyncTxStopped → exec .txIsComplete s = .next { s with resp := 1#32 }) ∧
    (s.engine ≠ .asyncTxStopped → exec .txIsComplete s = .next { s with resp := 0#32 })

/-! ## Conversion and fill -/

/-- R81, R82: `NumCycles` is the nearest whole number of cycles, a tie rounded up; it is 0 exactly below half a cycle, and
it fits 45 bits. The bound of R82, multiplied out: `2 |c * 10^6 - d * f| <= 10^6`. -/
def Obligations.NumCyclesRoundsToNearest : Prop :=
  (∀ d f c : Nat, numCycles d f = c ↔
    2 * (c * 1000000) ≤ 2 * (d * f) + 1000000 ∧ 2 * (d * f) < 2 * (c * 1000000) + 1000000) ∧
  (∀ d f : Nat, numCycles d f = 0 ↔ 2 * (d * f) < 1000000) ∧
  (∀ f : Nat, numCycles 0 f = 0) ∧ numCycles 1 500000 = 1 ∧ numCycles 3 500000 = 2 ∧ numCycles 500 433920 = 217 ∧
  (∀ d f : Count, numCycles d.toNat f.toNat < 2 ^ 45)

/-- R84, R85, R83: the entries of a fill, followed by those its remainder stands for, are those the remainder stood for
before, followed by those of the samples it took: no tick lost, duplicated or moved, and every entry of its sample's level.
Where there is none, the buffer is the forced entry, low. -/
def Obligations.FillConservesEveryTick : Prop :=
  ∀ (b : BufIdx) (s t : State), s.bufValid = true → s.params.wf = true → fill b s = .filled t →
    ∃ u l, t.buf b = some u ∧ t.callouts = s.callouts ++ l ∧ (∀ c ∈ l, ∃ a, c = .dataReq s.cbData.ctx a) ∧
      (s.restEntries ++ (requestedAnswers l).flatMap (sampleEntries s.freq) ≠ [] →
        u.entries ++ t.restEntries = s.restEntries ++ (requestedAnswers l).flatMap (sampleEntries s.freq)) ∧
      (s.restEntries ++ (requestedAnswers l).flatMap (sampleEntries s.freq) = [] →
        u.entries = [{ pol := false, ticks := degenerateTicks }] ∧ t.restDuration = 0#64)

/-- R84, R85, R20: the tick values of a fill's entries and the remainder it leaves add up to the remainder it found and
`num_cycles - 1` for every sample it took that lasts a cycle or more. Where the fill took none of those and found no
remainder, its one entry is the forced one of R84 step 4, and the sum is 0 because `DEGENERATE_TICKS` is 0 (D26; log 17). -/
def Obligations.FillTicksAddUp : Prop :=
  ∀ (b : BufIdx) (s t : State), s.bufValid = true → s.params.wf = true → fill b s = .filled t →
    ∃ u l, t.buf b = some u ∧ t.callouts = s.callouts ++ l ∧
      (u.entries.map fun e => e.ticks.toNat).sum + t.restDuration.toNat =
        s.restDuration.toNat +
          ((requestedAnswers l).map fun a => numCycles a.duration.toNat s.freq.toNat - 1).sum

/-- R84, R20, R23, R25, R107: what a fill records and when it ends. The flags are those of the status it ended with; the
count is 1 to the capacity; it ended because the buffer is full or because that status is not `Ok`. Each sample was asked
for with an entry still free; every one before the last was `Ok`, or a `Done` of no cycle swallowed in a buffer that was
empty (corner case 3); a last one that is a `Done` of no cycle found entries there (corner case 2), so in an empty buffer it
does not end the fill. A remainder that is left holds the status of the last sample, or the one it was found with (corner
case 5). `LastDone` moves `AsyncTx` to `AsyncTxLast`. -/
def Obligations.FillRecordsTheEndOfThePacket : Prop :=
  ∀ (b : BufIdx) (s t : State), s.bufValid = true → s.params.wf = true → fill b s = .filled t →
    ∃ u l, t.buf b = some u ∧ t.callouts = s.callouts ++ l ∧ 1 ≤ u.count ∧ u.count ≤ s.params.txBufCap ∧
      (∀ i, i < u.count → (t.bufRead b i).isSome = true) ∧
      (u.packetEnd = true ↔ endStatus s t (requestedAnswers l) = .done ∨ endStatus s t (requestedAnswers l) = .lastDone) ∧
      (u.lastPacketEnd = true ↔ endStatus s t (requestedAnswers l) = .lastDone) ∧
      (u.count = s.params.txBufCap ∨ endStatus s t (requestedAnswers l) ≠ .ok) ∧
      (∀ pre a post, requestedAnswers l = pre ++ a :: post →
        (s.entriesDue pre).length < s.params.txBufCap ∧
        (post ≠ [] → a.status = .ok ∨
          (a.status = .done ∧ numCycles a.duration.toNat s.freq.toNat = 0 ∧ s.entriesDue pre = [])) ∧
        (post = [] → a.status = .done → numCycles a.duration.toNat s.freq.toNat = 0 → s.entriesDue pre ≠ [])) ∧
      (t.restDuration ≠ 0#64 → t.restStatus = match (requestedAnswers l).getLast? with
        | some a => a.status
        | none => s.restStatus) ∧
      (∀ a ∈ requestedAnswers l, a.status ≠ .error) ∧
      t.engine = (if u.lastPacketEnd = true ∧ s.engine = .asyncTx then .asyncTxLast else s.engine)

/-- R84, R33, R37: the frame of a fill: it writes one buffer, the remainder and `STATE`, and makes data requests, each with
the producer's next answer, which it takes; the other buffer and everything else is as before. -/
def Obligations.FillLeavesTheRestAlone : Prop :=
  ∀ (b : BufIdx) (s t : State), s.bufValid = true → s.params.wf = true → fill b s = .filled t →
    t.buf (otherBuf b) = s.buf (otherBuf b) ∧ ∃ n : Nat,
      t = { s with
        engine := t.engine, bufs := t.bufs, restDuration := t.restDuration, restLevel := t.restLevel,
        restStatus := t.restStatus,
        producer := s.producer.drop n, draws := s.draws + (n - s.producer.length),
        callouts := s.callouts ++ s.nextRequests n }

/-- R86: while a remainder of a buffer's length or more is left the fill makes no data request: it drains the capacity of
entries of it. -/
def Obligations.RemainderIsDrainedBeforeAnyRequest : Prop :=
  ∀ (b : BufIdx) (s : State), s.bufValid = true → s.params.wf = true →
    s.params.txBufCap ≤ splitCount s.restDuration.toNat →
    ∃ t u, fill b s = .filled t ∧ t.producer = s.producer ∧ t.draws = s.draws ∧ t.callouts = s.callouts ∧
      t.buf b = some u ∧ u.count = s.params.txBufCap ∧
      (∀ i, i < u.count → t.bufRead b i =
        some { pol := s.restLevel, ticks := BitVec.ofNat 16 (splitTicks s.restDuration.toNat i) }) ∧
      t.restDuration.toNat = s.restDuration.toNat - s.params.txBufCap * tickMax

/-- R87: the flush buffer: two low entries, both flags; no data request, the remainder and all else untouched. The entry is
the one the statements call `flushEntry`. -/
def Obligations.FlushBufferIsTwoLowEntries : Prop :=
  ∀ (b : BufIdx) (s : State), s.bufValid = true → s.params.wf = true →
    ∃ t u, fillFlush b s = some t ∧ t.buf b = some u ∧
      u.entries = [{ pol := false, ticks := flushTicks }, { pol := false, ticks := flushTicks }] ∧ u.count = 2 ∧
      u.packetEnd = true ∧ u.lastPacketEnd = true ∧
      t.buf (otherBuf b) = s.buf (otherBuf b) ∧ t = { s with bufs := t.bufs } ∧
      flushEntry = { pol := false, ticks := flushTicks }

/-! ## Playback -/

/-- R88, R42: `Play` is not enabled with the timer off or the buffer played out (log 5); away from the half-transfer point's refill
and from the buffer's end it moves one entry, and nothing else. -/
def Obligations.PlayMovesOneEntryWhileEnabled : Prop :=
  ∀ s : State,
    (s.txEn = false → play s = .refused .nothingToPlay) ∧
    (∀ u, s.txEn = true → s.buf s.dmaBuf = some u → u.count ≤ s.dmaPos → play s = .refused .nothingToPlay) ∧
    (∀ u e, s.txEn = true → s.buf s.dmaBuf = some u → s.dmaPos + 1 < u.count →
      s.bufRead s.dmaBuf s.dmaPos = some e → (s.engine = .asyncTx → s.dmaPos + 1 ≠ (u.count + 1) / 2) →
      play s = .next { s with
        txLevel := e.pol, txArr := e.ticks, dmaPos := s.dmaPos + 1, txTrace := s.txTrace ++ [e] })

/-- R88, R89, R95: at the half-transfer point of a buffer of two or more entries the other buffer is refilled in `AsyncTx`,
and a producer's `Error` there halts the block with `FAULT_OP = 0x84`, the step's other effects discarded. -/
def Obligations.HalfTransferRefillsTheOtherBuffer : Prop :=
  ∀ (s : State) (u : Buffer) (e : Entry), s.txEn = true → s.buf s.dmaBuf = some u → 2 ≤ u.count →
    s.dmaPos + 1 = (u.count + 1) / 2 → s.bufRead s.dmaBuf s.dmaPos = some e → s.engine = .asyncTx →
    (∀ m, fill (otherBuf s.dmaBuf) { s with
        txLevel := e.pol, txArr := e.ticks, dmaPos := s.dmaPos + 1, txTrace := s.txTrace ++ [e] } = .filled m →
      play s = .next m) ∧
    (∀ r, fill (otherBuf s.dmaBuf) { s with
        txLevel := e.pol, txArr := e.ticks, dmaPos := s.dmaPos + 1, txTrace := s.txTrace ++ [e] } = .producerError r →
      play s = .next { s with
        halted := true, faultCause := 0x05#8, faultOp := 0x84#8,
        txTrace := s.txTrace ++ [e], callouts := r.callouts, producer := r.producer, draws := r.draws })

/-- R90: the last entry of a buffer, outside the refill of a one-entry buffer: the terminal completion; the flush buffer; or
the hand-over to the other buffer; with the signal-sent callout of R91. -/
def Obligations.TransferCompleteHandsOver : Prop :=
  ∀ (s : State) (u : Buffer) (e : Entry), s.params.wf = true → s.txEn = true → s.buf s.dmaBuf = some u →
    s.dmaPos + 1 = u.count → s.bufRead s.dmaBuf s.dmaPos = some e → (s.engine = .asyncTx → 2 ≤ u.count) →
    (s.engine = .asyncTxStopInProgress → play s = .next { s with
      txLevel := false, txArr := e.ticks, dmaPos := u.count, txTrace := s.txTrace ++ [e],
      txEn := false, engine := .asyncTxStopped, termSem := true }) ∧
    (s.engine ≠ .asyncTxStopInProgress → (u.lastPacketEnd = true ∨ s.engine = .asyncTxStopRequested) →
      ∃ t v, play s = .next t ∧ t.buf (otherBuf s.dmaBuf) = some v ∧
        v.entries = [{ pol := false, ticks := flushTicks }, { pol := false, ticks := flushTicks }] ∧
        v.packetEnd = true ∧ v.lastPacketEnd = true ∧ t.buf s.dmaBuf = some u ∧
        t = { s with
          txLevel := e.pol, txArr := e.ticks, dmaBuf := otherBuf s.dmaBuf, dmaPos := 0,
          txTrace := s.txTrace ++ [e], engine := .asyncTxStopInProgress, bufs := t.bufs,
          callouts := s.callouts ++
            if u.packetEnd = true ∧ s.cbSent.valid = true then [.signalSent s.cbSent.ctx] else [] }) ∧
    ((s.engine = .asyncTx ∨ s.engine = .asyncTxLast) → u.lastPacketEnd = false → play s = .next { s with
      txLevel := e.pol, txArr := e.ticks, dmaBuf := otherBuf s.dmaBuf, dmaPos := 0, txTrace := s.txTrace ++ [e],
      callouts := s.callouts ++
        if u.packetEnd = true ∧ s.cbSent.valid = true then [.signalSent s.cbSent.ctx] else [] })

/-- R88, R89, R90, R100 item 2, R95: in a buffer of one entry the refill comes first and then the hand-over, in one step;
where the producer answers `Error` the block halts with `FAULT_OP = 0x84`, the pair stays and nothing is handed over. That the
answers it took stay taken is log 11. -/
def Obligations.OneEntryBufferRefillsThenHandsOver : Prop :=
  ∀ (s : State) (u : Buffer) (e : Entry), s.txEn = true → s.buf s.dmaBuf = some u → u.count = 1 → s.dmaPos = 0 →
    s.bufRead s.dmaBuf 0 = some e → s.engine = .asyncTx →
    (∀ m, u.lastPacketEnd = false →
      fill (otherBuf s.dmaBuf) { s with
        txLevel := e.pol, txArr := e.ticks, dmaPos := 1, txTrace := s.txTrace ++ [e] } = .filled m →
      play s = .next { m with
        dmaBuf := otherBuf s.dmaBuf, dmaPos := 0,
        callouts := m.callouts ++
          if u.packetEnd = true ∧ s.cbSent.valid = true then [.signalSent s.cbSent.ctx] else [] }) ∧
    (∀ r, fill (otherBuf s.dmaBuf) { s with
        txLevel := e.pol, txArr := e.ticks, dmaPos := 1, txTrace := s.txTrace ++ [e] } = .producerError r →
      play s = .next { s with
        halted := true, faultCause := 0x05#8, faultOp := 0x84#8,
        txTrace := s.txTrace ++ [e], callouts := r.callouts, producer := r.producer, draws := r.draws })

/-- R91: one `SignalSent` for every buffer that finishes playing with `packet_end = 1` while the state after is not
`AsyncTxStopped`; no other step sends one (a reset empties the history, log 10). -/
def Obligations.SignalSentOncePerFinishedPacket : Prop :=
  ∀ s t : State, s.halted = false → step s = .next t → s.inputs.head? ≠ some .reset → t.halted = false →
    signalSentCount t.callouts = signalSentCount s.callouts +
      if s.inputs.head? = some .play ∧ (∃ u, s.buf s.dmaBuf = some u ∧ s.dmaPos + 1 = u.count ∧ u.packetEnd = true) ∧
        t.engine ≠ .asyncTxStopped ∧ s.cbSent.valid = true then 1 else 0

/-! ## The whole machine -/

/-- R30, R23: the invariant and the canonical form hold after reset, the counter is within its period and the end-of-stream
flags of both buffers are 0. -/
def Obligations.ResetEstablishesTheInvariants : Prop :=
  State.reset.Inv ∧ State.reset.memoriesCanonical ∧ State.reset.rxCnt.toNat ≤ State.reset.params.rxPeriod.toNat ∧
  ∀ b, State.reset.endFlags b = some { packetEnd := false, lastPacketEnd := false }

/-- R12, R14, R16, R22, R24, R25, R87, R90 (95_test_vectors.md section 3 items 1 to 3 and 5): every step of every agent
keeps the invariant, from every state that has it. -/
def Obligations.EveryStepKeepsTheInvariant : Prop :=
  ∀ s t : State, s.Inv → step s = .next t → t.Inv

/-- R31, R33 (log 9): every step keeps the buffers' entries in canonical form. -/
def Obligations.EveryStepKeepsMemoriesCanonical : Prop :=
  ∀ s t : State, s.memoriesCanonical → step s = .next t → t.memoriesCanonical

/-- R72: no step but the reset makes a transition that the table does not list. A `TX_START` whose first fill meets
`LastDone` makes two listed ones in a row, from `Idle` over `AsyncTx` to `AsyncTxLast`; no other step does. -/
def Obligations.OnlyListedTransitionsHappen : Prop :=
  ∀ s t : State, s.Inv → step s = .next t →
    t.engine = s.engine ∨ listedTransition s.engine t.engine = true ∨
    (s.engine = .idle ∧ t.engine = .asyncTxLast ∧
      (∃ bytes freq duty, s.inputs.head? = some (.portWrite bytes) ∧ decodeBytes bytes = .instr (.txStart freq duty)) ∧
      ∃ u, t.buf .b0 = some u ∧ u.lastPacketEnd = true) ∨
    t = resetBlock { s with inputs := t.inputs }

/-- R15: a callback slot changes only in `Idle`, by its own command, to the command's operands, or by the reset. -/
def Obligations.SlotsChangeOnlyByTheirCommandInIdle : Prop :=
  ∀ s t : State, step s = .next t →
    t = resetBlock { s with inputs := t.inputs } ∨
    ((t.cbCap ≠ s.cbCap → s.engine = .idle ∧ ∃ bytes, s.inputs.head? = some (.portWrite bytes) ∧
        decodeBytes bytes = .instr (.rxSetCaptureCb t.cbCap.valid t.cbCap.ctx)) ∧
     (t.cbTmo ≠ s.cbTmo → s.engine = .idle ∧ ∃ bytes, s.inputs.head? = some (.portWrite bytes) ∧
        decodeBytes bytes = .instr (.rxSetTimeoutCb t.cbTmo.valid t.cbTmo.ctx)) ∧
     (t.cbData ≠ s.cbData → s.engine = .idle ∧ ∃ bytes, s.inputs.head? = some (.portWrite bytes) ∧
        decodeBytes bytes = .instr (.txSetDataCb t.cbData.valid t.cbData.ctx)) ∧
     (t.cbSent ≠ s.cbSent → s.engine = .idle ∧ ∃ bytes, s.inputs.head? = some (.portWrite bytes) ∧
        decodeBytes bytes = .instr (.txSetSentCb t.cbSent.valid t.cbSent.ctx)))

/-- R13, R18, R19, R60: who writes `RESP`, `RX_PIN`, `FREQ`, `DUTY` and `RX_CCR3`, the reset apart; and no step changes the
parameters of R6 (log 2). -/
def Obligations.RegistersChangeOnlyByTheirWriters : Prop :=
  ∀ s t : State, step s = .next t → t.params = s.params ∧
    (t = resetBlock { s with inputs := t.inputs } ∨
     ((t.resp ≠ s.resp → ∃ bytes, s.inputs.head? = some (.portWrite bytes) ∧ decodeBytes bytes = .instr .txIsComplete) ∧
      (t.rxPin ≠ s.rxPin → (s.inputs.head? = some .rise ∧ t.rxPin = true) ∨ (s.inputs.head? = some .fall ∧ t.rxPin = false)) ∧
      ((t.freq ≠ s.freq ∨ t.duty ≠ s.duty) → s.engine = .idle ∧ ∃ bytes, s.inputs.head? = some (.portWrite bytes) ∧
        decodeBytes bytes = .instr (.txStart t.freq t.duty)) ∧
      (t.rxCcr3 ≠ s.rxCcr3 → ∃ bytes, s.inputs.head? = some (.portWrite bytes) ∧
        (decodeBytes bytes = .instr .rxStart ∨ decodeBytes bytes = .instr (.rxSetTimeout t.rxCcr3)))))

/-- R26, R27: no step but the reset takes anything off the two histories; the trace grows by one pair at most, the entry the
playback pointer stood at. -/
def Obligations.HistoriesOnlyGrow : Prop :=
  ∀ s t : State, step s = .next t →
    t = resetBlock { s with inputs := t.inputs } ∨
    (s.callouts <+: t.callouts ∧
     (t.txTrace = s.txTrace ∨
      ∃ e, s.inputs.head? = some .play ∧ s.bufRead s.dmaBuf s.dmaPos = some e ∧ t.txTrace = s.txTrace ++ [e]))

/-- R20, R89, R75: the producer is asked only by a `Play` step in `AsyncTx` or by a `TX_START` in `Idle`. -/
def Obligations.ProducerIsAskedOnlyWhileDataIsDue : Prop :=
  ∀ s t : State, step s = .next t →
    (t.producer ≠ s.producer ∨ t.draws ≠ s.draws ∨ requestedAnswers t.callouts ≠ requestedAnswers s.callouts) →
    t = resetBlock { s with inputs := t.inputs } ∨
    (s.engine = .asyncTx ∧ s.inputs.head? = some .play) ∨
    (s.engine = .idle ∧ ∃ bytes freq duty, s.inputs.head? = some (.portWrite bytes) ∧
      decodeBytes bytes = .instr (.txStart freq duty))

/-- R35, R88: while the invariant holds no step reaches a buffer outside its bounds, and `Play` is enabled throughout a TX
session: it answers a next state, unless it owes a refill in `AsyncTx` that the producer does not let end (R107; log 8), which its listed answers then do not. -/
def Obligations.PlayGoesOnThroughoutASession : Prop :=
  (∀ s : State, s.Inv → step s ≠ .fault .bufferIndex) ∧
  (∀ s : State, s.Inv → txActive s.engine = true →
    (∃ t, play s = .next t) ∨ (s.engine = .asyncTx ∧ ¬ listedAnswersEndFill s.freq s ∧ play s = .fault .fillDoesNotReturn))

/-- R76, R78, R90, R91, R111: `TX_STOP` in any state of a session (R80) winds it down: the `Play` steps for the entries
still due (in `AsyncTx` the rest of the playing buffer and the flush buffer) and the completion step return the block to
`Idle` with the pin inactive, without another data request, and what a stop request finds in the other buffer or left as a
remainder is never played. The state the host finds in `AsyncTxStopRequested` is reached by no run: it then holds a command. -/
def Obligations.StopReturnsToIdle : Prop :=
  ∀ (s : State) (rest : List Input), s.Inv → s.hostReady → txOrLater s.engine = true →
    s.inputs = .portWrite (encodeBytes .txStop) ::
      (List.replicate s.windDownEntries.length .play ++ .complete :: rest) →
    ∃ t, Sys2Proof.core.run (s.windDownEntries.length + 2) s = .next t ∧
      t.inputs = rest ∧ t.engine = .idle ∧ t.hostHeld = .free ∧ t.termSem = false ∧ t.semValid = false ∧
      t.bufValid = false ∧ t.txEn = false ∧ t.txPin = some false ∧
      t.txTrace = s.txTrace ++ s.windDownEntries ∧
      t.callouts = s.callouts ++
        List.replicate (if s.cbSent.valid then s.windDownPackets else 0) (.signalSent s.cbSent.ctx) ∧
      t.producer = s.producer ∧ t.draws = s.draws

/-- R104: the reset step, halted or not: every register at its reset value, the pin as driven. That the histories are
emptied (log 10) and the model's own fields go on is the model's choice. -/
def Obligations.ResetStepRestoresTheResetValues : Prop :=
  ∀ (s : State) (rest : List Input), s.inputs = .reset :: rest →
    step s = .next { State.reset with
      params := s.params, inputs := rest, producer := s.producer, draws := s.draws, rxPin := s.rxPin }

/-- R30: the values after reset. `RX_PIN` and the buffers' contents are unspecified; the former is log 1. -/
def Obligations.ResetValuesAreThoseOfTheTable : Prop :=
  engineCode State.reset.engine = 0#3 ∧ State.reset.halted = false ∧ State.reset.faultCause = 0#8 ∧
  State.reset.faultOp = 0#8 ∧ heldCode State.reset.hostHeld = 0#2 ∧ State.reset.resp = 0#32 ∧
  State.reset.semValid = false ∧ State.reset.termSem = false ∧
  (∀ slot ∈ [State.reset.cbCap, State.reset.cbTmo, State.reset.cbData, State.reset.cbSent],
    slot = { valid := false, ctx := 0#32 }) ∧
  State.reset.rxEn = false ∧ State.reset.rxCnt = 0#32 ∧ State.reset.rxCcr1 = 0#32 ∧ State.reset.rxCcr2 = 0#32 ∧
  State.reset.rxCcr3 = 0#32 ∧ State.reset.rxTmoArmed = false ∧ State.reset.prevCh2 = 0#32 ∧
  State.reset.freq = 0#32 ∧ State.reset.duty = 0#24 ∧ State.reset.restDuration = 0#64 ∧
  State.reset.restLevel = false ∧ statusCode State.reset.restStatus = 0#2 ∧ State.reset.dmaBuf = .b0 ∧
  State.reset.dmaPos = 0 ∧ State.reset.txEn = false ∧ State.reset.txLevel = false ∧ State.reset.txArr = 0#16 ∧
  State.reset.bufValid = false ∧ State.reset.txTrace = [] ∧ State.reset.callouts = []

/-- R8, R9, R10: the codes of `STATE`, of which none is 7; `TxOrLater` is the codes from 2 up; the caller is shown
`AsyncTxLast` as `AsyncTx` and every other state as it is. -/
def Obligations.EngineCodesAreThoseOfTheTable : Prop :=
  engineCode .idle = 0#3 ∧ engineCode .asyncRx = 1#3 ∧ engineCode .asyncTx = 2#3 ∧
  engineCode .asyncTxStopRequested = 3#3 ∧ engineCode .asyncTxStopInProgress = 4#3 ∧
  engineCode .asyncTxStopped = 5#3 ∧ engineCode .asyncTxLast = 6#3 ∧
  (∀ e : EngineState, engineCode e ≠ 7#3) ∧
  (∀ e : EngineState, txOrLater e = true ↔ 2 ≤ (engineCode e).toNat) ∧
  (∀ e : EngineState, txOrLater e = true ↔ txActive e = true ∨ e = .asyncTxStopped) ∧
  engineCode (callerView .asyncTxLast) = 2#3 ∧ (∀ e : EngineState, e ≠ .asyncTxLast → callerView e = e)
end

