-- ==== Sys2Proof/Laws/Bits.lean ====
section
/-! SUPPORT. The fields and the bytes of a command word: what each extraction gives back. -/

namespace Sys2Proof

/-- One bit of an assembled word (R47). -/
theorem getLsbD_assemble (op : BitVec 8) (aux : BitVec 24) (arg : Count) (i : Nat) :
    (assemble op aux arg).getLsbD i =
      if i < 32 then arg.getLsbD i else if i - 32 < 24 then aux.getLsbD (i - 32) else op.getLsbD (i - 32 - 24) := by
  show (op ++ aux ++ arg : BitVec (8 + 24 + 32)).getLsbD i = _
  simp only [BitVec.getLsbD_append]

@[simp] theorem opField_assemble (op : BitVec 8) (aux : BitVec 24) (arg : Count) :
    opField (assemble op aux arg) = op := by
  apply BitVec.eq_of_getLsbD_eq
  intro i hi
  simp [opField, getLsbD_assemble, hi, show 56 + i - 32 = 24 + i by omega]
  omega

@[simp] theorem auxField_assemble (op : BitVec 8) (aux : BitVec 24) (arg : Count) :
    auxField (assemble op aux arg) = aux := by
  apply BitVec.eq_of_getLsbD_eq
  intro i hi
  simp [auxField, getLsbD_assemble, hi]

@[simp] theorem argField_assemble (op : BitVec 8) (aux : BitVec 24) (arg : Count) :
    argField (assemble op aux arg) = arg := by
  apply BitVec.eq_of_getLsbD_eq
  intro i hi
  simp [argField, getLsbD_assemble, hi]

/-- A word is its three fields. -/
theorem assemble_fields (w : Word) : assemble (opField w) (auxField w) (argField w) = w := by
  apply BitVec.eq_of_getLsbD_eq
  intro i hi
  simp only [getLsbD_assemble, opField, auxField, argField, BitVec.getLsbD_extractLsb']
  by_cases h1 : i < 32
  · simp [h1]
  · by_cases h2 : i - 32 < 24
    · simp [h1, h2, show 32 + (i - 32) = i by omega]
    · simp [h1, h2, show i - 32 - 24 < 8 by omega, show 56 + (i - 32 - 24) = i by omega]

theorem assemble_inj {op op' : BitVec 8} {aux aux' : BitVec 24} {arg arg' : Count} :
    assemble op aux arg = assemble op' aux' arg' ↔ op = op' ∧ aux = aux' ∧ arg = arg' := by
  constructor
  · intro h
    exact ⟨by simpa using congrArg opField h, by simpa using congrArg auxField h, by simpa using congrArg argField h⟩
  · rintro ⟨rfl, rfl, rfl⟩; rfl

theorem assemble_and (op op' : BitVec 8) (aux aux' : BitVec 24) (arg arg' : Count) :
    assemble op aux arg &&& assemble op' aux' arg' = assemble (op &&& op') (aux &&& aux') (arg &&& arg') := by
  apply BitVec.eq_of_getLsbD_eq
  intro i hi
  simp only [getLsbD_assemble, BitVec.getLsbD_and]
  split <;> [rfl; split <;> rfl]

theorem validField_assemble (op : BitVec 8) (aux : BitVec 24) (arg : Count) :
    validField (assemble op aux arg) = aux.getLsbD 0 := by
  simp only [validField, getLsbD_assemble]; rfl

/-! The masks and the patterns of R49's table, by fields. -/

theorem maskA_eq : maskA = assemble (BitVec.allOnes 8) (BitVec.allOnes 24) 0#32 := by decide
theorem maskB_eq : maskB = assemble (BitVec.allOnes 8) 0xFFFFFE#24 0#32 := by decide
theorem maskS_eq : maskS = assemble (BitVec.allOnes 8) 0#24 0#32 := by decide

theorem and_maskZ (w : Word) : w &&& maskZ = w := by
  rw [show maskZ = BitVec.allOnes 64 by decide, BitVec.and_allOnes]

theorem and_maskA (w : Word) : w &&& maskA = assemble (opField w) (auxField w) 0#32 := by
  conv_lhs => rw [← assemble_fields w, maskA_eq, assemble_and]
  simp only [BitVec.and_allOnes, BitVec.and_zero]

theorem and_maskB (w : Word) : w &&& maskB = assemble (opField w) (auxField w &&& 0xFFFFFE#24) 0#32 := by
  conv_lhs => rw [← assemble_fields w, maskB_eq, assemble_and]
  simp only [BitVec.and_allOnes, BitVec.and_zero]

theorem and_maskS (w : Word) : w &&& maskS = assemble (opField w) 0#24 0#32 := by
  conv_lhs => rw [← assemble_fields w, maskS_eq, assemble_and]
  simp only [BitVec.and_allOnes, BitVec.and_zero]

/-- The bits a format-B word must have zero are those above `VALID`. -/
theorem and_reservedB (a : BitVec 24) : a &&& 0xFFFFFE#24 = 0#24 ↔ a >>> 1 = 0#24 := by
  have key : a &&& 0xFFFFFE#24 = (a >>> 1) <<< 1 := by
    rw [show (0xFFFFFE#24 : BitVec 24) = BitVec.allOnes 24 <<< 1 by decide]
    apply BitVec.eq_of_getLsbD_eq
    intro i hi
    by_cases h0 : i = 0
    · subst h0; simp
    · simp only [BitVec.getLsbD_and, BitVec.getLsbD_shiftLeft, BitVec.getLsbD_allOnes, BitVec.getLsbD_ushiftRight]
      simp [hi, h0, show 1 + (i - 1) = i by omega, show i - 1 < 24 by omega]
  rw [key]
  constructor
  · intro h
    have h2 : (a >>> 1) <<< 1 >>> 1 = 0#24 := by rw [h]; rfl
    apply BitVec.eq_of_getLsbD_eq
    intro i hi
    have := congrArg (fun x => x.getLsbD i) h2
    by_cases h24 : 1 + i < 24
    · simpa [h24, hi] using this
    · simp [BitVec.getLsbD_of_ge a (1 + i) (by omega)]
  · intro h; rw [h]; rfl

/-! The patterns of R49's table, and when a word matches one under each format's mask. -/

theorem pattern_10 : 0x1000000000000000#64 = assemble 0x10#8 0#24 0#32 := by decide
theorem pattern_11 : 0x1100000000000000#64 = assemble 0x11#8 0#24 0#32 := by decide
theorem pattern_12 : 0x1200000000000000#64 = assemble 0x12#8 0#24 0#32 := by decide
theorem pattern_13 : 0x1300000000000000#64 = assemble 0x13#8 0#24 0#32 := by decide
theorem pattern_14 : 0x1400000000000000#64 = assemble 0x14#8 0#24 0#32 := by decide
theorem pattern_20 : 0x2000000000000000#64 = assemble 0x20#8 0#24 0#32 := by decide
theorem pattern_21 : 0x2100000000000000#64 = assemble 0x21#8 0#24 0#32 := by decide
theorem pattern_22 : 0x2200000000000000#64 = assemble 0x22#8 0#24 0#32 := by decide
theorem pattern_23 : 0x2300000000000000#64 = assemble 0x23#8 0#24 0#32 := by decide
theorem pattern_24 : 0x2400000000000000#64 = assemble 0x24#8 0#24 0#32 := by decide
theorem pattern_25 : 0x2500000000000000#64 = assemble 0x25#8 0#24 0#32 := by decide

theorem matches_formatZ (w : Word) (op : BitVec 8) :
    w &&& maskZ = assemble op 0#24 0#32 ↔ opField w = op ∧ auxField w = 0#24 ∧ argField w = 0#32 := by
  rw [and_maskZ]
  conv_lhs => rw [← assemble_fields w]
  exact assemble_inj

theorem matches_formatA (w : Word) (op : BitVec 8) :
    w &&& maskA = assemble op 0#24 0#32 ↔ opField w = op ∧ auxField w = 0#24 := by
  simp [and_maskA, assemble_inj]

theorem matches_formatB (w : Word) (op : BitVec 8) :
    w &&& maskB = assemble op 0#24 0#32 ↔ opField w = op ∧ auxField w >>> 1 = 0#24 := by
  rw [and_maskB, assemble_inj, and_reservedB]
  simp

theorem matches_formatS (w : Word) (op : BitVec 8) :
    w &&& maskS = assemble op 0#24 0#32 ↔ opField w = op := by
  simp [and_maskS, assemble_inj]

/-- Eight bytes written in R34's order carry the word. -/
@[simp] theorem wordOfBytes_bytesOfWord (w : Word) : wordOfBytes (bytesOfWord w) = some w := by
  simp only [wordOfBytes, bytesOfWord, Option.some.injEq]
  apply BitVec.eq_of_getLsbD_eq
  intro i hi
  simp only [BitVec.getLsbD_append, BitVec.getLsbD_extractLsb']
  interval_cases i <;> rfl

@[simp] theorem decodeBytes_bytesOfWord (w : Word) : decodeBytes (bytesOfWord w) = decode w := by
  simp [decodeBytes]

/-- A write decodes to a command or raises `IllegalCommand` only when it is eight bytes (R35). -/
theorem wordOfBytes_isSome (l : List Byte) : (wordOfBytes l).isSome = decide (l.length = 8) := by
  match l with
  | [] | [_] | [_, _] | [_, _, _] | [_, _, _, _] | [_, _, _, _, _] | [_, _, _, _, _, _] | [_, _, _, _, _, _, _] => rfl
  | [_, _, _, _, _, _, _, _] => rfl
  | _ :: _ :: _ :: _ :: _ :: _ :: _ :: _ :: _ :: l => simp [wordOfBytes]

/-! ## Decoding by fields -/

/-- What the decoder answers for a word whose opcode's must-be-zero test is `clear`. -/
def decodedIf (clear : Bool) (i : Instr) : Decoded := if clear then .instr i else .reject .reservedBitSet

/-- The decoder by fields: the opcode picks the row, the row's format says which fields must be zero (R47, R49, R50). -/
theorem decode_eq_fields (w : Word) :
    decode w =
      if opField w = 0x10#8 then decodedIf (decide (auxField w = 0#24 ∧ argField w = 0#32)) .rxStart
      else if opField w = 0x11#8 then decodedIf (decide (auxField w = 0#24 ∧ argField w = 0#32)) .rxStop
      else if opField w = 0x12#8 then decodedIf (decide (auxField w = 0#24)) (.rxSetTimeout (argField w))
      else if opField w = 0x13#8 then
        decodedIf (decide (auxField w >>> 1 = 0#24)) (.rxSetCaptureCb (validField w) (argField w))
      else if opField w = 0x14#8 then
        decodedIf (decide (auxField w >>> 1 = 0#24)) (.rxSetTimeoutCb (validField w) (argField w))
      else if opField w = 0x20#8 then
        decodedIf (decide (auxField w >>> 1 = 0#24)) (.txSetDataCb (validField w) (argField w))
      else if opField w = 0x21#8 then
        decodedIf (decide (auxField w >>> 1 = 0#24)) (.txSetSentCb (validField w) (argField w))
      else if opField w = 0x22#8 then .instr (.txStart (argField w) (auxField w))
      else if opField w = 0x23#8 then decodedIf (decide (auxField w = 0#24 ∧ argField w = 0#32)) .txStop
      else if opField w = 0x24#8 then decodedIf (decide (auxField w = 0#24 ∧ argField w = 0#32)) .txWaitTerm
      else if opField w = 0x25#8 then decodedIf (decide (auxField w = 0#24 ∧ argField w = 0#32)) .txIsComplete
      else .reject .unassignedOpcode := by
  have assigned : opAssigned (opField w) = decide (opField w = 0x10#8 ∨ opField w = 0x11#8 ∨ opField w = 0x12#8 ∨
      opField w = 0x13#8 ∨ opField w = 0x14#8 ∨ opField w = 0x20#8 ∨ opField w = 0x21#8 ∨ opField w = 0x22#8 ∨
      opField w = 0x23#8 ∨ opField w = 0x24#8 ∨ opField w = 0x25#8) := by
    simp only [opAssigned, opcodeTable, List.cons_append, List.nil_append, List.any, pattern_10, pattern_11, pattern_12,
      pattern_13, pattern_14, pattern_20, pattern_21, pattern_22, pattern_23, pattern_24, pattern_25, opField_assemble]
    simp [eq_comm, Bool.decide_or]
  simp only [decode, opcodeTable, List.cons_append, List.nil_append, List.find?, Row.hits, pattern_10, pattern_11,
    pattern_12, pattern_13, pattern_14, pattern_20, pattern_21, pattern_22, pattern_23, pattern_24, pattern_25,
    matches_formatA, matches_formatZ, matches_formatB, matches_formatS, assigned, decodedIf]
  by_cases h : auxField w = 0#24 <;> by_cases h' : argField w = 0#32 <;> by_cases h'' : auxField w >>> 1 = 0#24
  all_goals
    by_cases h10 : opField w = 0x10#8
    · simp [h10, h, h', h'']
    by_cases h11 : opField w = 0x11#8
    · simp [h11, h, h', h'']
    by_cases h12 : opField w = 0x12#8
    · simp [h12, h, h', h'']
    by_cases h13 : opField w = 0x13#8
    · simp [h13, h, h', h'']
    by_cases h14 : opField w = 0x14#8
    · simp [h14, h, h', h'']
    by_cases h20 : opField w = 0x20#8
    · simp [h20, h, h', h'']
    by_cases h21 : opField w = 0x21#8
    · simp [h21, h, h', h'']
    by_cases h22 : opField w = 0x22#8
    · simp [h22, h, h', h'']
    by_cases h23 : opField w = 0x23#8
    · simp [h23, h, h', h'']
    by_cases h24 : opField w = 0x24#8
    · simp [h24, h, h', h'']
    by_cases h25 : opField w = 0x25#8
    · simp [h25, h, h', h'']
    simp [h10, h11, h12, h13, h14, h20, h21, h22, h23, h24, h25]

/-- A command is read only where its must-be-zero bits are zero (R50). -/
theorem decodedIf_instr {b : Bool} {i j : Instr} (h : decodedIf b i = .instr j) : b = true ∧ i = j := by
  cases b <;> simp_all [decodedIf]

/-- `AUX` of format B is `VALID` where the rest is zero (R47). -/
theorem auxOfValid_eq {w : Word} (h : auxField w >>> 1 = 0#24) : auxOfValid (validField w) = auxField w := by
  have e : validField w = (auxField w).getLsbD 0 := by simp [validField, auxField]
  rw [e]
  apply BitVec.eq_of_getLsbD_eq
  intro i hi
  rcases i with _ | i
  · cases hq : (auxField w).getLsbD 0 <;> simp [auxOfValid]
  · have := congrArg (fun x => x.getLsbD i) h
    simp at this
    rw [Nat.add_comm 1 i] at this
    rw [this]
    cases hq : (auxField w).getLsbD 0 <;> simp [auxOfValid]

end Sys2Proof
end

