-- ==== Sys2Proof/Laws/Memory.lean ====
section
/-! SUPPORT. Buffer RAM: read after write, and that every memory operation keeps the canonical form. -/

namespace Sys2Proof.Machine

@[simp] theorem Memory.read_write_same (m : Memory) (i : Nat) (e : Entry) :
    Memory.read (Memory.write m i e) i = some e := by
  induction m with
  | nil => simp [Memory.write, Memory.read]
  | cons c rest ih =>
    obtain ⟨j, f⟩ := c
    simp only [Memory.write]
    split
    · simp [Memory.read]
    · split
      · simp [Memory.read]
      · rename_i h; simp [Memory.read, h, ih]

theorem Memory.read_write_other (m : Memory) {i k : Nat} (e : Entry) (h : k ≠ i) :
    Memory.read (Memory.write m i e) k = Memory.read m k := by
  induction m with
  | nil => simp [Memory.write, Memory.read, h]
  | cons c rest ih =>
    obtain ⟨j, f⟩ := c
    simp only [Memory.write]
    split
    · simp [Memory.read, h]
    · split
      · rename_i hij; subst hij; simp [Memory.read, h]
      · simp [Memory.read, ih]

theorem Memory.wf_nil : Memory.wf [] = true := rfl

theorem Memory.wf_cons (i : Nat) (e : Entry) (rest : Memory) :
    Memory.wf ((i, e) :: rest) = true ↔ (∀ c ∈ rest, i < c.1) ∧ Memory.wf rest = true := by
  simp [Memory.wf]

/-- Where a cell of a written memory comes from. -/
theorem Memory.mem_write {m : Memory} {i : Nat} {e : Entry} {c : Nat × Entry}
    (h : c ∈ Memory.write m i e) : c = (i, e) ∨ c ∈ m := by
  induction m with
  | nil => simpa [Memory.write] using h
  | cons d rest ih =>
    obtain ⟨j, f⟩ := d
    simp only [Memory.write] at h
    split at h
    · simpa using h
    · split at h
      · rcases List.mem_cons.1 h with h | h <;> simp [h]
      · rcases List.mem_cons.1 h with h | h
        · simp [h]
        · rcases ih h with h | h <;> simp [h]

/-- A write keeps the canonical form. -/
theorem Memory.wf_write {m : Memory} (h : Memory.wf m = true) (i : Nat) (e : Entry) :
    Memory.wf (Memory.write m i e) = true := by
  induction m with
  | nil => simp [Memory.write, Memory.wf]
  | cons d rest ih =>
    obtain ⟨j, f⟩ := d
    obtain ⟨hlt, hrest⟩ := (Memory.wf_cons j f rest).1 h
    simp only [Memory.write]
    split
    · rename_i hij
      refine (Memory.wf_cons _ _ _).2 ⟨fun c hc => ?_, h⟩
      rcases List.mem_cons.1 hc with rfl | hc
      · exact hij
      · exact Nat.lt_trans hij (hlt c hc)
    · split
      · rename_i hij; subst hij
        exact (Memory.wf_cons _ _ _).2 ⟨hlt, hrest⟩
      · refine (Memory.wf_cons _ _ _).2 ⟨fun c hc => ?_, ih hrest⟩
        rcases Memory.mem_write hc with rfl | hc
        · simp only; omega
        · exact hlt c hc

/-- Below its first index a canonical memory lists nothing. -/
theorem Memory.read_eq_none_of_lt {m : Memory} {i : Nat} (h : ∀ c ∈ m, i < c.1) : Memory.read m i = none := by
  induction m with
  | nil => rfl
  | cons d rest ih =>
    obtain ⟨j, f⟩ := d
    have := h (j, f) (by simp)
    simp only at this
    simp [Memory.read, show i ≠ j by omega, ih fun c hc => h c (by simp [hc])]

/-- Equal memories are equal data: two canonical memories that read alike are the same list. -/
theorem Memory.ext_of_wf {m m' : Memory} (h : Memory.wf m = true) (h' : Memory.wf m' = true)
    (hr : ∀ i, Memory.read m i = Memory.read m' i) : m = m' := by
  induction m generalizing m' with
  | nil =>
    cases m' with
    | nil => rfl
    | cons d _ => simpa [Memory.read] using hr d.1
  | cons d rest ih =>
    obtain ⟨j, f⟩ := d
    cases m' with
    | nil => simpa [Memory.read] using hr j
    | cons d' rest' =>
      obtain ⟨k, g⟩ := d'
      obtain ⟨hlt, hw⟩ := (Memory.wf_cons j f rest).1 h
      obtain ⟨hlt', hw'⟩ := (Memory.wf_cons k g rest').1 h'
      have hjk : j = k := by
        rcases Nat.lt_trichotomy j k with hjk | hjk | hjk
        · have := hr j
          rw [Memory.read_eq_none_of_lt (m := (k, g) :: rest') (fun c hc => by
            rcases List.mem_cons.1 hc with rfl | hc
            · exact hjk
            · exact Nat.lt_trans hjk (hlt' c hc))] at this
          simp [Memory.read] at this
        · exact hjk
        · have := hr k
          rw [Memory.read_eq_none_of_lt (m := (j, f) :: rest) (fun c hc => by
            rcases List.mem_cons.1 hc with rfl | hc
            · exact hjk
            · exact Nat.lt_trans hjk (hlt c hc))] at this
          simp [Memory.read] at this
      subst hjk
      have hfg : f = g := by simpa [Memory.read] using hr j
      subst hfg
      rw [ih hw hw' fun i => ?_]
      by_cases hij : i = j
      · subst hij; rw [Memory.read_eq_none_of_lt hlt, Memory.read_eq_none_of_lt hlt']
      · simpa [Memory.read, hij] using hr i

end Sys2Proof.Machine
end

