-- ==== Sys2Proof/Laws/State.lean ====
section
/-! SUPPORT. What each named update of the state leaves in each field: one lemma per field per update. -/

namespace Sys2Proof.Machine

/-! ## `State.callout` -/

@[simp] theorem callout_params (s : State) (c : Callout) : (s.callout c).params = s.params := rfl
@[simp] theorem callout_inputs (s : State) (c : Callout) : (s.callout c).inputs = s.inputs := rfl
@[simp] theorem callout_producer (s : State) (c : Callout) : (s.callout c).producer = s.producer := rfl
@[simp] theorem callout_draws (s : State) (c : Callout) : (s.callout c).draws = s.draws := rfl
@[simp] theorem callout_engine (s : State) (c : Callout) : (s.callout c).engine = s.engine := rfl
@[simp] theorem callout_halted (s : State) (c : Callout) : (s.callout c).halted = s.halted := rfl
@[simp] theorem callout_faultCause (s : State) (c : Callout) : (s.callout c).faultCause = s.faultCause := rfl
@[simp] theorem callout_faultOp (s : State) (c : Callout) : (s.callout c).faultOp = s.faultOp := rfl
@[simp] theorem callout_hostHeld (s : State) (c : Callout) : (s.callout c).hostHeld = s.hostHeld := rfl
@[simp] theorem callout_resp (s : State) (c : Callout) : (s.callout c).resp = s.resp := rfl
@[simp] theorem callout_semValid (s : State) (c : Callout) : (s.callout c).semValid = s.semValid := rfl
@[simp] theorem callout_termSem (s : State) (c : Callout) : (s.callout c).termSem = s.termSem := rfl
@[simp] theorem callout_cbCap (s : State) (c : Callout) : (s.callout c).cbCap = s.cbCap := rfl
@[simp] theorem callout_cbTmo (s : State) (c : Callout) : (s.callout c).cbTmo = s.cbTmo := rfl
@[simp] theorem callout_cbData (s : State) (c : Callout) : (s.callout c).cbData = s.cbData := rfl
@[simp] theorem callout_cbSent (s : State) (c : Callout) : (s.callout c).cbSent = s.cbSent := rfl
@[simp] theorem callout_rxEn (s : State) (c : Callout) : (s.callout c).rxEn = s.rxEn := rfl
@[simp] theorem callout_rxCnt (s : State) (c : Callout) : (s.callout c).rxCnt = s.rxCnt := rfl
@[simp] theorem callout_rxCcr1 (s : State) (c : Callout) : (s.callout c).rxCcr1 = s.rxCcr1 := rfl
@[simp] theorem callout_rxCcr2 (s : State) (c : Callout) : (s.callout c).rxCcr2 = s.rxCcr2 := rfl
@[simp] theorem callout_rxCcr3 (s : State) (c : Callout) : (s.callout c).rxCcr3 = s.rxCcr3 := rfl
@[simp] theorem callout_rxTmoArmed (s : State) (c : Callout) : (s.callout c).rxTmoArmed = s.rxTmoArmed := rfl
@[simp] theorem callout_prevCh2 (s : State) (c : Callout) : (s.callout c).prevCh2 = s.prevCh2 := rfl
@[simp] theorem callout_rxPin (s : State) (c : Callout) : (s.callout c).rxPin = s.rxPin := rfl
@[simp] theorem callout_freq (s : State) (c : Callout) : (s.callout c).freq = s.freq := rfl
@[simp] theorem callout_duty (s : State) (c : Callout) : (s.callout c).duty = s.duty := rfl
@[simp] theorem callout_restDuration (s : State) (c : Callout) : (s.callout c).restDuration = s.restDuration := rfl
@[simp] theorem callout_restLevel (s : State) (c : Callout) : (s.callout c).restLevel = s.restLevel := rfl
@[simp] theorem callout_restStatus (s : State) (c : Callout) : (s.callout c).restStatus = s.restStatus := rfl
@[simp] theorem callout_dmaBuf (s : State) (c : Callout) : (s.callout c).dmaBuf = s.dmaBuf := rfl
@[simp] theorem callout_dmaPos (s : State) (c : Callout) : (s.callout c).dmaPos = s.dmaPos := rfl
@[simp] theorem callout_txEn (s : State) (c : Callout) : (s.callout c).txEn = s.txEn := rfl
@[simp] theorem callout_txLevel (s : State) (c : Callout) : (s.callout c).txLevel = s.txLevel := rfl
@[simp] theorem callout_txArr (s : State) (c : Callout) : (s.callout c).txArr = s.txArr := rfl
@[simp] theorem callout_bufs (s : State) (c : Callout) : (s.callout c).bufs = s.bufs := rfl
@[simp] theorem callout_txTrace (s : State) (c : Callout) : (s.callout c).txTrace = s.txTrace := rfl
@[simp] theorem callout_callouts (s : State) (c : Callout) : (s.callout c).callouts = s.callouts ++ [c] := rfl

/-! ## `State.notify` -/

@[simp] theorem notify_params (s : State) (k : CbSlot) (r : Count → Callout) :
    (s.notify k r).params = s.params := by
  unfold State.notify; split <;> simp
@[simp] theorem notify_inputs (s : State) (k : CbSlot) (r : Count → Callout) :
    (s.notify k r).inputs = s.inputs := by
  unfold State.notify; split <;> simp
@[simp] theorem notify_producer (s : State) (k : CbSlot) (r : Count → Callout) :
    (s.notify k r).producer = s.producer := by
  unfold State.notify; split <;> simp
@[simp] theorem notify_draws (s : State) (k : CbSlot) (r : Count → Callout) :
    (s.notify k r).draws = s.draws := by
  unfold State.notify; split <;> simp
@[simp] theorem notify_engine (s : State) (k : CbSlot) (r : Count → Callout) :
    (s.notify k r).engine = s.engine := by
  unfold State.notify; split <;> simp
@[simp] theorem notify_halted (s : State) (k : CbSlot) (r : Count → Callout) :
    (s.notify k r).halted = s.halted := by
  unfold State.notify; split <;> simp
@[simp] theorem notify_faultCause (s : State) (k : CbSlot) (r : Count → Callout) :
    (s.notify k r).faultCause = s.faultCause := by
  unfold State.notify; split <;> simp
@[simp] theorem notify_faultOp (s : State) (k : CbSlot) (r : Count → Callout) :
    (s.notify k r).faultOp = s.faultOp := by
  unfold State.notify; split <;> simp
@[simp] theorem notify_hostHeld (s : State) (k : CbSlot) (r : Count → Callout) :
    (s.notify k r).hostHeld = s.hostHeld := by
  unfold State.notify; split <;> simp
@[simp] theorem notify_resp (s : State) (k : CbSlot) (r : Count → Callout) :
    (s.notify k r).resp = s.resp := by
  unfold State.notify; split <;> simp
@[simp] theorem notify_semValid (s : State) (k : CbSlot) (r : Count → Callout) :
    (s.notify k r).semValid = s.semValid := by
  unfold State.notify; split <;> simp
@[simp] theorem notify_termSem (s : State) (k : CbSlot) (r : Count → Callout) :
    (s.notify k r).termSem = s.termSem := by
  unfold State.notify; split <;> simp
@[simp] theorem notify_cbCap (s : State) (k : CbSlot) (r : Count → Callout) :
    (s.notify k r).cbCap = s.cbCap := by
  unfold State.notify; split <;> simp
@[simp] theorem notify_cbTmo (s : State) (k : CbSlot) (r : Count → Callout) :
    (s.notify k r).cbTmo = s.cbTmo := by
  unfold State.notify; split <;> simp
@[simp] theorem notify_cbData (s : State) (k : CbSlot) (r : Count → Callout) :
    (s.notify k r).cbData = s.cbData := by
  unfold State.notify; split <;> simp
@[simp] theorem notify_cbSent (s : State) (k : CbSlot) (r : Count → Callout) :
    (s.notify k r).cbSent = s.cbSent := by
  unfold State.notify; split <;> simp
@[simp] theorem notify_rxEn (s : State) (k : CbSlot) (r : Count → Callout) :
    (s.notify k r).rxEn = s.rxEn := by
  unfold State.notify; split <;> simp
@[simp] theorem notify_rxCnt (s : State) (k : CbSlot) (r : Count → Callout) :
    (s.notify k r).rxCnt = s.rxCnt := by
  unfold State.notify; split <;> simp
@[simp] theorem notify_rxCcr1 (s : State) (k : CbSlot) (r : Count → Callout) :
    (s.notify k r).rxCcr1 = s.rxCcr1 := by
  unfold State.notify; split <;> simp
@[simp] theorem notify_rxCcr2 (s : State) (k : CbSlot) (r : Count → Callout) :
    (s.notify k r).rxCcr2 = s.rxCcr2 := by
  unfold State.notify; split <;> simp
@[simp] theorem notify_rxCcr3 (s : State) (k : CbSlot) (r : Count → Callout) :
    (s.notify k r).rxCcr3 = s.rxCcr3 := by
  unfold State.notify; split <;> simp
@[simp] theorem notify_rxTmoArmed (s : State) (k : CbSlot) (r : Count → Callout) :
    (s.notify k r).rxTmoArmed = s.rxTmoArmed := by
  unfold State.notify; split <;> simp
@[simp] theorem notify_prevCh2 (s : State) (k : CbSlot) (r : Count → Callout) :
    (s.notify k r).prevCh2 = s.prevCh2 := by
  unfold State.notify; split <;> simp
@[simp] theorem notify_rxPin (s : State) (k : CbSlot) (r : Count → Callout) :
    (s.notify k r).rxPin = s.rxPin := by
  unfold State.notify; split <;> simp
@[simp] theorem notify_freq (s : State) (k : CbSlot) (r : Count → Callout) :
    (s.notify k r).freq = s.freq := by
  unfold State.notify; split <;> simp
@[simp] theorem notify_duty (s : State) (k : CbSlot) (r : Count → Callout) :
    (s.notify k r).duty = s.duty := by
  unfold State.notify; split <;> simp
@[simp] theorem notify_restDuration (s : State) (k : CbSlot) (r : Count → Callout) :
    (s.notify k r).restDuration = s.restDuration := by
  unfold State.notify; split <;> simp
@[simp] theorem notify_restLevel (s : State) (k : CbSlot) (r : Count → Callout) :
    (s.notify k r).restLevel = s.restLevel := by
  unfold State.notify; split <;> simp
@[simp] theorem notify_restStatus (s : State) (k : CbSlot) (r : Count → Callout) :
    (s.notify k r).restStatus = s.restStatus := by
  unfold State.notify; split <;> simp
@[simp] theorem notify_dmaBuf (s : State) (k : CbSlot) (r : Count → Callout) :
    (s.notify k r).dmaBuf = s.dmaBuf := by
  unfold State.notify; split <;> simp
@[simp] theorem notify_dmaPos (s : State) (k : CbSlot) (r : Count → Callout) :
    (s.notify k r).dmaPos = s.dmaPos := by
  unfold State.notify; split <;> simp
@[simp] theorem notify_txEn (s : State) (k : CbSlot) (r : Count → Callout) :
    (s.notify k r).txEn = s.txEn := by
  unfold State.notify; split <;> simp
@[simp] theorem notify_txLevel (s : State) (k : CbSlot) (r : Count → Callout) :
    (s.notify k r).txLevel = s.txLevel := by
  unfold State.notify; split <;> simp
@[simp] theorem notify_txArr (s : State) (k : CbSlot) (r : Count → Callout) :
    (s.notify k r).txArr = s.txArr := by
  unfold State.notify; split <;> simp
@[simp] theorem notify_bufs (s : State) (k : CbSlot) (r : Count → Callout) :
    (s.notify k r).bufs = s.bufs := by
  unfold State.notify; split <;> simp
@[simp] theorem notify_txTrace (s : State) (k : CbSlot) (r : Count → Callout) :
    (s.notify k r).txTrace = s.txTrace := by
  unfold State.notify; split <;> simp
@[simp] theorem notify_callouts (s : State) (k : CbSlot) (r : Count → Callout) :
    (s.notify k r).callouts = s.callouts ++ (if k.valid then [r k.ctx] else []) := by
  unfold State.notify; split <;> simp

/-! ## `State.emit` -/

@[simp] theorem emit_params (s : State) (e : Entry) : (s.emit e).params = s.params := rfl
@[simp] theorem emit_inputs (s : State) (e : Entry) : (s.emit e).inputs = s.inputs := rfl
@[simp] theorem emit_producer (s : State) (e : Entry) : (s.emit e).producer = s.producer := rfl
@[simp] theorem emit_draws (s : State) (e : Entry) : (s.emit e).draws = s.draws := rfl
@[simp] theorem emit_engine (s : State) (e : Entry) : (s.emit e).engine = s.engine := rfl
@[simp] theorem emit_halted (s : State) (e : Entry) : (s.emit e).halted = s.halted := rfl
@[simp] theorem emit_faultCause (s : State) (e : Entry) : (s.emit e).faultCause = s.faultCause := rfl
@[simp] theorem emit_faultOp (s : State) (e : Entry) : (s.emit e).faultOp = s.faultOp := rfl
@[simp] theorem emit_hostHeld (s : State) (e : Entry) : (s.emit e).hostHeld = s.hostHeld := rfl
@[simp] theorem emit_resp (s : State) (e : Entry) : (s.emit e).resp = s.resp := rfl
@[simp] theorem emit_semValid (s : State) (e : Entry) : (s.emit e).semValid = s.semValid := rfl
@[simp] theorem emit_termSem (s : State) (e : Entry) : (s.emit e).termSem = s.termSem := rfl
@[simp] theorem emit_cbCap (s : State) (e : Entry) : (s.emit e).cbCap = s.cbCap := rfl
@[simp] theorem emit_cbTmo (s : State) (e : Entry) : (s.emit e).cbTmo = s.cbTmo := rfl
@[simp] theorem emit_cbData (s : State) (e : Entry) : (s.emit e).cbData = s.cbData := rfl
@[simp] theorem emit_cbSent (s : State) (e : Entry) : (s.emit e).cbSent = s.cbSent := rfl
@[simp] theorem emit_rxEn (s : State) (e : Entry) : (s.emit e).rxEn = s.rxEn := rfl
@[simp] theorem emit_rxCnt (s : State) (e : Entry) : (s.emit e).rxCnt = s.rxCnt := rfl
@[simp] theorem emit_rxCcr1 (s : State) (e : Entry) : (s.emit e).rxCcr1 = s.rxCcr1 := rfl
@[simp] theorem emit_rxCcr2 (s : State) (e : Entry) : (s.emit e).rxCcr2 = s.rxCcr2 := rfl
@[simp] theorem emit_rxCcr3 (s : State) (e : Entry) : (s.emit e).rxCcr3 = s.rxCcr3 := rfl
@[simp] theorem emit_rxTmoArmed (s : State) (e : Entry) : (s.emit e).rxTmoArmed = s.rxTmoArmed := rfl
@[simp] theorem emit_prevCh2 (s : State) (e : Entry) : (s.emit e).prevCh2 = s.prevCh2 := rfl
@[simp] theorem emit_rxPin (s : State) (e : Entry) : (s.emit e).rxPin = s.rxPin := rfl
@[simp] theorem emit_freq (s : State) (e : Entry) : (s.emit e).freq = s.freq := rfl
@[simp] theorem emit_duty (s : State) (e : Entry) : (s.emit e).duty = s.duty := rfl
@[simp] theorem emit_restDuration (s : State) (e : Entry) : (s.emit e).restDuration = s.restDuration := rfl
@[simp] theorem emit_restLevel (s : State) (e : Entry) : (s.emit e).restLevel = s.restLevel := rfl
@[simp] theorem emit_restStatus (s : State) (e : Entry) : (s.emit e).restStatus = s.restStatus := rfl
@[simp] theorem emit_dmaBuf (s : State) (e : Entry) : (s.emit e).dmaBuf = s.dmaBuf := rfl
@[simp] theorem emit_dmaPos (s : State) (e : Entry) : (s.emit e).dmaPos = s.dmaPos := rfl
@[simp] theorem emit_txEn (s : State) (e : Entry) : (s.emit e).txEn = s.txEn := rfl
@[simp] theorem emit_txLevel (s : State) (e : Entry) : (s.emit e).txLevel = s.txLevel := rfl
@[simp] theorem emit_txArr (s : State) (e : Entry) : (s.emit e).txArr = s.txArr := rfl
@[simp] theorem emit_bufs (s : State) (e : Entry) : (s.emit e).bufs = s.bufs := rfl
@[simp] theorem emit_txTrace (s : State) (e : Entry) : (s.emit e).txTrace = s.txTrace ++ [e] := rfl
@[simp] theorem emit_callouts (s : State) (e : Entry) : (s.emit e).callouts = s.callouts := rfl

/-! ## `State.setBuf` -/

@[simp] theorem setBuf_params (s : State) (b : BufIdx) (u : Buffer) : (s.setBuf b u).params = s.params := rfl
@[simp] theorem setBuf_inputs (s : State) (b : BufIdx) (u : Buffer) : (s.setBuf b u).inputs = s.inputs := rfl
@[simp] theorem setBuf_producer (s : State) (b : BufIdx) (u : Buffer) : (s.setBuf b u).producer = s.producer := rfl
@[simp] theorem setBuf_draws (s : State) (b : BufIdx) (u : Buffer) : (s.setBuf b u).draws = s.draws := rfl
@[simp] theorem setBuf_engine (s : State) (b : BufIdx) (u : Buffer) : (s.setBuf b u).engine = s.engine := rfl
@[simp] theorem setBuf_halted (s : State) (b : BufIdx) (u : Buffer) : (s.setBuf b u).halted = s.halted := rfl
@[simp] theorem setBuf_faultCause (s : State) (b : BufIdx) (u : Buffer) :
    (s.setBuf b u).faultCause = s.faultCause := rfl
@[simp] theorem setBuf_faultOp (s : State) (b : BufIdx) (u : Buffer) : (s.setBuf b u).faultOp = s.faultOp := rfl
@[simp] theorem setBuf_hostHeld (s : State) (b : BufIdx) (u : Buffer) : (s.setBuf b u).hostHeld = s.hostHeld := rfl
@[simp] theorem setBuf_resp (s : State) (b : BufIdx) (u : Buffer) : (s.setBuf b u).resp = s.resp := rfl
@[simp] theorem setBuf_semValid (s : State) (b : BufIdx) (u : Buffer) : (s.setBuf b u).semValid = s.semValid := rfl
@[simp] theorem setBuf_termSem (s : State) (b : BufIdx) (u : Buffer) : (s.setBuf b u).termSem = s.termSem := rfl
@[simp] theorem setBuf_cbCap (s : State) (b : BufIdx) (u : Buffer) : (s.setBuf b u).cbCap = s.cbCap := rfl
@[simp] theorem setBuf_cbTmo (s : State) (b : BufIdx) (u : Buffer) : (s.setBuf b u).cbTmo = s.cbTmo := rfl
@[simp] theorem setBuf_cbData (s : State) (b : BufIdx) (u : Buffer) : (s.setBuf b u).cbData = s.cbData := rfl
@[simp] theorem setBuf_cbSent (s : State) (b : BufIdx) (u : Buffer) : (s.setBuf b u).cbSent = s.cbSent := rfl
@[simp] theorem setBuf_rxEn (s : State) (b : BufIdx) (u : Buffer) : (s.setBuf b u).rxEn = s.rxEn := rfl
@[simp] theorem setBuf_rxCnt (s : State) (b : BufIdx) (u : Buffer) : (s.setBuf b u).rxCnt = s.rxCnt := rfl
@[simp] theorem setBuf_rxCcr1 (s : State) (b : BufIdx) (u : Buffer) : (s.setBuf b u).rxCcr1 = s.rxCcr1 := rfl
@[simp] theorem setBuf_rxCcr2 (s : State) (b : BufIdx) (u : Buffer) : (s.setBuf b u).rxCcr2 = s.rxCcr2 := rfl
@[simp] theorem setBuf_rxCcr3 (s : State) (b : BufIdx) (u : Buffer) : (s.setBuf b u).rxCcr3 = s.rxCcr3 := rfl
@[simp] theorem setBuf_rxTmoArmed (s : State) (b : BufIdx) (u : Buffer) :
    (s.setBuf b u).rxTmoArmed = s.rxTmoArmed := rfl
@[simp] theorem setBuf_prevCh2 (s : State) (b : BufIdx) (u : Buffer) : (s.setBuf b u).prevCh2 = s.prevCh2 := rfl
@[simp] theorem setBuf_rxPin (s : State) (b : BufIdx) (u : Buffer) : (s.setBuf b u).rxPin = s.rxPin := rfl
@[simp] theorem setBuf_freq (s : State) (b : BufIdx) (u : Buffer) : (s.setBuf b u).freq = s.freq := rfl
@[simp] theorem setBuf_duty (s : State) (b : BufIdx) (u : Buffer) : (s.setBuf b u).duty = s.duty := rfl
@[simp] theorem setBuf_restDuration (s : State) (b : BufIdx) (u : Buffer) :
    (s.setBuf b u).restDuration = s.restDuration := rfl
@[simp] theorem setBuf_restLevel (s : State) (b : BufIdx) (u : Buffer) : (s.setBuf b u).restLevel = s.restLevel := rfl
@[simp] theorem setBuf_restStatus (s : State) (b : BufIdx) (u : Buffer) :
    (s.setBuf b u).restStatus = s.restStatus := rfl
@[simp] theorem setBuf_dmaBuf (s : State) (b : BufIdx) (u : Buffer) : (s.setBuf b u).dmaBuf = s.dmaBuf := rfl
@[simp] theorem setBuf_dmaPos (s : State) (b : BufIdx) (u : Buffer) : (s.setBuf b u).dmaPos = s.dmaPos := rfl
@[simp] theorem setBuf_txEn (s : State) (b : BufIdx) (u : Buffer) : (s.setBuf b u).txEn = s.txEn := rfl
@[simp] theorem setBuf_txLevel (s : State) (b : BufIdx) (u : Buffer) : (s.setBuf b u).txLevel = s.txLevel := rfl
@[simp] theorem setBuf_txArr (s : State) (b : BufIdx) (u : Buffer) : (s.setBuf b u).txArr = s.txArr := rfl
@[simp] theorem setBuf_bufs (s : State) (b : BufIdx) (u : Buffer) :
    (s.setBuf b u).bufs = s.bufs.map (·.set b u) := rfl
@[simp] theorem setBuf_txTrace (s : State) (b : BufIdx) (u : Buffer) : (s.setBuf b u).txTrace = s.txTrace := rfl
@[simp] theorem setBuf_callouts (s : State) (b : BufIdx) (u : Buffer) : (s.setBuf b u).callouts = s.callouts := rfl

/-! ## `State.closeBuf` (for `bufs` see Laws/Ops.lean) -/

@[simp] theorem closeBuf_params (s : State) (b : BufIdx) (n : Nat) (p l : Bool) :
    (s.closeBuf b n p l).params = s.params := by
  unfold State.closeBuf; split <;> rfl
@[simp] theorem closeBuf_inputs (s : State) (b : BufIdx) (n : Nat) (p l : Bool) :
    (s.closeBuf b n p l).inputs = s.inputs := by
  unfold State.closeBuf; split <;> rfl
@[simp] theorem closeBuf_producer (s : State) (b : BufIdx) (n : Nat) (p l : Bool) :
    (s.closeBuf b n p l).producer = s.producer := by
  unfold State.closeBuf; split <;> rfl
@[simp] theorem closeBuf_draws (s : State) (b : BufIdx) (n : Nat) (p l : Bool) :
    (s.closeBuf b n p l).draws = s.draws := by
  unfold State.closeBuf; split <;> rfl
@[simp] theorem closeBuf_engine (s : State) (b : BufIdx) (n : Nat) (p l : Bool) :
    (s.closeBuf b n p l).engine = s.engine := by
  unfold State.closeBuf; split <;> rfl
@[simp] theorem closeBuf_halted (s : State) (b : BufIdx) (n : Nat) (p l : Bool) :
    (s.closeBuf b n p l).halted = s.halted := by
  unfold State.closeBuf; split <;> rfl
@[simp] theorem closeBuf_faultCause (s : State) (b : BufIdx) (n : Nat) (p l : Bool) :
    (s.closeBuf b n p l).faultCause = s.faultCause := by
  unfold State.closeBuf; split <;> rfl
@[simp] theorem closeBuf_faultOp (s : State) (b : BufIdx) (n : Nat) (p l : Bool) :
    (s.closeBuf b n p l).faultOp = s.faultOp := by
  unfold State.closeBuf; split <;> rfl
@[simp] theorem closeBuf_hostHeld (s : State) (b : BufIdx) (n : Nat) (p l : Bool) :
    (s.closeBuf b n p l).hostHeld = s.hostHeld := by
  unfold State.closeBuf; split <;> rfl
@[simp] theorem closeBuf_resp (s : State) (b : BufIdx) (n : Nat) (p l : Bool) :
    (s.closeBuf b n p l).resp = s.resp := by
  unfold State.closeBuf; split <;> rfl
@[simp] theorem closeBuf_semValid (s : State) (b : BufIdx) (n : Nat) (p l : Bool) :
    (s.closeBuf b n p l).semValid = s.semValid := by
  unfold State.closeBuf; split <;> rfl
@[simp] theorem closeBuf_termSem (s : State) (b : BufIdx) (n : Nat) (p l : Bool) :
    (s.closeBuf b n p l).termSem = s.termSem := by
  unfold State.closeBuf; split <;> rfl
@[simp] theorem closeBuf_cbCap (s : State) (b : BufIdx) (n : Nat) (p l : Bool) :
    (s.closeBuf b n p l).cbCap = s.cbCap := by
  unfold State.closeBuf; split <;> rfl
@[simp] theorem closeBuf_cbTmo (s : State) (b : BufIdx) (n : Nat) (p l : Bool) :
    (s.closeBuf b n p l).cbTmo = s.cbTmo := by
  unfold State.closeBuf; split <;> rfl
@[simp] theorem closeBuf_cbData (s : State) (b : BufIdx) (n : Nat) (p l : Bool) :
    (s.closeBuf b n p l).cbData = s.cbData := by
  unfold State.closeBuf; split <;> rfl
@[simp] theorem closeBuf_cbSent (s : State) (b : BufIdx) (n : Nat) (p l : Bool) :
    (s.closeBuf b n p l).cbSent = s.cbSent := by
  unfold State.closeBuf; split <;> rfl
@[simp] theorem closeBuf_rxEn (s : State) (b : BufIdx) (n : Nat) (p l : Bool) :
    (s.closeBuf b n p l).rxEn = s.rxEn := by
  unfold State.closeBuf; split <;> rfl
@[simp] theorem closeBuf_rxCnt (s : State) (b : BufIdx) (n : Nat) (p l : Bool) :
    (s.closeBuf b n p l).rxCnt = s.rxCnt := by
  unfold State.closeBuf; split <;> rfl
@[simp] theorem closeBuf_rxCcr1 (s : State) (b : BufIdx) (n : Nat) (p l : Bool) :
    (s.closeBuf b n p l).rxCcr1 = s.rxCcr1 := by
  unfold State.closeBuf; split <;> rfl
@[simp] theorem closeBuf_rxCcr2 (s : State) (b : BufIdx) (n : Nat) (p l : Bool) :
    (s.closeBuf b n p l).rxCcr2 = s.rxCcr2 := by
  unfold State.closeBuf; split <;> rfl
@[simp] theorem closeBuf_rxCcr3 (s : State) (b : BufIdx) (n : Nat) (p l : Bool) :
    (s.closeBuf b n p l).rxCcr3 = s.rxCcr3 := by
  unfold State.closeBuf; split <;> rfl
@[simp] theorem closeBuf_rxTmoArmed (s : State) (b : BufIdx) (n : Nat) (p l : Bool) :
    (s.closeBuf b n p l).rxTmoArmed = s.rxTmoArmed := by
  unfold State.closeBuf; split <;> rfl
@[simp] theorem closeBuf_prevCh2 (s : State) (b : BufIdx) (n : Nat) (p l : Bool) :
    (s.closeBuf b n p l).prevCh2 = s.prevCh2 := by
  unfold State.closeBuf; split <;> rfl
@[simp] theorem closeBuf_rxPin (s : State) (b : BufIdx) (n : Nat) (p l : Bool) :
    (s.closeBuf b n p l).rxPin = s.rxPin := by
  unfold State.closeBuf; split <;> rfl
@[simp] theorem closeBuf_freq (s : State) (b : BufIdx) (n : Nat) (p l : Bool) :
    (s.closeBuf b n p l).freq = s.freq := by
  unfold State.closeBuf; split <;> rfl
@[simp] theorem closeBuf_duty (s : State) (b : BufIdx) (n : Nat) (p l : Bool) :
    (s.closeBuf b n p l).duty = s.duty := by
  unfold State.closeBuf; split <;> rfl
@[simp] theorem closeBuf_restDuration (s : State) (b : BufIdx) (n : Nat) (p l : Bool) :
    (s.closeBuf b n p l).restDuration = s.restDuration := by
  unfold State.closeBuf; split <;> rfl
@[simp] theorem closeBuf_restLevel (s : State) (b : BufIdx) (n : Nat) (p l : Bool) :
    (s.closeBuf b n p l).restLevel = s.restLevel := by
  unfold State.closeBuf; split <;> rfl
@[simp] theorem closeBuf_restStatus (s : State) (b : BufIdx) (n : Nat) (p l : Bool) :
    (s.closeBuf b n p l).restStatus = s.restStatus := by
  unfold State.closeBuf; split <;> rfl
@[simp] theorem closeBuf_dmaBuf (s : State) (b : BufIdx) (n : Nat) (p l : Bool) :
    (s.closeBuf b n p l).dmaBuf = s.dmaBuf := by
  unfold State.closeBuf; split <;> rfl
@[simp] theorem closeBuf_dmaPos (s : State) (b : BufIdx) (n : Nat) (p l : Bool) :
    (s.closeBuf b n p l).dmaPos = s.dmaPos := by
  unfold State.closeBuf; split <;> rfl
@[simp] theorem closeBuf_txEn (s : State) (b : BufIdx) (n : Nat) (p l : Bool) :
    (s.closeBuf b n p l).txEn = s.txEn := by
  unfold State.closeBuf; split <;> rfl
@[simp] theorem closeBuf_txLevel (s : State) (b : BufIdx) (n : Nat) (p l : Bool) :
    (s.closeBuf b n p l).txLevel = s.txLevel := by
  unfold State.closeBuf; split <;> rfl
@[simp] theorem closeBuf_txArr (s : State) (b : BufIdx) (n : Nat) (p l : Bool) :
    (s.closeBuf b n p l).txArr = s.txArr := by
  unfold State.closeBuf; split <;> rfl
@[simp] theorem closeBuf_txTrace (s : State) (b : BufIdx) (n : Nat) (p l : Bool) :
    (s.closeBuf b n p l).txTrace = s.txTrace := by
  unfold State.closeBuf; split <;> rfl
@[simp] theorem closeBuf_callouts (s : State) (b : BufIdx) (n : Nat) (p l : Bool) :
    (s.closeBuf b n p l).callouts = s.callouts := by
  unfold State.closeBuf; split <;> rfl

/-! ## `State.withInputs` -/

@[simp] theorem withInputs_params (s : State) (l : List Input) : (s.withInputs l).params = s.params := rfl
@[simp] theorem withInputs_inputs (s : State) (l : List Input) : (s.withInputs l).inputs = l := rfl
@[simp] theorem withInputs_producer (s : State) (l : List Input) : (s.withInputs l).producer = s.producer := rfl
@[simp] theorem withInputs_draws (s : State) (l : List Input) : (s.withInputs l).draws = s.draws := rfl
@[simp] theorem withInputs_engine (s : State) (l : List Input) : (s.withInputs l).engine = s.engine := rfl
@[simp] theorem withInputs_halted (s : State) (l : List Input) : (s.withInputs l).halted = s.halted := rfl
@[simp] theorem withInputs_faultCause (s : State) (l : List Input) : (s.withInputs l).faultCause = s.faultCause := rfl
@[simp] theorem withInputs_faultOp (s : State) (l : List Input) : (s.withInputs l).faultOp = s.faultOp := rfl
@[simp] theorem withInputs_hostHeld (s : State) (l : List Input) : (s.withInputs l).hostHeld = s.hostHeld := rfl
@[simp] theorem withInputs_resp (s : State) (l : List Input) : (s.withInputs l).resp = s.resp := rfl
@[simp] theorem withInputs_semValid (s : State) (l : List Input) : (s.withInputs l).semValid = s.semValid := rfl
@[simp] theorem withInputs_termSem (s : State) (l : List Input) : (s.withInputs l).termSem = s.termSem := rfl
@[simp] theorem withInputs_cbCap (s : State) (l : List Input) : (s.withInputs l).cbCap = s.cbCap := rfl
@[simp] theorem withInputs_cbTmo (s : State) (l : List Input) : (s.withInputs l).cbTmo = s.cbTmo := rfl
@[simp] theorem withInputs_cbData (s : State) (l : List Input) : (s.withInputs l).cbData = s.cbData := rfl
@[simp] theorem withInputs_cbSent (s : State) (l : List Input) : (s.withInputs l).cbSent = s.cbSent := rfl
@[simp] theorem withInputs_rxEn (s : State) (l : List Input) : (s.withInputs l).rxEn = s.rxEn := rfl
@[simp] theorem withInputs_rxCnt (s : State) (l : List Input) : (s.withInputs l).rxCnt = s.rxCnt := rfl
@[simp] theorem withInputs_rxCcr1 (s : State) (l : List Input) : (s.withInputs l).rxCcr1 = s.rxCcr1 := rfl
@[simp] theorem withInputs_rxCcr2 (s : State) (l : List Input) : (s.withInputs l).rxCcr2 = s.rxCcr2 := rfl
@[simp] theorem withInputs_rxCcr3 (s : State) (l : List Input) : (s.withInputs l).rxCcr3 = s.rxCcr3 := rfl
@[simp] theorem withInputs_rxTmoArmed (s : State) (l : List Input) : (s.withInputs l).rxTmoArmed = s.rxTmoArmed := rfl
@[simp] theorem withInputs_prevCh2 (s : State) (l : List Input) : (s.withInputs l).prevCh2 = s.prevCh2 := rfl
@[simp] theorem withInputs_rxPin (s : State) (l : List Input) : (s.withInputs l).rxPin = s.rxPin := rfl
@[simp] theorem withInputs_freq (s : State) (l : List Input) : (s.withInputs l).freq = s.freq := rfl
@[simp] theorem withInputs_duty (s : State) (l : List Input) : (s.withInputs l).duty = s.duty := rfl
@[simp] theorem withInputs_restDuration (s : State) (l : List Input) :
    (s.withInputs l).restDuration = s.restDuration := rfl
@[simp] theorem withInputs_restLevel (s : State) (l : List Input) : (s.withInputs l).restLevel = s.restLevel := rfl
@[simp] theorem withInputs_restStatus (s : State) (l : List Input) : (s.withInputs l).restStatus = s.restStatus := rfl
@[simp] theorem withInputs_dmaBuf (s : State) (l : List Input) : (s.withInputs l).dmaBuf = s.dmaBuf := rfl
@[simp] theorem withInputs_dmaPos (s : State) (l : List Input) : (s.withInputs l).dmaPos = s.dmaPos := rfl
@[simp] theorem withInputs_txEn (s : State) (l : List Input) : (s.withInputs l).txEn = s.txEn := rfl
@[simp] theorem withInputs_txLevel (s : State) (l : List Input) : (s.withInputs l).txLevel = s.txLevel := rfl
@[simp] theorem withInputs_txArr (s : State) (l : List Input) : (s.withInputs l).txArr = s.txArr := rfl
@[simp] theorem withInputs_bufs (s : State) (l : List Input) : (s.withInputs l).bufs = s.bufs := rfl
@[simp] theorem withInputs_txTrace (s : State) (l : List Input) : (s.withInputs l).txTrace = s.txTrace := rfl
@[simp] theorem withInputs_callouts (s : State) (l : List Input) : (s.withInputs l).callouts = s.callouts := rfl

/-! ## `raiseFatal` -/

@[simp] theorem raiseFatal_params (s r : State) (c : FatalCause) (op : BitVec 8) :
    (raiseFatal s r c op).params = s.params := rfl
@[simp] theorem raiseFatal_inputs (s r : State) (c : FatalCause) (op : BitVec 8) :
    (raiseFatal s r c op).inputs = s.inputs := rfl
@[simp] theorem raiseFatal_producer (s r : State) (c : FatalCause) (op : BitVec 8) :
    (raiseFatal s r c op).producer = r.producer := rfl
@[simp] theorem raiseFatal_draws (s r : State) (c : FatalCause) (op : BitVec 8) :
    (raiseFatal s r c op).draws = r.draws := rfl
@[simp] theorem raiseFatal_engine (s r : State) (c : FatalCause) (op : BitVec 8) :
    (raiseFatal s r c op).engine = s.engine := rfl
@[simp] theorem raiseFatal_halted (s r : State) (c : FatalCause) (op : BitVec 8) :
    (raiseFatal s r c op).halted = true := rfl
@[simp] theorem raiseFatal_faultCause (s r : State) (c : FatalCause) (op : BitVec 8) :
    (raiseFatal s r c op).faultCause = causeCode c := rfl
@[simp] theorem raiseFatal_faultOp (s r : State) (c : FatalCause) (op : BitVec 8) :
    (raiseFatal s r c op).faultOp = op := rfl
@[simp] theorem raiseFatal_hostHeld (s r : State) (c : FatalCause) (op : BitVec 8) :
    (raiseFatal s r c op).hostHeld = s.hostHeld := rfl
@[simp] theorem raiseFatal_resp (s r : State) (c : FatalCause) (op : BitVec 8) :
    (raiseFatal s r c op).resp = s.resp := rfl
@[simp] theorem raiseFatal_semValid (s r : State) (c : FatalCause) (op : BitVec 8) :
    (raiseFatal s r c op).semValid = s.semValid := rfl
@[simp] theorem raiseFatal_termSem (s r : State) (c : FatalCause) (op : BitVec 8) :
    (raiseFatal s r c op).termSem = s.termSem := rfl
@[simp] theorem raiseFatal_cbCap (s r : State) (c : FatalCause) (op : BitVec 8) :
    (raiseFatal s r c op).cbCap = s.cbCap := rfl
@[simp] theorem raiseFatal_cbTmo (s r : State) (c : FatalCause) (op : BitVec 8) :
    (raiseFatal s r c op).cbTmo = s.cbTmo := rfl
@[simp] theorem raiseFatal_cbData (s r : State) (c : FatalCause) (op : BitVec 8) :
    (raiseFatal s r c op).cbData = s.cbData := rfl
@[simp] theorem raiseFatal_cbSent (s r : State) (c : FatalCause) (op : BitVec 8) :
    (raiseFatal s r c op).cbSent = s.cbSent := rfl
@[simp] theorem raiseFatal_rxEn (s r : State) (c : FatalCause) (op : BitVec 8) :
    (raiseFatal s r c op).rxEn = s.rxEn := rfl
@[simp] theorem raiseFatal_rxCnt (s r : State) (c : FatalCause) (op : BitVec 8) :
    (raiseFatal s r c op).rxCnt = s.rxCnt := rfl
@[simp] theorem raiseFatal_rxCcr1 (s r : State) (c : FatalCause) (op : BitVec 8) :
    (raiseFatal s r c op).rxCcr1 = s.rxCcr1 := rfl
@[simp] theorem raiseFatal_rxCcr2 (s r : State) (c : FatalCause) (op : BitVec 8) :
    (raiseFatal s r c op).rxCcr2 = s.rxCcr2 := rfl
@[simp] theorem raiseFatal_rxCcr3 (s r : State) (c : FatalCause) (op : BitVec 8) :
    (raiseFatal s r c op).rxCcr3 = s.rxCcr3 := rfl
@[simp] theorem raiseFatal_rxTmoArmed (s r : State) (c : FatalCause) (op : BitVec 8) :
    (raiseFatal s r c op).rxTmoArmed = s.rxTmoArmed := rfl
@[simp] theorem raiseFatal_prevCh2 (s r : State) (c : FatalCause) (op : BitVec 8) :
    (raiseFatal s r c op).prevCh2 = s.prevCh2 := rfl
@[simp] theorem raiseFatal_rxPin (s r : State) (c : FatalCause) (op : BitVec 8) :
    (raiseFatal s r c op).rxPin = s.rxPin := rfl
@[simp] theorem raiseFatal_freq (s r : State) (c : FatalCause) (op : BitVec 8) :
    (raiseFatal s r c op).freq = s.freq := rfl
@[simp] theorem raiseFatal_duty (s r : State) (c : FatalCause) (op : BitVec 8) :
    (raiseFatal s r c op).duty = s.duty := rfl
@[simp] theorem raiseFatal_restDuration (s r : State) (c : FatalCause) (op : BitVec 8) :
    (raiseFatal s r c op).restDuration = s.restDuration := rfl
@[simp] theorem raiseFatal_restLevel (s r : State) (c : FatalCause) (op : BitVec 8) :
    (raiseFatal s r c op).restLevel = s.restLevel := rfl
@[simp] theorem raiseFatal_restStatus (s r : State) (c : FatalCause) (op : BitVec 8) :
    (raiseFatal s r c op).restStatus = s.restStatus := rfl
@[simp] theorem raiseFatal_dmaBuf (s r : State) (c : FatalCause) (op : BitVec 8) :
    (raiseFatal s r c op).dmaBuf = s.dmaBuf := rfl
@[simp] theorem raiseFatal_dmaPos (s r : State) (c : FatalCause) (op : BitVec 8) :
    (raiseFatal s r c op).dmaPos = s.dmaPos := rfl
@[simp] theorem raiseFatal_txEn (s r : State) (c : FatalCause) (op : BitVec 8) :
    (raiseFatal s r c op).txEn = s.txEn := rfl
@[simp] theorem raiseFatal_txLevel (s r : State) (c : FatalCause) (op : BitVec 8) :
    (raiseFatal s r c op).txLevel = s.txLevel := rfl
@[simp] theorem raiseFatal_txArr (s r : State) (c : FatalCause) (op : BitVec 8) :
    (raiseFatal s r c op).txArr = s.txArr := rfl
@[simp] theorem raiseFatal_bufs (s r : State) (c : FatalCause) (op : BitVec 8) :
    (raiseFatal s r c op).bufs = s.bufs := rfl
@[simp] theorem raiseFatal_txTrace (s r : State) (c : FatalCause) (op : BitVec 8) :
    (raiseFatal s r c op).txTrace = r.txTrace := rfl
@[simp] theorem raiseFatal_callouts (s r : State) (c : FatalCause) (op : BitVec 8) :
    (raiseFatal s r c op).callouts = r.callouts := rfl

/-! ## `resetBlock` -/

@[simp] theorem resetBlock_params (s : State) : (resetBlock s).params = s.params := rfl
@[simp] theorem resetBlock_inputs (s : State) : (resetBlock s).inputs = s.inputs := rfl
@[simp] theorem resetBlock_producer (s : State) : (resetBlock s).producer = s.producer := rfl
@[simp] theorem resetBlock_draws (s : State) : (resetBlock s).draws = s.draws := rfl
@[simp] theorem resetBlock_engine (s : State) : (resetBlock s).engine = State.reset.engine := rfl
@[simp] theorem resetBlock_halted (s : State) : (resetBlock s).halted = State.reset.halted := rfl
@[simp] theorem resetBlock_faultCause (s : State) : (resetBlock s).faultCause = State.reset.faultCause := rfl
@[simp] theorem resetBlock_faultOp (s : State) : (resetBlock s).faultOp = State.reset.faultOp := rfl
@[simp] theorem resetBlock_hostHeld (s : State) : (resetBlock s).hostHeld = State.reset.hostHeld := rfl
@[simp] theorem resetBlock_resp (s : State) : (resetBlock s).resp = State.reset.resp := rfl
@[simp] theorem resetBlock_semValid (s : State) : (resetBlock s).semValid = State.reset.semValid := rfl
@[simp] theorem resetBlock_termSem (s : State) : (resetBlock s).termSem = State.reset.termSem := rfl
@[simp] theorem resetBlock_cbCap (s : State) : (resetBlock s).cbCap = State.reset.cbCap := rfl
@[simp] theorem resetBlock_cbTmo (s : State) : (resetBlock s).cbTmo = State.reset.cbTmo := rfl
@[simp] theorem resetBlock_cbData (s : State) : (resetBlock s).cbData = State.reset.cbData := rfl
@[simp] theorem resetBlock_cbSent (s : State) : (resetBlock s).cbSent = State.reset.cbSent := rfl
@[simp] theorem resetBlock_rxEn (s : State) : (resetBlock s).rxEn = State.reset.rxEn := rfl
@[simp] theorem resetBlock_rxCnt (s : State) : (resetBlock s).rxCnt = State.reset.rxCnt := rfl
@[simp] theorem resetBlock_rxCcr1 (s : State) : (resetBlock s).rxCcr1 = State.reset.rxCcr1 := rfl
@[simp] theorem resetBlock_rxCcr2 (s : State) : (resetBlock s).rxCcr2 = State.reset.rxCcr2 := rfl
@[simp] theorem resetBlock_rxCcr3 (s : State) : (resetBlock s).rxCcr3 = State.reset.rxCcr3 := rfl
@[simp] theorem resetBlock_rxTmoArmed (s : State) : (resetBlock s).rxTmoArmed = State.reset.rxTmoArmed := rfl
@[simp] theorem resetBlock_prevCh2 (s : State) : (resetBlock s).prevCh2 = State.reset.prevCh2 := rfl
@[simp] theorem resetBlock_rxPin (s : State) : (resetBlock s).rxPin = s.rxPin := rfl
@[simp] theorem resetBlock_freq (s : State) : (resetBlock s).freq = State.reset.freq := rfl
@[simp] theorem resetBlock_duty (s : State) : (resetBlock s).duty = State.reset.duty := rfl
@[simp] theorem resetBlock_restDuration (s : State) : (resetBlock s).restDuration = State.reset.restDuration := rfl
@[simp] theorem resetBlock_restLevel (s : State) : (resetBlock s).restLevel = State.reset.restLevel := rfl
@[simp] theorem resetBlock_restStatus (s : State) : (resetBlock s).restStatus = State.reset.restStatus := rfl
@[simp] theorem resetBlock_dmaBuf (s : State) : (resetBlock s).dmaBuf = State.reset.dmaBuf := rfl
@[simp] theorem resetBlock_dmaPos (s : State) : (resetBlock s).dmaPos = State.reset.dmaPos := rfl
@[simp] theorem resetBlock_txEn (s : State) : (resetBlock s).txEn = State.reset.txEn := rfl
@[simp] theorem resetBlock_txLevel (s : State) : (resetBlock s).txLevel = State.reset.txLevel := rfl
@[simp] theorem resetBlock_txArr (s : State) : (resetBlock s).txArr = State.reset.txArr := rfl
@[simp] theorem resetBlock_bufs (s : State) : (resetBlock s).bufs = State.reset.bufs := rfl
@[simp] theorem resetBlock_txTrace (s : State) : (resetBlock s).txTrace = State.reset.txTrace := rfl
@[simp] theorem resetBlock_callouts (s : State) : (resetBlock s).callouts = State.reset.callouts := rfl

/-! ## `State.nextAnswer` (for `producer` and `draws` see Laws/Ops.lean) -/

@[simp] theorem nextAnswer_params (s : State) :
    (s.nextAnswer.2).params = s.params := by
  unfold State.nextAnswer; split <;> rfl
@[simp] theorem nextAnswer_inputs (s : State) :
    (s.nextAnswer.2).inputs = s.inputs := by
  unfold State.nextAnswer; split <;> rfl
@[simp] theorem nextAnswer_engine (s : State) :
    (s.nextAnswer.2).engine = s.engine := by
  unfold State.nextAnswer; split <;> rfl
@[simp] theorem nextAnswer_halted (s : State) :
    (s.nextAnswer.2).halted = s.halted := by
  unfold State.nextAnswer; split <;> rfl
@[simp] theorem nextAnswer_faultCause (s : State) :
    (s.nextAnswer.2).faultCause = s.faultCause := by
  unfold State.nextAnswer; split <;> rfl
@[simp] theorem nextAnswer_faultOp (s : State) :
    (s.nextAnswer.2).faultOp = s.faultOp := by
  unfold State.nextAnswer; split <;> rfl
@[simp] theorem nextAnswer_hostHeld (s : State) :
    (s.nextAnswer.2).hostHeld = s.hostHeld := by
  unfold State.nextAnswer; split <;> rfl
@[simp] theorem nextAnswer_resp (s : State) :
    (s.nextAnswer.2).resp = s.resp := by
  unfold State.nextAnswer; split <;> rfl
@[simp] theorem nextAnswer_semValid (s : State) :
    (s.nextAnswer.2).semValid = s.semValid := by
  unfold State.nextAnswer; split <;> rfl
@[simp] theorem nextAnswer_termSem (s : State) :
    (s.nextAnswer.2).termSem = s.termSem := by
  unfold State.nextAnswer; split <;> rfl
@[simp] theorem nextAnswer_cbCap (s : State) :
    (s.nextAnswer.2).cbCap = s.cbCap := by
  unfold State.nextAnswer; split <;> rfl
@[simp] theorem nextAnswer_cbTmo (s : State) :
    (s.nextAnswer.2).cbTmo = s.cbTmo := by
  unfold State.nextAnswer; split <;> rfl
@[simp] theorem nextAnswer_cbData (s : State) :
    (s.nextAnswer.2).cbData = s.cbData := by
  unfold State.nextAnswer; split <;> rfl
@[simp] theorem nextAnswer_cbSent (s : State) :
    (s.nextAnswer.2).cbSent = s.cbSent := by
  unfold State.nextAnswer; split <;> rfl
@[simp] theorem nextAnswer_rxEn (s : State) :
    (s.nextAnswer.2).rxEn = s.rxEn := by
  unfold State.nextAnswer; split <;> rfl
@[simp] theorem nextAnswer_rxCnt (s : State) :
    (s.nextAnswer.2).rxCnt = s.rxCnt := by
  unfold State.nextAnswer; split <;> rfl
@[simp] theorem nextAnswer_rxCcr1 (s : State) :
    (s.nextAnswer.2).rxCcr1 = s.rxCcr1 := by
  unfold State.nextAnswer; split <;> rfl
@[simp] theorem nextAnswer_rxCcr2 (s : State) :
    (s.nextAnswer.2).rxCcr2 = s.rxCcr2 := by
  unfold State.nextAnswer; split <;> rfl
@[simp] theorem nextAnswer_rxCcr3 (s : State) :
    (s.nextAnswer.2).rxCcr3 = s.rxCcr3 := by
  unfold State.nextAnswer; split <;> rfl
@[simp] theorem nextAnswer_rxTmoArmed (s : State) :
    (s.nextAnswer.2).rxTmoArmed = s.rxTmoArmed := by
  unfold State.nextAnswer; split <;> rfl
@[simp] theorem nextAnswer_prevCh2 (s : State) :
    (s.nextAnswer.2).prevCh2 = s.prevCh2 := by
  unfold State.nextAnswer; split <;> rfl
@[simp] theorem nextAnswer_rxPin (s : State) :
    (s.nextAnswer.2).rxPin = s.rxPin := by
  unfold State.nextAnswer; split <;> rfl
@[simp] theorem nextAnswer_freq (s : State) :
    (s.nextAnswer.2).freq = s.freq := by
  unfold State.nextAnswer; split <;> rfl
@[simp] theorem nextAnswer_duty (s : State) :
    (s.nextAnswer.2).duty = s.duty := by
  unfold State.nextAnswer; split <;> rfl
@[simp] theorem nextAnswer_restDuration (s : State) :
    (s.nextAnswer.2).restDuration = s.restDuration := by
  unfold State.nextAnswer; split <;> rfl
@[simp] theorem nextAnswer_restLevel (s : State) :
    (s.nextAnswer.2).restLevel = s.restLevel := by
  unfold State.nextAnswer; split <;> rfl
@[simp] theorem nextAnswer_restStatus (s : State) :
    (s.nextAnswer.2).restStatus = s.restStatus := by
  unfold State.nextAnswer; split <;> rfl
@[simp] theorem nextAnswer_dmaBuf (s : State) :
    (s.nextAnswer.2).dmaBuf = s.dmaBuf := by
  unfold State.nextAnswer; split <;> rfl
@[simp] theorem nextAnswer_dmaPos (s : State) :
    (s.nextAnswer.2).dmaPos = s.dmaPos := by
  unfold State.nextAnswer; split <;> rfl
@[simp] theorem nextAnswer_txEn (s : State) :
    (s.nextAnswer.2).txEn = s.txEn := by
  unfold State.nextAnswer; split <;> rfl
@[simp] theorem nextAnswer_txLevel (s : State) :
    (s.nextAnswer.2).txLevel = s.txLevel := by
  unfold State.nextAnswer; split <;> rfl
@[simp] theorem nextAnswer_txArr (s : State) :
    (s.nextAnswer.2).txArr = s.txArr := by
  unfold State.nextAnswer; split <;> rfl
@[simp] theorem nextAnswer_bufs (s : State) :
    (s.nextAnswer.2).bufs = s.bufs := by
  unfold State.nextAnswer; split <;> rfl
@[simp] theorem nextAnswer_txTrace (s : State) :
    (s.nextAnswer.2).txTrace = s.txTrace := by
  unfold State.nextAnswer; split <;> rfl
@[simp] theorem nextAnswer_callouts (s : State) :
    (s.nextAnswer.2).callouts = s.callouts := by
  unfold State.nextAnswer; split <;> rfl

/-! ## `State.dataReq` -/

@[simp] theorem dataReq_params (s : State) : (s.dataReq.2).params = s.params := by
  simp [State.dataReq]
@[simp] theorem dataReq_inputs (s : State) : (s.dataReq.2).inputs = s.inputs := by
  simp [State.dataReq]
@[simp] theorem dataReq_producer (s : State) :
    (s.dataReq.2).producer = s.nextAnswer.2.producer := by
  simp [State.dataReq]
@[simp] theorem dataReq_draws (s : State) : (s.dataReq.2).draws = s.nextAnswer.2.draws := by
  simp [State.dataReq]
@[simp] theorem dataReq_engine (s : State) : (s.dataReq.2).engine = s.engine := by
  simp [State.dataReq]
@[simp] theorem dataReq_halted (s : State) : (s.dataReq.2).halted = s.halted := by
  simp [State.dataReq]
@[simp] theorem dataReq_faultCause (s : State) : (s.dataReq.2).faultCause = s.faultCause := by
  simp [State.dataReq]
@[simp] theorem dataReq_faultOp (s : State) : (s.dataReq.2).faultOp = s.faultOp := by
  simp [State.dataReq]
@[simp] theorem dataReq_hostHeld (s : State) : (s.dataReq.2).hostHeld = s.hostHeld := by
  simp [State.dataReq]
@[simp] theorem dataReq_resp (s : State) : (s.dataReq.2).resp = s.resp := by
  simp [State.dataReq]
@[simp] theorem dataReq_semValid (s : State) : (s.dataReq.2).semValid = s.semValid := by
  simp [State.dataReq]
@[simp] theorem dataReq_termSem (s : State) : (s.dataReq.2).termSem = s.termSem := by
  simp [State.dataReq]
@[simp] theorem dataReq_cbCap (s : State) : (s.dataReq.2).cbCap = s.cbCap := by
  simp [State.dataReq]
@[simp] theorem dataReq_cbTmo (s : State) : (s.dataReq.2).cbTmo = s.cbTmo := by
  simp [State.dataReq]
@[simp] theorem dataReq_cbData (s : State) : (s.dataReq.2).cbData = s.cbData := by
  simp [State.dataReq]
@[simp] theorem dataReq_cbSent (s : State) : (s.dataReq.2).cbSent = s.cbSent := by
  simp [State.dataReq]
@[simp] theorem dataReq_rxEn (s : State) : (s.dataReq.2).rxEn = s.rxEn := by
  simp [State.dataReq]
@[simp] theorem dataReq_rxCnt (s : State) : (s.dataReq.2).rxCnt = s.rxCnt := by
  simp [State.dataReq]
@[simp] theorem dataReq_rxCcr1 (s : State) : (s.dataReq.2).rxCcr1 = s.rxCcr1 := by
  simp [State.dataReq]
@[simp] theorem dataReq_rxCcr2 (s : State) : (s.dataReq.2).rxCcr2 = s.rxCcr2 := by
  simp [State.dataReq]
@[simp] theorem dataReq_rxCcr3 (s : State) : (s.dataReq.2).rxCcr3 = s.rxCcr3 := by
  simp [State.dataReq]
@[simp] theorem dataReq_rxTmoArmed (s : State) : (s.dataReq.2).rxTmoArmed = s.rxTmoArmed := by
  simp [State.dataReq]
@[simp] theorem dataReq_prevCh2 (s : State) : (s.dataReq.2).prevCh2 = s.prevCh2 := by
  simp [State.dataReq]
@[simp] theorem dataReq_rxPin (s : State) : (s.dataReq.2).rxPin = s.rxPin := by
  simp [State.dataReq]
@[simp] theorem dataReq_freq (s : State) : (s.dataReq.2).freq = s.freq := by
  simp [State.dataReq]
@[simp] theorem dataReq_duty (s : State) : (s.dataReq.2).duty = s.duty := by
  simp [State.dataReq]
@[simp] theorem dataReq_restDuration (s : State) :
    (s.dataReq.2).restDuration = s.restDuration := by
  simp [State.dataReq]
@[simp] theorem dataReq_restLevel (s : State) : (s.dataReq.2).restLevel = s.restLevel := by
  simp [State.dataReq]
@[simp] theorem dataReq_restStatus (s : State) : (s.dataReq.2).restStatus = s.restStatus := by
  simp [State.dataReq]
@[simp] theorem dataReq_dmaBuf (s : State) : (s.dataReq.2).dmaBuf = s.dmaBuf := by
  simp [State.dataReq]
@[simp] theorem dataReq_dmaPos (s : State) : (s.dataReq.2).dmaPos = s.dmaPos := by
  simp [State.dataReq]
@[simp] theorem dataReq_txEn (s : State) : (s.dataReq.2).txEn = s.txEn := by
  simp [State.dataReq]
@[simp] theorem dataReq_txLevel (s : State) : (s.dataReq.2).txLevel = s.txLevel := by
  simp [State.dataReq]
@[simp] theorem dataReq_txArr (s : State) : (s.dataReq.2).txArr = s.txArr := by
  simp [State.dataReq]
@[simp] theorem dataReq_bufs (s : State) : (s.dataReq.2).bufs = s.bufs := by
  simp [State.dataReq]
@[simp] theorem dataReq_txTrace (s : State) : (s.dataReq.2).txTrace = s.txTrace := by
  simp [State.dataReq]
@[simp] theorem dataReq_callouts (s : State) :
    (s.dataReq.2).callouts = s.callouts ++ [.dataReq s.cbData.ctx s.dataReq.1] := by
  simp [State.dataReq]

end Sys2Proof.Machine
end

