-- ==== Sys2Proof/Laws/Ops.lean ====
section
/-! SUPPORT. What each shared operation can do, said once. -/

namespace Sys2Proof.Machine

/-! ## The buffer pair -/

@[simp] theorem otherBuf_otherBuf (b : BufIdx) : otherBuf (otherBuf b) = b := by cases b <;> rfl
@[simp] theorem otherBuf_ne (b : BufIdx) : otherBuf b ≠ b := by cases b <;> decide
@[simp] theorem ne_otherBuf (b : BufIdx) : b ≠ otherBuf b := by cases b <;> decide

@[simp] theorem BufPair.get_set_same (p : BufPair) (b : BufIdx) (u : Buffer) : (p.set b u).get b = u := by
  cases b <;> rfl

theorem BufPair.get_set_other (p : BufPair) {b c : BufIdx} (u : Buffer) (h : c ≠ b) : (p.set b u).get c = p.get c := by
  cases b <;> cases c <;> simp_all [BufPair.set, BufPair.get]

@[simp] theorem Buffers.pair_map (x : Buffers) (f : BufPair → BufPair) : (x.map f).pair = x.pair.map f := by
  cases x <;> rfl

@[simp] theorem Buffers.pair_reset : Buffers.reset.pair = none := rfl
@[simp] theorem Buffers.pair_freed : Buffers.freed.pair = none := rfl

/-- The flags of an allocated buffer are those it holds. -/
theorem endFlags_of_buf {s : State} {b : BufIdx} {u : Buffer} (h : s.buf b = some u) :
    s.endFlags b = some { packetEnd := u.packetEnd, lastPacketEnd := u.lastPacketEnd } := by
  unfold State.buf at h
  cases hb : s.bufs <;> simp_all [Buffers.pair, State.endFlags, Buffers.endFlags]

/-- The buffers depend on the field `bufs` alone. -/
theorem buf_congr {s t : State} (h : t.bufs = s.bufs) (b : BufIdx) : t.buf b = s.buf b := by simp [State.buf, h]

theorem buf_eq_some_bufValid {s : State} {b : BufIdx} {u : Buffer} (h : s.buf b = some u) : s.bufValid = true := by
  unfold State.buf at h
  cases hb : s.bufs.pair <;> simp_all [State.bufValid]

theorem exists_buf {s : State} (h : s.bufValid = true) (b : BufIdx) : ∃ u, s.buf b = some u := by
  unfold State.bufValid at h
  cases hb : s.bufs.pair <;> simp_all [State.buf]

theorem buf_setBuf_same {s : State} {b : BufIdx} {w : Buffer} (h : s.buf b = some w) (u : Buffer) :
    (s.setBuf b u).buf b = some u := by
  unfold State.buf at h ⊢
  cases hb : s.bufs.pair <;> simp_all

theorem buf_setBuf_other (s : State) {b c : BufIdx} (u : Buffer) (h : c ≠ b) : (s.setBuf b u).buf c = s.buf c := by
  unfold State.buf
  cases hb : s.bufs.pair <;> simp [hb, BufPair.get_set_other _ _ h]

@[simp] theorem bufValid_setBuf (s : State) (b : BufIdx) (u : Buffer) : (s.setBuf b u).bufValid = s.bufValid := by
  simp [State.bufValid]

/-- `BufWrite` inverted (R33). -/
theorem bufWrite_eq_some {s t : State} {b : BufIdx} {i : Nat} {e : Entry} :
    s.bufWrite b i e = some t ↔
      ∃ u, s.buf b = some u ∧ i < s.params.txBufCap ∧ t = s.setBuf b { u with cells := Memory.write u.cells i e } := by
  unfold State.bufWrite
  cases h : s.buf b with
  | none => simp
  | some u => by_cases hi : i < s.params.txBufCap <;> simp [hi, eq_comm]

/-- `BufWrite` succeeds exactly within R33's bounds. -/
theorem bufWrite_eq_none {s : State} {b : BufIdx} {i : Nat} {e : Entry} :
    s.bufWrite b i e = none ↔ s.bufValid = false ∨ s.params.txBufCap ≤ i := by
  unfold State.bufWrite State.buf State.bufValid
  cases h : s.bufs.pair with
  | none => simp
  | some p =>
    by_cases hi : i < s.params.txBufCap
    · simp [hi]
    · simp [hi]; omega

/-- Closing a buffer writes its count and flags and keeps its entries. -/
theorem closeBuf_eq {s : State} {b : BufIdx} {u : Buffer} (h : s.buf b = some u) (n : Nat) (p l : Bool) :
    s.closeBuf b n p l = s.setBuf b { u with count := n, packetEnd := p, lastPacketEnd := l } := by
  simp [State.closeBuf, h]

@[simp] theorem bufValid_closeBuf (s : State) (b : BufIdx) (n : Nat) (p l : Bool) :
    (s.closeBuf b n p l).bufValid = s.bufValid := by
  unfold State.closeBuf; split <;> simp

theorem buf_closeBuf_other (s : State) {b c : BufIdx} (n : Nat) (p l : Bool) (h : c ≠ b) :
    (s.closeBuf b n p l).buf c = s.buf c := by
  unfold State.closeBuf; split
  · exact buf_setBuf_other _ _ h
  · rfl

/-! ## The producer port -/

/-- A listed answer is taken first. -/
theorem nextAnswer_cons {s : State} {a : AnswerWord} {rest : List AnswerWord} (h : s.producer = a :: rest) :
    s.nextAnswer = (a, { s with producer := rest }) := by
  simp [State.nextAnswer, h]

/-- After the listed answers a free value is drawn. -/
theorem nextAnswer_nil {s : State} (h : s.producer = []) :
    s.nextAnswer = (Config.freeAnswer s.draws, { s with draws := s.draws + 1 }) := by
  simp [State.nextAnswer, h]

/-- Taking an answer shortens the list or draws. -/
theorem nextAnswer_progress (s : State) :
    (∃ a, s.producer = a :: s.nextAnswer.2.producer ∧ s.nextAnswer.1 = a ∧ s.nextAnswer.2.draws = s.draws) ∨
    (s.producer = [] ∧ s.nextAnswer.2.producer = [] ∧ s.nextAnswer.2.draws = s.draws + 1) := by
  cases h : s.producer with
  | nil => right; simp [nextAnswer_nil h, h]
  | cons a rest => left; simp [nextAnswer_cons h]

@[simp] theorem statusOf_statusCode (st : Status) : statusOf (statusCode st) = st := by cases st <;> rfl

/-- An answer word carries its three fields (R53). -/
@[simp] theorem answerOf_answerWord (st : Status) (l : Bool) (d : Count) :
    answerOf (answerWord st l d) = { level := l, status := st, duration := d } := by
  have hl : (answerWord st l d).getLsbD 34 = l := by
    show (BitVec.ofBool l ++ statusCode st ++ d : BitVec (1 + 2 + 32)).getLsbD 34 = l
    simp only [BitVec.getLsbD_append]; cases l <;> rfl
  have hs : (answerWord st l d).extractLsb' 32 2 = statusCode st := by
    apply BitVec.eq_of_getLsbD_eq
    intro i hi
    rw [BitVec.getLsbD_extractLsb']
    show (decide (i < 2) && (BitVec.ofBool l ++ statusCode st ++ d : BitVec (1 + 2 + 32)).getLsbD (32 + i)) = _
    simp only [BitVec.getLsbD_append]
    simp [hi]
  have hd : (answerWord st l d).extractLsb' 0 32 = d := by
    apply BitVec.eq_of_getLsbD_eq
    intro i hi
    rw [BitVec.getLsbD_extractLsb']
    show (decide (i < 32) && (BitVec.ofBool l ++ statusCode st ++ d : BitVec (1 + 2 + 32)).getLsbD (0 + i)) = _
    simp only [BitVec.getLsbD_append]
    simp [hi]
  simp only [answerOf, hl, hs, hd, statusOf_statusCode]

/-! ## The command port -/

/-- Where the host is ready the gate is open (R52). -/
theorem hostGate_of_ready {s : State} (issue : State → Result) (hh : s.halted = false) (hf : s.hostHeld = .free) :
    hostGate s issue = issue s := by
  simp [hostGate, hh, hf]

/-- A command in a legal state has its effect (R52). -/
theorem issueCommand_legal {s : State} {op : BitVec 8} {legal : EngineState → Bool} {effect : State → Result}
    (hh : s.halted = false) (hf : s.hostHeld = .free) (hl : legal s.engine = true) :
    issueCommand op legal s effect = effect s := by
  simp [issueCommand, hostGate_of_ready _ hh hf, hl]

/-- A command in any other state raises `BadState` (R52, R94). -/
theorem issueCommand_illegal {s : State} {op : BitVec 8} {legal : EngineState → Bool} {effect : State → Result}
    (hh : s.halted = false) (hf : s.hostHeld = .free) (hl : legal s.engine = false) :
    issueCommand op legal s effect = .next (raiseFatal s s .badState op) := by
  simp [issueCommand, hostGate_of_ready _ hh hf, hl]

/-- Everything an issued command that answers a next state can have done: the host was ready, and either the state was
legal and the effect ran, or `BadState` was raised. -/
theorem issueCommand_next {s t : State} {op : BitVec 8} {legal : EngineState → Bool} {effect : State → Result}
    (h : issueCommand op legal s effect = .next t) :
    s.halted = false ∧ s.hostHeld = .free ∧
      ((legal s.engine = true ∧ effect s = .next t) ∨ (legal s.engine = false ∧ t = raiseFatal s s .badState op)) := by
  unfold issueCommand hostGate at h
  cases hh : s.halted <;> simp [hh] at h
  cases hf : s.hostHeld <;> simp [hf] at h
  cases hl : legal s.engine <;> simp [hl] at h
  · exact ⟨rfl, rfl, .inr ⟨rfl, h.symm⟩⟩
  · exact ⟨rfl, rfl, .inl ⟨rfl, h⟩⟩

/-- `fromReset` finds a reset or nothing. -/
theorem fromReset_cases (l : List Input) : fromReset l = [] ∨ ∃ rest, fromReset l = .reset :: rest := by
  induction l with
  | nil => exact .inl rfl
  | cons i l ih => cases i <;> first | exact ih | exact .inr ⟨l, rfl⟩

/-- A halted block answers a next state only by the reset (R95, R96). -/
theorem takeStep_halted {s t : State} (hh : s.halted = true) (h : takeStep s = .next t) :
    ∃ rest, fromReset s.inputs = .reset :: rest ∧ t = resetBlock (s.withInputs rest) := by
  rcases fromReset_cases s.inputs with h0 | ⟨rest, h0⟩
  · simp [takeStep, hh, h0] at h
  · refine ⟨rest, h0, ?_⟩
    simp [takeStep, hh, h0, takeInput] at h
    exact h.symm

end Sys2Proof.Machine
end

