-- ==== Sys2Proof/Laws/Env.lean ====
section
/-! SUPPORT. What the environment's steps and the RX services can do, said once: the count after any number of ticks, and the
records an edge or a tick appends. -/

namespace Sys2Proof.Machine

/-- `Tick` while the RX timer runs (R63, R69). -/
theorem tick_eq {s : State} (h : s.rxEn = true) : tick s = { s with
        rxCnt := nextCount s.rxCnt s.params.rxPeriod,
        callouts := s.callouts ++
          if s.rxTmoArmed = true ∧ nextCount s.rxCnt s.params.rxPeriod = s.rxCcr3 ∧ s.rxPin = true ∧ s.cbTmo.valid = true
          then [.timeout s.cbTmo.ctx] else [] } := by
  unfold tick
  rw [if_pos h]
  simp only [cc3Flag, Bool.and_eq_true, decide_eq_true_eq, timeoutService, State.notify, State.callout]
  by_cases h1 : s.rxTmoArmed = true <;> by_cases h2 : nextCount s.rxCnt s.params.rxPeriod = s.rxCcr3 <;>
  by_cases h3 : s.rxPin = true <;> by_cases h4 : s.cbTmo.valid = true <;> simp [h1, h2, h3, h4]

/-- A tick writes the count and may append a record. -/
theorem tick_frame (s : State) : tick s = { s with rxCnt := (tick s).rxCnt, callouts := (tick s).callouts } := by
  by_cases h : s.rxEn = true
  · rw [tick_eq h]
  · have : tick s = s := by simp [tick, h]
    rw [this]

/-- The frame of any number of ticks. -/
theorem ticks_frame (n : Nat) (s : State) : tick^[n] s = { s with rxCnt := (tick^[n] s).rxCnt, callouts := (tick^[n] s).callouts } := by
  induction n generalizing s with
  | zero => rfl
  | succ n ih => rw [Function.iterate_succ', Function.comp_apply]; have h1 := tick_frame (tick^[n] s); have h2 := ih s; generalize tick (tick^[n] s) = t at *; generalize tick^[n] s = x at *; rw [h1, h2]

/-- The count goes up by one modulo the period (R63, R70). -/
theorem nextCount_toNat {c p : Count} (h : c.toNat ≤ p.toNat) : (nextCount c p).toNat = (c.toNat + 1) % (p.toNat + 1) := by
  unfold nextCount
  split
  · subst c; simp
  · rename_i hne
    have : c.toNat ≠ p.toNat := fun h => hne (BitVec.eq_of_toNat_eq h)
    have h2 := p.isLt
    rw [BitVec.toNat_add, Nat.mod_eq_of_lt (by omega : c.toNat + 1 < p.toNat + 1)]; simp; omega

/-- The count after `n` ticks (R63). -/
theorem ticks_count {s : State} (he : s.rxEn = true) (h : s.rxCnt.toNat ≤ s.params.rxPeriod.toNat) (n : Nat) :
    (tick^[n] s).rxCnt.toNat = (s.rxCnt.toNat + n) % (s.params.rxPeriod.toNat + 1) := by
  induction n with
  | zero => simp; rw [Nat.mod_eq_of_lt]; omega
  | succ n ih =>
    rw [Function.iterate_succ', Function.comp_apply]
    have hf := ticks_frame n s
    have e1 : (tick^[n] s).rxEn = true := by rw [hf]; exact he
    have e2 : (tick^[n] s).params = s.params := by rw [hf]
    rw [tick_eq e1]
    show (nextCount _ _).toNat = _
    rw [nextCount_toNat, e2, ih]
    · rw [Nat.mod_add_mod, Nat.add_assoc]
    · rw [e2, ih]; have := Nat.mod_lt (s.rxCnt.toNat + n) (show 0 < s.params.rxPeriod.toNat + 1 by omega); omega

/-- What a tick appends is a timeout record. -/
theorem tick_out (s : State) : ∃ l, (∀ c ∈ l, ∃ a, c = .timeout a) ∧ tick s = { s with rxCnt := (tick s).rxCnt, callouts := s.callouts ++ l } := by
  by_cases h : s.rxEn = true
  · refine ⟨if s.rxTmoArmed = true ∧ nextCount s.rxCnt s.params.rxPeriod = s.rxCcr3 ∧ s.rxPin = true ∧ s.cbTmo.valid = true
          then [.timeout s.cbTmo.ctx] else [], ?_, by rw [tick_eq h]⟩
    intro c hc; split at hc <;> simp_all
  · have : tick s = s := by simp [tick, h]
    exact ⟨[], by simp, by rw [this]; simp⟩

/-- `Rise` inverted (R64, R67). -/
theorem rise_next {s t : State} (h : rise s = .next t) : s.rxPin = false ∧
    ((s.rxEn = false ∧ t = { s with rxPin := true }) ∨
     (s.rxEn = true ∧ t = { s with
        rxPin := true, rxCcr1 := s.rxCnt, rxCnt := 0#32,
        callouts := s.callouts ++
          if s.cbCap.valid = true then [.capture s.cbCap.ctx true (s.rxCnt - s.prevCh2)] else [] })) := by
  unfold rise at h
  cases hp : s.rxPin <;> cases he : s.rxEn <;> cases hc : s.cbCap.valid <;>
    simp [hp, he, hc, cc1Flag, risingService, State.notify, State.callout] at h ⊢ <;> exact h.symm

/-- `Fall` inverted (R65, R68). -/
theorem fall_next {s t : State} (h : fall s = .next t) : s.rxPin = true ∧
    ((s.rxEn = false ∧ t = { s with rxPin := false }) ∨
     (s.rxEn = true ∧ t = { s with
        rxPin := false, rxCcr2 := s.rxCnt, prevCh2 := s.rxCnt,
        callouts := s.callouts ++ if s.cbCap.valid = true then [.capture s.cbCap.ctx false s.rxCnt] else [] })) := by
  unfold fall at h
  cases hp : s.rxPin <;> cases he : s.rxEn <;> cases hc : s.cbCap.valid <;>
    simp [hp, he, hc, cc2Flag, fallingService, State.notify, State.callout] at h ⊢ <;> exact h.symm

end Sys2Proof.Machine
end

