-- ==== Sys2Proof/Laws/Fill.lean ====
section
/-! SUPPORT. What the buffer fill can do: one iteration inverted, the loop's induction packaged once, and the frame and the
result of `Fill` and `FillFlush`. -/

namespace Sys2Proof.Machine

/-! ## Conversion -/

/-- Half a carrier cycle (R82), scaled by `2 * 10^6` so that it is a statement over numbers. -/
theorem numCycles_bound (d f : Nat) :
    2 * (numCycles d f * 1000000) ≤ 2 * (d * f) + 1000000 ∧ 2 * (d * f) < 2 * (numCycles d f * 1000000) + 1000000 := by
  unfold numCycles
  rw [Nat.mul_assoc 2 d f]
  generalize d * f = x
  omega

/-- 64 bits never overflow (R81, R92). -/
theorem numCycles_lt {d f : Nat} (hd : d < 2 ^ 32) (hf : f < 2 ^ 32) : numCycles d f < 2 ^ 45 := by
  have h : d * f ≤ (2 ^ 32 - 1) * (2 ^ 32 - 1) := Nat.mul_le_mul (by omega) (by omega)
  have := (numCycles_bound d f).1
  omega

/-! ## One iteration -/

/-- Step 1 of R84 inverted. -/
theorem drainRest_go {b : BufIdx} {n n' : Nat} {st : Status} {s s' : State} (h : drainRest b n s = .go n' st s') :
    n' = n + 1 ∧
    (∃ t, s.bufWrite b n { pol := s.restLevel, ticks := BitVec.ofNat 16 (min s.restDuration.toNat tickMax) } = some t ∧
      s' = { t with restDuration := BitVec.ofNat 64 (s.restDuration.toNat - min s.restDuration.toNat tickMax) }) ∧
    st = if BitVec.ofNat 64 (s.restDuration.toNat - min s.restDuration.toNat tickMax) = 0#64 then s.restStatus else .ok := by
  unfold drainRest at h
  dsimp only at h
  split at h
  · simp at h
  · rename_i t ht
    simp only [FillIter.go.injEq] at h
    exact ⟨h.1.symm, ⟨t, ht, h.2.2.symm⟩, h.2.1.symm⟩

/-- The placing of a sample inverted: dropped, split, or written whole (R83, R84 step 2). -/
theorem placeSample_go {b : BufIdx} {n n' c : Nat} {a : Answer} {st : Status} {s s' : State}
    (h : placeSample b n a c s = .go n' st s') :
    (c = 0 ∧ n' = n ∧ s' = s ∧ st = (if n = 0 ∧ a.status = .done then .ok else a.status)) ∨
    (tickMax < c - 1 ∧ n' = n + 1 ∧ st = .ok ∧ ∃ t,
      s.bufWrite b n { pol := a.level, ticks := BitVec.ofNat 16 tickMax } = some t ∧
      s' = { t with restDuration := BitVec.ofNat 64 (c - 1 - tickMax), restLevel := a.level, restStatus := a.status }) ∨
    (c ≠ 0 ∧ c - 1 ≤ tickMax ∧ n' = n + 1 ∧ st = a.status ∧
      s.bufWrite b n { pol := a.level, ticks := BitVec.ofNat 16 (c - 1) } = some s') := by
  unfold placeSample at h
  split at h
  · simp only [FillIter.go.injEq] at h
    exact .inl ⟨‹_›, h.1.symm, h.2.2.symm, h.2.1.symm⟩
  · split at h
    · split at h
      · simp at h
      · rename_i t ht
        simp only [FillIter.go.injEq] at h
        exact .inr (.inl ⟨‹_›, h.1.symm, h.2.1.symm, t, ht, h.2.2.symm⟩)
    · split at h
      · simp at h
      · rename_i t ht
        simp only [FillIter.go.injEq] at h
        obtain ⟨h1, h2, rfl⟩ := h
        exact .inr (.inr ⟨‹_›, by omega, h1.symm, h2.symm, ht⟩)

/-- The number of cycles of the sample a data request of this state delivers (R81). -/
def nextCycles (s : State) : Nat := numCycles s.dataReq.1.duration.toNat s.freq.toNat

/-- Step 2 of R84 inverted: no `Error`, and the sample placed. -/
theorem pullSample_go {b : BufIdx} {n n' : Nat} {st : Status} {s s' : State} (h : pullSample b n s = .go n' st s') :
    s.dataReq.1.status ≠ .error ∧ placeSample b n s.dataReq.1 (nextCycles s) s.dataReq.2 = .go n' st s' := by
  unfold pullSample at h
  split at h
  · simp at h
  all_goals rename_i hst; exact ⟨by simp [hst], h⟩

/-- One iteration inverted. -/
theorem fillIter_go {b : BufIdx} {n n' : Nat} {st : Status} {s s' : State} (h : fillIter b n s = .go n' st s') :
    (s.restDuration = 0#64 ∧ pullSample b n s = .go n' st s') ∨
    (s.restDuration ≠ 0#64 ∧ drainRest b n s = .go n' st s') := by
  unfold fillIter at h
  split at h
  · exact .inl ⟨‹_›, h⟩
  · exact .inr ⟨‹_›, h⟩

/-- An iteration fails only on an `Error` (R84). -/
theorem fillIter_error {b : BufIdx} {n : Nat} {s r : State} (h : fillIter b n s = .producerError r) :
    s.restDuration = 0#64 ∧ s.dataReq.1.status = .error ∧ r = s.dataReq.2 := by
  unfold fillIter at h
  split at h
  · refine ⟨‹_›, ?_⟩
    unfold pullSample at h
    split at h
    · simp only [FillIter.producerError.injEq] at h; exact ⟨‹_›, h.symm⟩
    all_goals unfold placeSample at h; split at h <;> [simp at h; (split at h <;> split at h <;> simp at h)]
  · unfold drainRest at h; dsimp only at h; split at h <;> simp at h

/-- Within the bounds of R33 an iteration is never stuck. -/
theorem fillIter_not_stuck {b : BufIdx} {n : Nat} {s : State} {f : Fault} (hv : s.bufValid = true)
    (hn : n < s.params.txBufCap) : fillIter b n s ≠ .stuck f := by
  have none_absurd : ∀ {t : State} {e : Entry}, t.bufs = s.bufs → t.params = s.params → t.bufWrite b n e ≠ none := by
    intro t e hb hp h
    rcases bufWrite_eq_none.1 h with h | h
    · simp [State.bufValid, hb] at h; simp [State.bufValid, h] at hv
    · rw [hp] at h; omega
  intro h
  unfold fillIter at h
  split at h
  · unfold pullSample at h
    split at h
    · simp at h
    all_goals
      unfold placeSample at h
      split at h
      · simp at h
      · split at h <;> split at h <;> first | (simp at h; done) | (rename_i hw; exact none_absurd (t := s.dataReq.2) (by simp) (by simp) hw)
  · unfold drainRest at h; dsimp only at h
    split at h
    · exact none_absurd rfl rfl ‹_›
    · simp at h

/-! ## The loop -/

/-- The induction over the loop of R84, once: what holds at its start and is kept by every iteration that goes on holds
where the loop ends, however it ends. -/
theorem fillLoop_cases {b : BufIdx} {P : Nat → Status → State → Prop}
    (keep : ∀ n s n' st' s', P n .ok s → n < s.params.txBufCap → fillIter b n s = .go n' st' s' → P n' st' s') :
    ∀ fuel n st s, P n st s →
      (∃ t, fillLoop b fuel n st s = .filled t ∧
        ∃ n' st' s', P n' st' s' ∧ ¬ (n' < s'.params.txBufCap ∧ st' = .ok) ∧ closeFill b n' st' s' = .filled t) ∨
      (∃ r, fillLoop b fuel n st s = .producerError r ∧
        ∃ n' s', P n' .ok s' ∧ n' < s'.params.txBufCap ∧ fillIter b n' s' = .producerError r) ∨
      (∃ f, fillLoop b fuel n st s = .stuck f ∧ (f = .fillDoesNotReturn ∨
        (∃ n' s', P n' .ok s' ∧ n' < s'.params.txBufCap ∧ fillIter b n' s' = .stuck f) ∨
        (∃ n' st' s', P n' st' s' ∧ ¬ (n' < s'.params.txBufCap ∧ st' = .ok) ∧ closeFill b n' st' s' = .stuck f))) := by
  intro fuel
  induction fuel with
  | zero =>
    intro n st s hP
    by_cases hc : n < s.params.txBufCap ∧ st = .ok
    · exact .inr (.inr ⟨.fillDoesNotReturn, by unfold fillLoop; simp [hc], .inl rfl⟩)
    · have hl : fillLoop b 0 n st s = closeFill b n st s := by unfold fillLoop; rw [if_neg hc]
      cases hcl : closeFill b n st s with
      | filled t => exact .inl ⟨t, by rw [hl, hcl], n, st, s, hP, hc, hcl⟩
      | producerError r =>
        unfold closeFill at hcl; dsimp only at hcl; repeat' split at hcl
        all_goals simp at hcl
      | stuck f => exact .inr (.inr ⟨f, by rw [hl, hcl], .inr (.inr ⟨n, st, s, hP, hc, hcl⟩)⟩)
  | succ fuel ih =>
    intro n st s hP
    by_cases hc : n < s.params.txBufCap ∧ st = .ok
    · obtain ⟨hn, rfl⟩ := hc
      have hl : fillLoop b (fuel + 1) n .ok s = match fillIter b n s with
          | .go n' st' s' => fillLoop b fuel n' st' s'
          | .producerError r => .producerError r
          | .stuck f => .stuck f := by
        cases hi : fillIter b n s <;> (conv_lhs => unfold fillLoop) <;> simp only [hn, true_and, if_true, hi]
      cases hi : fillIter b n s with
      | go n' st' s' =>
        rw [hi] at hl
        rw [hl]
        exact ih n' st' s' (keep n s n' st' s' hP hn hi)
      | producerError r => exact .inr (.inl ⟨r, by rw [hl, hi], n, s, hP, hn, hi⟩)
      | stuck f => exact .inr (.inr ⟨f, by rw [hl, hi], .inr (.inl ⟨n, s, hP, hn, hi⟩)⟩)
    · have hl : fillLoop b (fuel + 1) n st s = closeFill b n st s := by unfold fillLoop; rw [if_neg hc]
      cases hcl : closeFill b n st s with
      | filled t => exact .inl ⟨t, by rw [hl, hcl], n, st, s, hP, hc, hcl⟩
      | producerError r =>
        unfold closeFill at hcl; dsimp only at hcl; repeat' split at hcl
        all_goals simp at hcl
      | stuck f => exact .inr (.inr ⟨f, by rw [hl, hcl], .inr (.inr ⟨n, st, s, hP, hc, hcl⟩)⟩)

end Sys2Proof.Machine
end

