-- ==== Sys2Proof/Laws/FillFrame.lean ====
section
/-! SUPPORT. The frame and the result of `Fill` and `FillFlush`: what they leave alone, and what the filled buffer is. -/

namespace Sys2Proof.Machine

/-! ## Data requests -/

theorem madeRequests_zero {s t : State} (hp : t.producer = s.producer) (hd : t.draws = s.draws)
    (hc : t.callouts = s.callouts) : madeRequests 0 s t := by
  simp [madeRequests, State.nextRequests, State.nextAnswers, hp, hd, hc]

theorem madeRequests_one (s : State) : madeRequests 1 s s.dataReq.2 := by
  cases h : s.producer <;>
    simp [madeRequests, State.nextRequests, State.nextAnswers, State.dataReq, State.nextAnswer, h, State.callout]

theorem nextAnswers_add {n m : Nat} {s t : State} (hp : t.producer = s.producer.drop n)
    (hd : t.draws = s.draws + (n - s.producer.length)) : s.nextAnswers (n + m) = s.nextAnswers n ++ t.nextAnswers m := by
  unfold State.nextAnswers
  rw [hp, hd, List.length_drop]
  by_cases hn : n ≤ s.producer.length
  · have h0 : n - s.producer.length = 0 := by omega
    have h1 : m - (s.producer.length - n) = n + m - s.producer.length := by omega
    simp [h0, h1, List.take_add]
  · have h0 : s.producer.length ≤ n := by omega
    have h1 : m - (s.producer.length - n) = m := by omega
    have h2 : n + m - s.producer.length = (n - s.producer.length) + m := by omega
    rw [h1, h2, List.range_add]
    simp [List.take_of_length_le h0, List.take_of_length_le (show s.producer.length ≤ n + m by omega),
      List.drop_eq_nil_of_le h0, Nat.add_assoc]

/-- Requests add up. -/
theorem madeRequests_add {n m : Nat} {s t u : State} (hc : t.cbData = s.cbData) (h : madeRequests n s t)
    (k : madeRequests m t u) : madeRequests (n + m) s u := by
  obtain ⟨hp, hd, hl⟩ := h
  obtain ⟨kp, kd, kl⟩ := k
  refine ⟨by rw [kp, hp, List.drop_drop], by rw [kd, hd, hp, List.length_drop]; omega, ?_⟩
  rw [kl, hl]
  simp [State.nextRequests, nextAnswers_add (m := m) hp hd, hc]

@[simp] theorem nextRequests_length (s : State) (n : Nat) : (s.nextRequests n).length = n := by
  simp [State.nextRequests, State.nextAnswers]; omega

/-- Every record of a request is one of the data slot's. -/
theorem nextRequests_dataReq {s : State} {n : Nat} {c : Callout} (h : c ∈ s.nextRequests n) :
    ∃ a, c = .dataReq s.cbData.ctx a := by
  obtain ⟨a, -, rfl⟩ := List.mem_map.1 h
  exact ⟨_, rfl⟩

/-! ## The frame -/

/-- A state without what a fill may write. -/
def outsideFill (s : State) : State :=
  { s with
    producer := [], draws := 0, restDuration := 0#64, restLevel := false, restStatus := .error, bufs := Buffers.reset,
    callouts := [] }

/-- A remainder never carries the status `Error` (U8). -/
def restOk (s : State) : Prop := s.restDuration ≠ 0#64 → s.restStatus ≠ .error

/-- How a fill of buffer `b` may have changed a state, `STATE` apart. -/
structure FillFrame (b : BufIdx) (s t : State) : Prop where
  outside : outsideFill t = outsideFill s
  valid : t.bufValid = s.bufValid
  other : t.buf (otherBuf b) = s.buf (otherBuf b)
  /-- What it asked the producer. -/
  taken : ∃ n, madeRequests n s t
  canonical : s.memoriesCanonical → t.memoriesCanonical
  rest : restOk s → restOk t

theorem FillFrame.refl (b : BufIdx) (s : State) : FillFrame b s s :=
  ⟨rfl, rfl, rfl, ⟨0, madeRequests_zero rfl rfl rfl⟩, id, id⟩

theorem FillFrame.params {b : BufIdx} {s t : State} (h : FillFrame b s t) : t.params = s.params := by
  have : (outsideFill t).params = (outsideFill s).params := by rw [h.outside]
  exact this

theorem FillFrame.engine {b : BufIdx} {s t : State} (h : FillFrame b s t) : t.engine = s.engine := by
  have : (outsideFill t).engine = (outsideFill s).engine := by rw [h.outside]
  exact this

theorem FillFrame.cbData {b : BufIdx} {s t : State} (h : FillFrame b s t) : t.cbData = s.cbData := by
  have : (outsideFill t).cbData = (outsideFill s).cbData := by rw [h.outside]
  exact this

theorem FillFrame.freq {b : BufIdx} {s t : State} (h : FillFrame b s t) : t.freq = s.freq := by
  have : (outsideFill t).freq = (outsideFill s).freq := by rw [h.outside]
  exact this

/-- The callouts of a fill are data requests. -/
theorem FillFrame.requests {b : BufIdx} {s t : State} (h : FillFrame b s t) :
    ∃ l, t.callouts = s.callouts ++ l ∧ ∀ c ∈ l, ∃ a, c = .dataReq s.cbData.ctx a := by
  obtain ⟨n, -, -, hl⟩ := h.taken
  exact ⟨_, hl, fun _ => nextRequests_dataReq⟩

theorem FillFrame.trans {b : BufIdx} {s t u : State} (h : FillFrame b s t) (k : FillFrame b t u) : FillFrame b s u := by
  obtain ⟨n, hn⟩ := h.taken
  obtain ⟨m, hm⟩ := k.taken
  exact ⟨k.outside.trans h.outside, k.valid.trans h.valid, k.other.trans h.other, ⟨n + m, madeRequests_add h.cbData hn hm⟩,
    fun c => k.canonical (h.canonical c), fun c => k.rest (h.rest c)⟩

/-- The whole state after a fill, `STATE` apart: everything but what a fill may write is as before. -/
theorem FillFrame.state_eq {b : BufIdx} {s t : State} (h : FillFrame b s t) :
    t = { s with
      producer := t.producer, draws := t.draws, restDuration := t.restDuration, restLevel := t.restLevel,
      restStatus := t.restStatus, bufs := t.bufs, callouts := t.callouts } := by
  have := h.outside
  cases s; cases t
  simp only [outsideFill, State.mk.injEq] at this
  simp only [State.mk.injEq]
  simp_all

theorem canonical_setBuf {s : State} {b : BufIdx} {u : Buffer} (h : s.memoriesCanonical)
    (hu : Memory.wf u.cells = true) : (s.setBuf b u).memoriesCanonical := by
  intro c w hw
  by_cases hc : c = b
  · subst hc
    have hv : s.bufValid = true := by simpa using buf_eq_some_bufValid hw
    obtain ⟨x, hx⟩ := exists_buf hv c
    rw [buf_setBuf_same hx] at hw
    cases hw; exact hu
  · rw [buf_setBuf_other _ _ hc] at hw; exact h c w hw

theorem bufWrite_frame {s t : State} {b : BufIdx} {i : Nat} {e : Entry} (h : s.bufWrite b i e = some t) :
    FillFrame b s t := by
  obtain ⟨u, hu, -, rfl⟩ := bufWrite_eq_some.1 h
  refine ⟨by simp [outsideFill, State.setBuf], by simp, buf_setBuf_other _ _ (otherBuf_ne b), ⟨0, madeRequests_zero (by simp) (by simp) (by simp)⟩,
    fun hc => canonical_setBuf hc (Memory.wf_write (hc b u hu) _ _), id⟩

theorem closeBuf_frame (s : State) (b : BufIdx) (n : Nat) (p l : Bool) : FillFrame b s (s.closeBuf b n p l) := by
  cases hu : s.buf b with
  | none => rw [show s.closeBuf b n p l = s by simp [State.closeBuf, hu]]; exact .refl b s
  | some u =>
    rw [closeBuf_eq hu]
    exact ⟨by simp [outsideFill, State.setBuf], by simp, buf_setBuf_other _ _ (otherBuf_ne b), ⟨0, madeRequests_zero (by simp) (by simp) (by simp)⟩,
      fun hc => canonical_setBuf hc (hc b u hu), id⟩

theorem dataReq_frame (b : BufIdx) (s : State) : FillFrame b s s.dataReq.2 := by
  have hb : s.dataReq.2.bufs = s.bufs := by simp
  refine ⟨?_, by simp [State.bufValid], buf_congr hb _, ⟨1, madeRequests_one s⟩, ?_, ?_⟩
  · unfold State.dataReq State.nextAnswer State.callout outsideFill; split <;> rfl
  · intro h c u hu; rw [buf_congr hb] at hu; exact h c u hu
  · simp [restOk]

theorem withRest_frame (b : BufIdx) (s : State) (d : BitVec 64) (l : Bool) (st : Status)
    (h : restOk s → (d ≠ 0#64 → st ≠ .error)) :
    FillFrame b s { s with restDuration := d, restLevel := l, restStatus := st } :=
  ⟨rfl, rfl, rfl, ⟨0, madeRequests_zero (by simp) (by simp) (by simp)⟩, id, h⟩

/-! ## One iteration -/

/-- The entries below `n` of buffer `b` are written. -/
def writtenBelow (b : BufIdx) (n : Nat) (s : State) : Prop :=
  ∃ u, s.buf b = some u ∧ ∀ i, i < n → (Memory.read u.cells i).isSome = true

theorem writtenBelow_congr {b : BufIdx} {n : Nat} {s t : State} (hb : t.bufs = s.bufs) (h : writtenBelow b n s) :
    writtenBelow b n t := by
  obtain ⟨u, hu, hr⟩ := h
  exact ⟨u, (buf_congr hb b).trans hu, hr⟩

theorem writtenBelow_write {b : BufIdx} {n : Nat} {e : Entry} {s t : State} (h : writtenBelow b n s)
    (hw : s.bufWrite b n e = some t) : writtenBelow b (n + 1) t := by
  obtain ⟨u, hu, hr⟩ := h
  obtain ⟨v, hv, -, rfl⟩ := bufWrite_eq_some.1 hw
  rw [hu] at hv; cases hv
  refine ⟨_, buf_setBuf_same hu _, fun i hi => ?_⟩
  by_cases h : i = n
  · subst h; simp
  · simp only; rw [Memory.read_write_other _ _ h]; exact hr i (by omega)

/-- One iteration keeps the frame, and writes at most the next entry. -/
theorem fillIter_frame {b : BufIdx} {n n' : Nat} {st : Status} {s s' : State} (hw : writtenBelow b n s)
    (h : fillIter b n s = .go n' st s') :
    FillFrame b s s' ∧ writtenBelow b n' s' ∧ (n' = n ∨ n' = n + 1) := by
  rcases fillIter_go h with ⟨-, h⟩ | ⟨-, h⟩
  · obtain ⟨hst, h⟩ := pullSample_go h
    have hb : s.dataReq.2.bufs = s.bufs := by simp
    have hw' : writtenBelow b n s.dataReq.2 := writtenBelow_congr hb hw
    have hf := dataReq_frame b s
    rcases placeSample_go h with ⟨-, rfl, rfl, -⟩ | ⟨-, rfl, -, t, ht, rfl⟩ | ⟨-, -, rfl, -, ht⟩
    · exact ⟨hf, hw', .inl rfl⟩
    · refine ⟨(hf.trans (bufWrite_frame ht)).trans (withRest_frame b t _ _ _ fun _ _ => hst), ?_, .inr rfl⟩
      exact writtenBelow_congr (s := t) rfl (writtenBelow_write hw' ht)
    · exact ⟨hf.trans (bufWrite_frame ht), writtenBelow_write hw' ht, .inr rfl⟩
  · obtain ⟨rfl, ⟨t, ht, rfl⟩, -⟩ := drainRest_go h
    refine ⟨(bufWrite_frame ht).trans (withRest_frame b t _ _ _ fun hr hd => ?_),
      writtenBelow_congr (s := t) rfl (writtenBelow_write hw ht), .inr rfl⟩
    refine hr fun h0 => hd ?_
    have hs : t.restDuration = s.restDuration := by
      obtain ⟨u, -, -, rfl⟩ := bufWrite_eq_some.1 ht; simp
    rw [← hs, h0]; rfl

/-! ## The whole fill -/

/-- What a fill that returns is (R84): the frame is kept, `STATE` moves to `AsyncTxLast` exactly on a last packet's end
(D30), and the buffer may be handed to the DMA (R25). -/
structure FillSpec (b : BufIdx) (s t : State) : Prop where
  /-- The frame, for the state before the move of `STATE`. -/
  frame : FillFrame b s { t with engine := s.engine }
  buffer : ∃ u, t.buf b = some u ∧ u.Playable s.params.txBufCap ∧
    t.engine = if u.lastPacketEnd = true ∧ s.engine = .asyncTx then .asyncTxLast else s.engine

theorem closeFill_spec {b : BufIdx} {n : Nat} {st : Status} {s t : State} (hcap : 1 ≤ s.params.txBufCap)
    (hn : n ≤ s.params.txBufCap) (hw : writtenBelow b n s) (h : closeFill b n st s = .filled t) : FillSpec b s t := by
  have close : ∀ (m : Nat) (s' : State), FillFrame b s s' → 1 ≤ m → m ≤ s.params.txBufCap → writtenBelow b m s' →
      t = (if st = .lastDone ∧ (s'.closeBuf b m (packetEndOf st) (lastPacketEndOf st)).engine = .asyncTx
        then { s'.closeBuf b m (packetEndOf st) (lastPacketEndOf st) with engine := .asyncTxLast }
        else s'.closeBuf b m (packetEndOf st) (lastPacketEndOf st)) → FillSpec b s t := by
    rintro m s' hf h1 hm ⟨u, hu, hr⟩ ht
    have he : s'.engine = s.engine := hf.engine
    have hc := hf.trans (closeBuf_frame s' b m (packetEndOf st) (lastPacketEndOf st))
    have hlast : lastPacketEndOf st = true ↔ st = .lastDone := by cases st <;> simp [lastPacketEndOf]
    have hend : lastPacketEndOf st = true → packetEndOf st = true := by cases st <;> simp [lastPacketEndOf, packetEndOf]
    have hb := buf_setBuf_same hu
      { u with count := m, packetEnd := packetEndOf st, lastPacketEnd := lastPacketEndOf st }
    have hx : { t with engine := s.engine } = s'.closeBuf b m (packetEndOf st) (lastPacketEndOf st) := by
      rw [ht, ← he]; split
      · rename_i h; rw [closeBuf_eq hu] at h ⊢; simp [State.setBuf]
      · rw [closeBuf_eq hu]; rfl
    refine ⟨by rw [hx]; exact hc,
      { u with count := m, packetEnd := packetEndOf st, lastPacketEnd := lastPacketEndOf st }, ?_,
      ⟨h1, hm, hr, hend⟩, ?_⟩
    · rw [← hb, ← closeBuf_eq hu, ← hx]; exact buf_congr rfl b
    · rw [ht]
      by_cases hl : st = .lastDone <;> by_cases hq : s.engine = .asyncTx <;> simp [hl, hq, he, hlast, show lastPacketEndOf .lastDone = true from rfl]
  unfold closeFill at h
  dsimp only at h
  by_cases h0 : n = 0
  · rw [if_pos h0] at h
    split at h
    · simp at h
    · rename_i t' ht'
      simp only [FillResult.filled.injEq] at h
      exact close 1 t' (bufWrite_frame ht') le_rfl hcap (writtenBelow_write (h0 ▸ hw) ht') h.symm
  · rw [if_neg h0] at h
    simp only [FillResult.filled.injEq] at h
    exact close n s (.refl b s) (by omega) hn hw h.symm

/-- The invariant of the loop of R84. -/
def loopInv (b : BufIdx) (s : State) (n : Nat) (_ : Status) (s' : State) : Prop :=
  FillFrame b s s' ∧ writtenBelow b n s' ∧ n ≤ s.params.txBufCap

theorem loopInv_keep (b : BufIdx) (s : State) (n : Nat) (s' : State) (n'' : Nat) (st : Status) (s'' : State)
    (hP : loopInv b s n .ok s') (hn : n < s'.params.txBufCap) (h : fillIter b n s' = .go n'' st s'') :
    loopInv b s n'' st s'' := by
  obtain ⟨hf, hw, -⟩ := hP
  obtain ⟨hf', hw', hn'⟩ := fillIter_frame hw h
  rw [hf.params] at hn
  exact ⟨hf.trans hf', hw', by rcases hn' with rfl | rfl <;> omega⟩

theorem loopInv_init {b : BufIdx} {s : State} (hv : s.bufValid = true) : loopInv b s 0 .ok s := by
  obtain ⟨u, hu⟩ := exists_buf hv b
  exact ⟨.refl b s, ⟨u, hu, by simp⟩, Nat.zero_le _⟩

/-- `Fill` that returns (R84). -/
theorem fill_filled {b : BufIdx} {s t : State} (hv : s.bufValid = true) (hcap : 1 ≤ s.params.txBufCap)
    (h : fill b s = .filled t) : FillSpec b s t := by
  rcases fillLoop_cases (P := loopInv b s) (loopInv_keep b s) (fillFuel s) 0 .ok s (loopInv_init hv) with
    ⟨t', ht', n', st', s', ⟨hf, hw, hn⟩, -, hcl⟩ | ⟨r, hr, -⟩ | ⟨f, hf, -⟩
  · have : t' = t := by simpa [fill, ht'] using h
    subst this
    have sp := closeFill_spec (by rw [hf.params]; exact hcap) (by rw [hf.params]; exact hn) hw hcl
    obtain ⟨u, hu, hp, he⟩ := sp.buffer
    have hf2 := sp.frame
    rw [hf.engine] at hf2 he
    exact ⟨hf.trans hf2, u, hu, by rw [hf.params] at hp; exact hp, he⟩
  · simp [fill, hr] at h
  · simp [fill, hf] at h

/-- `Fill` whose producer answers `Error` (R84, R94): what has happened by then keeps the frame. -/
theorem fill_producerError {b : BufIdx} {s r : State} (hv : s.bufValid = true)
    (h : fill b s = .producerError r) : FillFrame b s r := by
  rcases fillLoop_cases (P := loopInv b s) (loopInv_keep b s) (fillFuel s) 0 .ok s (loopInv_init hv) with
    ⟨t', ht', -⟩ | ⟨r', hr, n', s', ⟨hf, -, -⟩, -, hi⟩ | ⟨f, hf, -⟩
  · simp [fill, ht'] at h
  · have : r' = r := by simpa [fill, hr] using h
    subst this
    obtain ⟨-, -, rfl⟩ := fillIter_error hi
    exact hf.trans (dataReq_frame b s')
  · simp [fill, hf] at h

/-- A fill of an allocated buffer is stuck only on a producer that never ends it (R107). -/
theorem fill_stuck {b : BufIdx} {s : State} {f : Fault} (hv : s.bufValid = true) (hcap : 1 ≤ s.params.txBufCap)
    (h : fill b s = .stuck f) : f = .fillDoesNotReturn := by
  rcases fillLoop_cases (P := loopInv b s) (loopInv_keep b s) (fillFuel s) 0 .ok s (loopInv_init hv) with
    ⟨t', ht', -⟩ | ⟨r, hr, -⟩ | ⟨f', hf', hx⟩
  · simp [fill, ht'] at h
  · simp [fill, hr] at h
  · have : f' = f := by simpa [fill, hf'] using h
    subst this
    rcases hx with rfl | ⟨n', s', ⟨hf, -, -⟩, hn, hi⟩ | ⟨n', st', s', ⟨hf, -, -⟩, -, hcl⟩
    · rfl
    · exact absurd hi (fillIter_not_stuck (by rw [hf.valid]; exact hv) hn)
    · unfold closeFill at hcl
      dsimp only at hcl
      split at hcl
      · split at hcl
        · rename_i hw
          rcases bufWrite_eq_none.1 hw with hw | hw
          · rw [hf.valid, hv] at hw; simp at hw
          · rw [hf.params] at hw; omega
        · simp at hcl
      · simp at hcl

/-! ## The flush buffer -/

/-- `FillFlush` (R87) within its capacity: the frame is kept and buffer `b` is the flush buffer, both its flags set. -/
theorem fillFlush_spec {b : BufIdx} {s : State} (hv : s.bufValid = true) (hcap : 2 ≤ s.params.txBufCap) :
    ∃ t u, fillFlush b s = some t ∧ FillFrame b s t ∧ t.callouts = s.callouts ∧ t.buf b = some u ∧ u.IsFlush ∧
      u.packetEnd = true ∧ u.lastPacketEnd = true := by
  obtain ⟨u, hu⟩ := exists_buf hv b
  have h0 : s.bufWrite b 0 flushEntry = some (s.setBuf b { u with cells := Memory.write u.cells 0 flushEntry }) :=
    bufWrite_eq_some.2 ⟨u, hu, by omega, rfl⟩
  have hu1 := buf_setBuf_same hu { u with cells := Memory.write u.cells 0 flushEntry }
  have h1 : (s.setBuf b { u with cells := Memory.write u.cells 0 flushEntry }).bufWrite b 1 flushEntry = some _ :=
    bufWrite_eq_some.2 ⟨_, hu1, by simp; omega, rfl⟩
  have hu2 := buf_setBuf_same hu1
    { u with cells := Memory.write (Memory.write u.cells 0 flushEntry) 1 flushEntry }
  refine ⟨_, _, by simp [fillFlush, h0, h1]; rfl,
    ((bufWrite_frame h0).trans (bufWrite_frame h1)).trans (closeBuf_frame _ _ _ _ _), by simp,
    by rw [closeBuf_eq hu2]; exact buf_setBuf_same hu2 _, ⟨rfl, ?_, ?_⟩, rfl, rfl⟩
  · simp only; rw [Memory.read_write_other _ _ (by decide)]; simp
  · simp

end Sys2Proof.Machine
end

