-- ==== Sys2Proof/Laws/Play.lean ====
section
/-! SUPPORT. What a `Play` step and its services can do, said once. -/

namespace Sys2Proof.Machine

/-- The signal-sent callout changes nothing but the callouts (R90). -/
theorem signalPacket_eq (u : Buffer) (s : State) :
    signalPacket u s = { s with callouts := (signalPacket u s).callouts } := by
  unfold signalPacket State.notify State.callout
  split
  · split <;> rfl
  · rfl

/-- The callouts after the signal-sent callout (R91). -/
theorem signalPacket_callouts (u : Buffer) (s : State) :
    (signalPacket u s).callouts = s.callouts ++
      (if u.packetEnd = true ∧ s.engine ≠ .asyncTxStopped ∧ s.cbSent.valid = true
        then [.signalSent s.cbSent.ctx] else []) := by
  unfold signalPacket State.notify State.callout
  by_cases h1 : u.packetEnd = true <;> by_cases h2 : s.engine = .asyncTxStopped <;>
    by_cases h3 : s.cbSent.valid = true <;> simp [h1, h2, h3]

/-- The transfer-complete service inverted (R90). -/
theorem transferComplete_next {s t : State} (h : transferCompleteService s = .next t) :
    ∃ u w, s.buf s.dmaBuf = some u ∧ handOver u s = some w ∧ t = signalPacket u w := by
  unfold transferCompleteService at h
  split at h
  · simp at h
  · rename_i u hu
    split at h
    · simp at h
    · rename_i w hw
      simp only [Host.Outcome.next.injEq] at h
      exact ⟨u, w, hu, hw, h.symm⟩

/-- The half-transfer service inverted (R89). -/
theorem halfTransfer_filled {s t : State} (h : halfTransferService s = .filled t) :
    (s.engine = .asyncTx ∧ fill (otherBuf s.dmaBuf) s = .filled t) ∨ (s.engine ≠ .asyncTx ∧ t = s) := by
  unfold halfTransferService at h
  split at h
  · exact .inl ⟨‹_›, h⟩
  · simp only [FillResult.filled.injEq] at h
    exact .inr ⟨‹_›, h.symm⟩

theorem halfTransfer_producerError {s r : State} (h : halfTransferService s = .producerError r) :
    s.engine = .asyncTx ∧ fill (otherBuf s.dmaBuf) s = .producerError r := by
  unfold halfTransferService at h
  split at h
  · exact ⟨‹_›, h⟩
  · simp at h

/-- The whole state after a fill: everything but what a fill may write is as before. -/
theorem FillSpec.state_eq {b : BufIdx} {s t : State} (h : FillSpec b s t) :
    t = { s with
      engine := t.engine, producer := t.producer, draws := t.draws, restDuration := t.restDuration,
      restLevel := t.restLevel, restStatus := t.restStatus, bufs := t.bufs, callouts := t.callouts } := by
  have := h.frame.state_eq
  cases s; cases t
  simp only [State.mk.injEq] at this ⊢
  simp_all

/-- A refill keeps the playback pointer and the finished buffer (R41). -/
theorem FillSpec.dma {b : BufIdx} {s t : State} (h : FillSpec b s t) :
    t.dmaBuf = s.dmaBuf ∧ t.dmaPos = s.dmaPos ∧ t.buf (otherBuf b) = s.buf (otherBuf b) := by
  have hb := congrArg State.dmaBuf h.state_eq
  have hp := congrArg State.dmaPos h.state_eq
  exact ⟨hb, hp, h.frame.other⟩

/-- The state after the transfer of one entry and the half-transfer service, where it does not fail (R88, R89). -/
def refilled (n : Nat) (s t : State) : Prop :=
  (s.dmaPos = htPoint n ∧ s.engine = .asyncTx ∧ fill (otherBuf s.dmaBuf) s = .filled t) ∨
  (¬ (s.dmaPos = htPoint n ∧ s.engine = .asyncTx) ∧ t = s)

/-- A `Play` step inverted (R88): it was enabled, it read an entry, and either the refill met `Error`, or the half-transfer
service has run where it should and the transfer-complete service at the buffer's end. -/
theorem play_next {s t : State} (h : play s = .next t) :
    s.txEn = true ∧ ∃ u e, s.buf s.dmaBuf = some u ∧ s.dmaPos < u.count ∧ s.bufRead s.dmaBuf s.dmaPos = some e ∧
      ((s.dmaPos + 1 = htPoint u.count ∧ s.engine = .asyncTx ∧ ∃ r,
          fill (otherBuf s.dmaBuf) (transferEntry e s) = .producerError r ∧
          t = raiseFatal s r .producerError eventHt) ∨
       (∃ m, refilled u.count (transferEntry e s) m ∧
          ((m.dmaPos ≠ u.count ∧ t = m) ∨ (m.dmaPos = u.count ∧ transferCompleteService m = .next t)))) := by
  unfold play at h
  split at h
  case isFalse => simp at h
  case isTrue hen =>
  refine ⟨hen, ?_⟩
  split at h
  · simp at h
  · rename_i u hu
    split at h
    case isFalse => simp at h
    case isTrue hlt =>
    unfold playEntry at h
    split at h
    · simp at h
    · rename_i e he
      refine ⟨u, e, hu, hlt, he, ?_⟩
      dsimp only at h
      by_cases hht : (transferEntry e s).dmaPos = htPoint u.count
      · rw [if_pos (by simp [htFlag, hht])] at h
        split at h
        · rename_i r hr
          obtain ⟨hq, hr⟩ := halfTransfer_producerError hr
          simp only [Host.Outcome.next.injEq] at h
          exact .inl ⟨hht, hq, r, hr, h.symm⟩
        · simp at h
        · rename_i m hm
          refine .inr ⟨m, ?_, ?_⟩
          · rcases halfTransfer_filled hm with ⟨hq, hm⟩ | ⟨hq, hm⟩
            · exact .inl ⟨hht, hq, hm⟩
            · exact .inr ⟨fun hc => hq hc.2, hm⟩
          · by_cases htc : m.dmaPos = u.count
            · rw [if_pos (by simp [tcFlag, htc])] at h; exact .inr ⟨htc, h⟩
            · rw [if_neg (by simp [tcFlag, htc])] at h
              simp only [Host.Outcome.next.injEq] at h
              exact .inl ⟨htc, h.symm⟩
      · rw [if_neg (by simp [htFlag, hht])] at h
        dsimp only at h
        refine .inr ⟨_, .inr ⟨fun hc => hht hc.1, rfl⟩, ?_⟩
        by_cases htc : (transferEntry e s).dmaPos = u.count
        · rw [if_pos (by simp [tcFlag, htc])] at h; exact .inr ⟨htc, h⟩
        · rw [if_neg (by simp [tcFlag, htc])] at h
          simp only [Host.Outcome.next.injEq] at h
          exact .inl ⟨htc, h.symm⟩

/-- Every way a step that answers a next state can have gone (R5, R40): the reset of a halted block, the wait of a block
without a supplied step, or the first supplied step. -/
theorem takeStep_next {s t : State} (h : takeStep s = .next t) :
    (s.halted = true ∧ ∃ rest, fromReset s.inputs = .reset :: rest ∧ t = resetBlock (s.withInputs rest)) ∨
    (s.halted = false ∧ s.inputs = [] ∧ t = s) ∨
    (s.halted = false ∧ ∃ i rest, s.inputs = i :: rest ∧ takeInput i (s.withInputs rest) = .next t) := by
  cases hh : s.halted with
  | true => exact .inl ⟨rfl, takeStep_halted hh h⟩
  | false =>
    cases hi : s.inputs with
    | nil =>
      simp [takeStep, hh, hi] at h
      exact .inr (.inl ⟨rfl, rfl, h.symm⟩)
    | cons i rest =>
      simp [takeStep, hh, hi] at h
      exact .inr (.inr ⟨rfl, i, rest, rfl, h⟩)

/-- A write to the port that answers a next state inverted (R52): a command ran, or `IllegalCommand` was raised by a host
that was ready. -/
theorem hostWrite_next {bytes : List Byte} {s t : State} (h : hostWrite bytes s = .next t) :
    (∃ i, decodeBytes bytes = .instr i ∧ exec i s = .next t) ∨
    (s.halted = false ∧ s.hostHeld = .free ∧ t = raiseFatal s s .illegalCommand (opOfBytes bytes)) := by
  unfold hostWrite at h
  cases hd : decodeBytes bytes with
  | instr i => rw [hd] at h; exact .inl ⟨i, rfl, h⟩
  | reject r =>
    rw [hd] at h
    cases r with
    | notEightBytes => simp at h
    | unassignedOpcode | reservedBitSet =>
      unfold hostGate at h
      cases hh : s.halted <;> simp [hh] at h
      cases hf : s.hostHeld <;> simp [hf] at h
      exact .inr ⟨rfl, rfl, h.symm⟩

end Sys2Proof.Machine
end

