-- ==== Sys2Proof/Laws/Exec.lean ====
section
/-! SUPPORT. Each command inverted: everything it can have done when it answers a next state; and what a `Play` step leaves
alone. -/

namespace Sys2Proof.Machine

/-! ## Fills -/

/-- A fill that returns has filled at least one entry, so the capacity is not 0. -/
theorem fill_filled_cap {b : BufIdx} {s t : State} (h : fill b s = .filled t) : 1 ≤ s.params.txBufCap := by
  by_contra hc
  have h0 : s.params.txBufCap = 0 := by omega
  have hw : s.bufWrite b 0 degenerateEntry = none := bufWrite_eq_none.2 (.inr (by omega))
  unfold fill fillLoop at h
  simp [h0, closeFill, hw] at h

/-- `Fill` that returns, with no premise on the capacity. -/
theorem fill_filled' {b : BufIdx} {s t : State} (hv : s.bufValid = true) (h : fill b s = .filled t) : FillSpec b s t :=
  fill_filled hv (fill_filled_cap h) h

/-- A fill that meets `Error` has just been answered it (R84). -/
theorem fill_producerError_last {b : BufIdx} {s r : State} (hv : s.bufValid = true) (h : fill b s = .producerError r) :
    ∃ a, r.callouts.getLast? = some (.dataReq s.cbData.ctx a) ∧ a.status = .error := by
  rcases fillLoop_cases (P := loopInv b s) (loopInv_keep b s) (fillFuel s) 0 .ok s (loopInv_init hv) with
    ⟨t', ht', -⟩ | ⟨r', hr, n', s', ⟨hf, -, -⟩, -, hi⟩ | ⟨f, hf, -⟩
  · simp [fill, ht'] at h
  · have : r' = r := by simpa [fill, hr] using h
    subst this
    obtain ⟨-, he, rfl⟩ := fillIter_error hi
    exact ⟨s'.dataReq.1, by simp [hf.cbData], he⟩
  · simp [fill, hf] at h

/-! ## Commands -/

/-- The table of R80 is what each command checks. -/
theorem legalState_eq (i : Instr) (e : EngineState) :
    legalState i e = match i with
      | .rxStart | .rxSetCaptureCb _ _ | .rxSetTimeoutCb _ _ | .txSetDataCb _ _ | .txSetSentCb _ _ | .txStart _ _ =>
        legalInIdle e
      | .rxStop | .rxSetTimeout _ => legalInRx e
      | .txStop | .txWaitTerm => txOrLater e
      | .txIsComplete => true := by
  cases i <;> cases e <;> rfl

/-- What a command in a legal state makes of `s`, by its rule. -/
def Commanded (i : Instr) (s t : State) : Prop :=
  match i with
  | .rxStart => t = { s with
      rxCnt := 0#32, rxCcr1 := 0#32, rxCcr2 := 0#32, rxCcr3 := 0#32, rxTmoArmed := false, prevCh2 := 0#32,
      rxEn := true, engine := .asyncRx }
  | .rxStop => t = { s with rxEn := false, rxTmoArmed := false, engine := .idle }
  | .rxSetTimeout us => t = { s with rxCcr3 := us, rxTmoArmed := true }
  | .rxSetCaptureCb v c => t = { s with cbCap := { valid := v, ctx := c } }
  | .rxSetTimeoutCb v c => t = { s with cbTmo := { valid := v, ctx := c } }
  | .txSetDataCb v c => t = { s with cbData := { valid := v, ctx := c } }
  | .txSetSentCb v c => t = { s with cbSent := { valid := v, ctx := c } }
  | .txStart f d =>
    (s.cbData.valid = false ∧ t = raiseFatal s s .nullDataCallback 0x22#8) ∨
    (s.cbData.valid = true ∧ dutyLegal d = false ∧ t = raiseFatal s s .badDutyCycle 0x22#8) ∨
    (s.cbData.valid = true ∧ dutyLegal d = true ∧ freqLegal s.params f = false ∧
      t = raiseFatal s s .badFrequency 0x22#8) ∨
    (s.cbData.valid = true ∧ dutyLegal d = true ∧ freqLegal s.params f = true ∧
      ((∃ r, fill .b0 (armTx f d s) = .producerError r ∧ t = raiseFatal s r .producerError 0x22#8) ∨
       ∃ m, fill .b0 (armTx f d s) = .filled m ∧ t = launchTx m))
  | .txStop => t = { s with engine := afterStopRequest s.engine, hostHeld := .stop }
  | .txWaitTerm => t = { s with hostHeld := .wait }
  | .txIsComplete => t = { s with resp := if s.engine = .asyncTxStopped then 1#32 else 0#32 }

theorem execTxStart_legal {f : Count} {d : BitVec 24} {s : State} (hr : s.hostReady) (hl : legalInIdle s.engine = true) :
    execTxStart f d s =
      if s.cbData.valid = false then .next (raiseFatal s s .nullDataCallback 0x22#8)
      else if dutyLegal d = false then .next (raiseFatal s s .badDutyCycle 0x22#8)
      else if freqLegal s.params f = false then .next (raiseFatal s s .badFrequency 0x22#8)
      else match fill .b0 (armTx f d s) with
        | .filled t => .next (launchTx t)
        | .producerError r => .next (raiseFatal s r .producerError 0x22#8)
        | .stuck f => .fault f := by
  unfold execTxStart
  rw [issueCommand_legal hr.1 hr.2 hl]
  cases s.cbData.valid <;> cases dutyLegal d <;> cases freqLegal s.params f <;> rfl

/-- Every way a command that answers a next state can have gone (R52): the host was ready, and either the state was not
legal and `BadState` was raised, or it was and the command had its effect. -/
theorem exec_next {i : Instr} {s t : State} (h : exec i s = .next t) :
    s.hostReady ∧
      ((legalState i s.engine = false ∧ t = raiseFatal s s .badState (opcodeOf i)) ∨
       (legalState i s.engine = true ∧ Commanded i s t)) := by
  rw [legalState_eq]
  cases i with
  | txStart f d =>
    have h' : execTxStart f d s = .next t := h
    have hx := h'
    unfold execTxStart at hx
    obtain ⟨hh, hf, ⟨hl, -⟩ | ⟨hl, rfl⟩⟩ := issueCommand_next hx
    swap
    · exact ⟨⟨hh, hf⟩, .inl ⟨hl, rfl⟩⟩
    refine ⟨⟨hh, hf⟩, .inr ⟨hl, ?_⟩⟩
    rw [execTxStart_legal ⟨hh, hf⟩ hl] at h'
    unfold Commanded
    by_cases hc : s.cbData.valid = false
    · rw [if_pos hc] at h'
      exact .inl ⟨hc, by simpa using h'.symm⟩
    rw [if_neg hc] at h'
    by_cases hd : dutyLegal d = false
    · rw [if_pos hd] at h'
      exact .inr (.inl ⟨by simpa using hc, hd, by simpa using h'.symm⟩)
    rw [if_neg hd] at h'
    by_cases hq : freqLegal s.params f = false
    · rw [if_pos hq] at h'
      exact .inr (.inr (.inl ⟨by simpa using hc, by simpa using hd, hq, by simpa using h'.symm⟩))
    rw [if_neg hq] at h'
    refine .inr (.inr (.inr ⟨by simpa using hc, by simpa using hd, by simpa using hq, ?_⟩))
    split at h'
    · rename_i m hm
      exact .inr ⟨m, hm, by simpa using h'.symm⟩
    · rename_i r hr
      exact .inl ⟨r, hr, by simpa using h'.symm⟩
    · simp at h'
  | rxStart | rxStop | rxSetTimeout _ | rxSetCaptureCb _ _ | rxSetTimeoutCb _ _ | txSetDataCb _ _ | txSetSentCb _ _
  | txStop | txWaitTerm | txIsComplete =>
    simp only [exec, execRxStart, execRxStop, execRxSetTimeout, execRxSetCaptureCb, execRxSetTimeoutCb, execTxSetDataCb,
      execTxSetSentCb, execTxStop, execTxWaitTerm, execTxIsComplete] at h
    obtain ⟨hh, hf, ⟨hl, hx⟩ | ⟨hl, rfl⟩⟩ := issueCommand_next h
    · exact ⟨⟨hh, hf⟩, .inr ⟨hl, by simpa [Commanded] using hx.symm⟩⟩
    · exact ⟨⟨hh, hf⟩, .inl ⟨hl, rfl⟩⟩

/-- A command in a state that is not legal raises `BadState`. -/
theorem exec_illegal {i : Instr} {s : State} (hr : s.hostReady) (hl : legalState i s.engine = false) :
    exec i s = .next (raiseFatal s s .badState (opcodeOf i)) := by
  rw [legalState_eq] at hl
  cases i <;> simp only [Bool.true_eq_false] at hl <;>
    simp only [exec, execRxStart, execRxStop, execRxSetTimeout, execRxSetCaptureCb, execRxSetTimeoutCb, execTxSetDataCb,
      execTxSetSentCb, execTxStop, execTxWaitTerm, execTxStart] <;>
    exact issueCommand_illegal hr.1 hr.2 hl

/-- A command other than `TX_START` in a legal state has its effect. -/
theorem exec_legal {i : Instr} {s t : State} (hr : s.hostReady) (hl : legalState i s.engine = true)
    (ht : Commanded i s t) (hi : ∀ f d, i ≠ .txStart f d) : exec i s = .next t := by
  rw [legalState_eq] at hl
  cases i with
  | txStart f d => exact absurd rfl (hi f d)
  | rxStart | rxStop | rxSetTimeout _ | rxSetCaptureCb _ _ | rxSetTimeoutCb _ _ | txSetDataCb _ _ | txSetSentCb _ _
  | txStop | txWaitTerm | txIsComplete =>
    simp only [Commanded] at ht
    subst ht
    simp only [exec, execRxStart, execRxStop, execRxSetTimeout, execRxSetCaptureCb, execRxSetTimeoutCb, execTxSetDataCb,
      execTxSetSentCb, execTxStop, execTxWaitTerm, execTxIsComplete]
    exact issueCommand_legal hr.1 hr.2 hl

/-- What `TX_START` that starts a session has left (R75): the state `TX_START` arms, filled and launched. -/
theorem launched_eq {f : Count} {d : BitVec 24} {s m : State} (h : fill .b0 (armTx f d s) = .filled m) :
    FillSpec .b0 (armTx f d s) m ∧
    launchTx m = { s with
      freq := f, duty := d, semValid := true, termSem := false, dmaBuf := .b0, dmaPos := 0,
      txLevel := false, txArr := 0#16, txEn := true,
      engine := m.engine, bufs := m.bufs, restDuration := m.restDuration, restLevel := m.restLevel,
      restStatus := m.restStatus, producer := m.producer, draws := m.draws, callouts := m.callouts } := by
  have sp := fill_filled' (s := armTx f d s) rfl h
  refine ⟨sp, ?_⟩
  have e := sp.state_eq
  generalize m.engine = q at *
  generalize m.bufs = bs at *
  generalize m.restDuration = r1 at *
  generalize m.restLevel = r2 at *
  generalize m.restStatus = r3 at *
  generalize m.producer = r4 at *
  generalize m.draws = r5 at *
  generalize m.callouts = r6 at *
  rw [e]
  rfl

/-! ## Playback -/

/-- The parts of the state no `Play` step changes, unless it halts the block. -/
def outsidePlay (s : State) : State :=
  { s with
    producer := [], draws := 0, engine := .idle, termSem := false, restDuration := 0#64, restLevel := false,
    restStatus := .error, dmaBuf := .b0, dmaPos := 0, txEn := false, txLevel := false, txArr := 0#16, bufs := Buffers.reset,
    txTrace := [], callouts := [] }

theorem outsidePlay_of_fill {b : BufIdx} {s t : State} (h : FillSpec b s t) : outsidePlay t = outsidePlay s := by
  rw [h.state_eq]; rfl

theorem outsidePlay_fillFlush {b : BufIdx} {s t : State} (h : fillFlush b s = some t) : t = { s with bufs := t.bufs } := by
  unfold fillFlush at h
  split at h
  · simp at h
  · rename_i t1 h1
    split at h
    · simp at h
    · rename_i t2 h2
      obtain ⟨u1, -, -, rfl⟩ := bufWrite_eq_some.1 h1
      obtain ⟨u2, -, -, rfl⟩ := bufWrite_eq_some.1 h2
      simp only [Option.some.injEq] at h
      subst h
      unfold State.closeBuf
      split <;> simp [State.setBuf]

/-- The three branches of R90. -/
theorem handOver_cases {u : Buffer} {s w : State} (h : handOver u s = some w) :
    (s.engine = .asyncTxStopInProgress ∧ w = finishTx s) ∨
    (s.engine ≠ .asyncTxStopInProgress ∧ (u.lastPacketEnd = true ∨ s.engine = .asyncTxStopRequested) ∧
      ∃ t, fillFlush (otherBuf s.dmaBuf) s = some t ∧
        w = { s with
          dmaBuf := otherBuf s.dmaBuf, dmaPos := 0, engine := .asyncTxStopInProgress, bufs := t.bufs }) ∨
    (s.engine ≠ .asyncTxStopInProgress ∧ u.lastPacketEnd = false ∧ s.engine ≠ .asyncTxStopRequested ∧
      w = switchBuf s) := by
  unfold handOver at h
  by_cases h1 : s.engine = .asyncTxStopInProgress
  · rw [if_pos h1] at h
    exact .inl ⟨h1, by simpa using h.symm⟩
  rw [if_neg h1] at h
  by_cases h2 : u.lastPacketEnd = true ∨ s.engine = .asyncTxStopRequested
  · rw [if_pos h2] at h
    split at h
    · rename_i t ht
      simp only [Option.some.injEq] at h
      refine .inr (.inl ⟨h1, h2, t, ht, ?_⟩)
      have e := outsidePlay_fillFlush ht
      generalize t.bufs = bs at *
      rw [← h, e]
      rfl
    · simp at h
  · rw [if_neg h2] at h
    rw [not_or] at h2
    exact .inr (.inr ⟨h1, by simpa using h2.1, h2.2, by simpa using h.symm⟩)

/-- What is outside a hand-over stays, and it sends nothing. -/
theorem handOver_frame {u : Buffer} {s w : State} (h : handOver u s = some w) :
    outsidePlay w = outsidePlay s ∧ w.callouts = s.callouts ∧ w.txTrace = s.txTrace ∧ w.producer = s.producer ∧
      w.draws = s.draws ∧ w.cbSent = s.cbSent := by
  rcases handOver_cases h with ⟨-, rfl⟩ | ⟨-, -, t, -, rfl⟩ | ⟨-, -, -, rfl⟩ <;> exact ⟨rfl, rfl, rfl, rfl, rfl, rfl⟩

/-- What every `Play` step that answers a next state leaves alone, and what it adds to the histories (R88 to R90): one pair,
data requests in `AsyncTx` only, and at most one signal-sent record after them. -/
theorem play_frame {s t : State} (h : play s = .next t) :
    ∃ u e l, s.buf s.dmaBuf = some u ∧ s.dmaPos < u.count ∧ s.bufRead s.dmaBuf s.dmaPos = some e ∧
      t.txTrace = s.txTrace ++ [e] ∧ (∀ c ∈ l, ∃ a, c = .dataReq s.cbData.ctx a) ∧
      (s.engine ≠ .asyncTx → l = [] ∧ t.producer = s.producer ∧ t.draws = s.draws) ∧
      ((s.engine = .asyncTx ∧ (∃ a, (s.callouts ++ l).getLast? = some (.dataReq s.cbData.ctx a) ∧ a.status = .error) ∧
          t = { s with
            halted := true, faultCause := 0x05#8, faultOp := 0x84#8, callouts := s.callouts ++ l, txTrace := t.txTrace,
            producer := t.producer, draws := t.draws }) ∨
       (outsidePlay t = outsidePlay s ∧
        t.callouts = s.callouts ++ l ++
          (if s.dmaPos + 1 = u.count ∧ u.packetEnd = true ∧ t.engine ≠ .asyncTxStopped ∧ s.cbSent.valid = true
            then [.signalSent s.cbSent.ctx] else []))) := by
  obtain ⟨-, u, e, hu, hlt, he, hx⟩ := play_next h
  have hv : s.bufValid = true := buf_eq_some_bufValid hu
  rcases hx with ⟨-, hq, r, hr, rfl⟩ | ⟨m, hm, hx⟩
  · have fr := fill_producerError (s := transferEntry e s) hv hr
    obtain ⟨l, hl, hd⟩ := fr.requests
    have hc : (transferEntry e s).callouts = s.callouts := rfl
    rw [hc] at hl
    have htr : r.txTrace = s.txTrace ++ [e] := congrArg State.txTrace fr.outside
    obtain ⟨a, ha, hae⟩ := fill_producerError_last (s := transferEntry e s) hv hr
    refine ⟨u, e, l, hu, hlt, he, htr, hd, fun hn => absurd hq hn, .inl ⟨hq, ⟨a, hl ▸ ha, hae⟩, ?_⟩⟩
    unfold raiseFatal
    rw [hl]
    rfl
  · have key : ∃ l, m.callouts = s.callouts ++ l ∧ (∀ c ∈ l, ∃ a, c = .dataReq s.cbData.ctx a) ∧
        (s.engine ≠ .asyncTx → l = [] ∧ m.producer = s.producer ∧ m.draws = s.draws) ∧ outsidePlay m = outsidePlay s ∧
        m.txTrace = s.txTrace ++ [e] ∧ m.dmaBuf = s.dmaBuf ∧ m.dmaPos = s.dmaPos + 1 ∧ m.buf s.dmaBuf = some u := by
      rcases hm with ⟨-, hq, hf⟩ | ⟨-, rfl⟩
      · have sp := fill_filled' (s := transferEntry e s) hv hf
        obtain ⟨l, hl, hd⟩ := sp.frame.requests
        obtain ⟨d1, d2, d3⟩ := sp.dma
        rw [show otherBuf (otherBuf (transferEntry e s).dmaBuf) = s.dmaBuf from otherBuf_otherBuf _] at d3
        exact ⟨l, hl, hd, fun hn => absurd hq hn, (outsidePlay_of_fill sp).trans rfl, congrArg State.txTrace sp.state_eq, d1, d2,
          d3.trans hu⟩
      · exact ⟨[], by simp [transferEntry], by simp, fun _ => ⟨rfl, rfl, rfl⟩, rfl, rfl, rfl, rfl, hu⟩
    obtain ⟨l, hl, hd, hnl, ho, htr, hdb, hdp, hmu⟩ := key
    rcases hx with ⟨hne, rfl⟩ | ⟨heq, hx⟩
    · refine ⟨u, e, l, hu, hlt, he, htr, hd, hnl, .inr ⟨ho, ?_⟩⟩
      rw [if_neg (by rw [← hdp]; exact fun hc => hne hc.1)]
      simpa using hl
    · obtain ⟨u', w, hu', hw, rfl⟩ := transferComplete_next hx
      rw [hdb, hmu] at hu'
      cases hu'
      obtain ⟨w1, w2, w3, w4, w5, w6⟩ := handOver_frame hw
      have hsent : (outsidePlay m).cbSent = (outsidePlay s).cbSent := by rw [ho]
      change m.cbSent = s.cbSent at hsent
      refine ⟨u, e, l, hu, hlt, he, ?_, hd, ?_, .inr ⟨?_, ?_⟩⟩
      · rw [signalPacket_eq]; exact w3.trans htr
      · rw [signalPacket_eq]; exact fun hn => ⟨(hnl hn).1, w4.trans (hnl hn).2.1, w5.trans (hnl hn).2.2⟩
      · rw [signalPacket_eq]; exact w1.trans ho
      · rw [signalPacket_callouts, w2, hl, w6, hsent]
        congr 1
        rw [show (signalPacket u w).engine = w.engine by rw [signalPacket_eq]]
        by_cases h1 : u.packetEnd = true <;> by_cases h2 : w.engine = .asyncTxStopped <;>
          by_cases h3 : s.cbSent.valid = true <;> simp [h1, h2, h3, ← hdp, heq]

end Sys2Proof.Machine
end

