-- ==== Sys2Proof/Laws/FillSamples.lean ====
section
/-! SUPPORT. What the fill of R84 writes, entry by entry: the split of R85, one iteration of each kind, and the invariant of
the loop that relates the entries to the samples taken. The lemmas keep `tickMax` and `numCycles` folded: unfolding them
inside a comparison of states is expensive. -/

namespace Sys2Proof.Machine

/-! ## The split of R85 -/

/-- No tick, no entry. -/
theorem splitEntries_zero (l : Bool) : splitEntries l 0 = [] := by simp [splitEntries, splitCount, tickMax]

/-- The split, one entry at a time. -/
theorem splitEntries_cons (l : Bool) {r : Nat} (h : r ≠ 0) :
    splitEntries l r = { pol := l, ticks := BitVec.ofNat 16 (min r tickMax) } :: splitEntries l (r - min r tickMax) := by
  unfold splitEntries
  by_cases hr : r ≤ tickMax
  · have h1 : splitCount r = 1 := by unfold splitCount tickMax at *; omega
    have h2 : r - min r tickMax = 0 := by omega
    have h3 : splitCount 0 = 0 := by simp [splitCount, tickMax]
    rw [h1, h2, h3]
    have h4 : splitTicks r 0 = min r tickMax := by unfold splitTicks; rw [Nat.zero_mul, Nat.sub_zero, Nat.min_comm]
    have h5 : List.range 1 = [0] := rfl
    rw [h5, List.map_cons, h4]
    rfl
  · have h1 : splitCount r = splitCount (r - tickMax) + 1 := by unfold splitCount tickMax at *; omega
    have h2 : min r tickMax = tickMax := by omega
    rw [h1, h2, List.range_succ_eq_map, List.map_cons, List.map_map]
    have h3 : splitTicks r 0 = tickMax := by unfold splitTicks; omega
    have h4 : ∀ i, splitTicks r (Nat.succ i) = splitTicks (r - tickMax) i := by
      intro i; unfold splitTicks; rw [Nat.succ_mul]; omega
    rw [h3]
    refine congrArg _ (List.map_congr_left fun i _ => ?_)
    rw [Function.comp_apply, h4]

/-- Only no tick is no entry. -/
theorem splitEntries_eq_nil {l r} (h : splitEntries l r = []) : r = 0 := by
  by_contra hr; rw [splitEntries_cons l hr] at h; simp at h

/-- The tick values of a split add up. -/
theorem splitEntries_sum (l : Bool) : ∀ r, ((splitEntries l r).map fun e => e.ticks.toNat).sum = r := by
  intro r
  induction r using Nat.strongRecOn with
  | ind r ih =>
    by_cases h : r = 0
    · subst h; rw [splitEntries_zero]; rfl
    · rw [splitEntries_cons l h, List.map_cons, List.sum_cons, ih _ (by unfold tickMax; omega)]
      have : (BitVec.ofNat 16 (min r tickMax)).toNat = min r tickMax := by
        rw [BitVec.toNat_ofNat, Nat.mod_eq_of_lt]; unfold tickMax; omega
      rw [this]; omega

/-- A sample that one entry holds. -/
theorem cycleEntries_small (lv : Bool) {c : Nat} (h0 : c ≠ 0) (h1 : c - 1 ≤ tickMax) : cycleEntries lv c = [{ pol := lv, ticks := BitVec.ofNat 16 (c - 1) }] := by
  unfold cycleEntries
  rw [if_neg h0]
  by_cases h : c = 1
  · rw [if_pos h, h]
  · rw [if_neg h, splitEntries_cons _ (by omega), Nat.min_eq_left h1, Nat.sub_self, splitEntries_zero]

/-- A sample that is split. -/
theorem cycleEntries_big (lv : Bool) {c : Nat} (h1 : tickMax < c - 1) : cycleEntries lv c = { pol := lv, ticks := BitVec.ofNat 16 tickMax } :: splitEntries lv (c - 1 - tickMax) := by
  unfold cycleEntries
  rw [if_neg (by omega), if_neg (by omega), splitEntries_cons _ (by omega), Nat.min_eq_right (by omega)]

/-- The entries of the sample a data request delivers. -/
theorem sampleEntries_next {s : State} {f : Count} (h : s.freq = f) : sampleEntries f s.dataReq.1 = cycleEntries s.dataReq.1.level (nextCycles s) := by
  subst h; rfl

/-! ## Reading a buffer back -/

/-- Entries read back after one more is written. -/
theorem getElem_push {es : List Entry} {u : Buffer} {n : Nat} {e : Entry} (hl : es.length = n) (hr : ∀ i, i < n → Memory.read u.cells i = es[i]?) :
    ∀ i, i < n + 1 → Memory.read (Memory.write u.cells n e) i = (es ++ [e])[i]? := by
  intro i hi
  by_cases h : i = n
  · subst h; rw [Memory.read_write_same]; simp [hl]
  · rw [Memory.read_write_other _ _ h, hr i (by omega), List.getElem?_append_left (by omega)]

/-- The entries of a buffer, from its reads. -/
theorem entries_eq {u : Buffer} {n : Nat} {es : List Entry} (hc : u.count = n) (hl : es.length = n) (hr : ∀ i, i < n → Memory.read u.cells i = es[i]?) : u.entries = es := by
  unfold Buffer.entries
  rw [hc]
  subst hl
  clear hc
  induction es using List.reverseRecOn with
  | nil => rfl
  | append_singleton es e ih =>
    rw [List.length_append, List.length_singleton, List.range_succ, List.filterMap_append, ih]
    · simp [hr es.length (by simp)]
    · intro i hi; rw [hr i (by simp; omega), List.getElem?_append_left hi]

/-- The entries below an index that are all written. -/
theorem filterMap_read (m : Memory) : ∀ n, (∀ i, i < n → (Memory.read m i).isSome = true) →
    ((List.range n).filterMap fun i => Memory.read m i).length = n ∧ ∀ i, i < n → ((List.range n).filterMap fun i => Memory.read m i)[i]? = Memory.read m i := by
  intro n
  induction n with
  | zero => intro _; exact ⟨rfl, by omega⟩
  | succ n ih =>
    intro h
    obtain ⟨h1, h2⟩ := ih fun i hi => h i (by omega)
    obtain ⟨e, he⟩ := Option.isSome_iff_exists.1 (h n (by omega))
    have e1 : List.filterMap (fun i => Memory.read m i) [n] = [e] := by simp [he]
    rw [List.range_succ, List.filterMap_append, e1]
    refine ⟨by simp [h1], fun i hi => ?_⟩
    by_cases hq : i < n
    · rw [List.getElem?_append_left (by omega), h2 i hq]
    · have : i = n := by omega
      subst this
      rw [List.getElem?_append_right (by omega), h1, he]; simp

/-- The entries left to play, one at a time. -/
theorem drop_entries {u : Buffer} {cap : Nat} (hp : u.Playable cap) {i : Nat} {e : Entry} (hi : i < u.count) (he : Memory.read u.cells i = some e) :
    u.entries.drop i = e :: u.entries.drop (i + 1) := by
  obtain ⟨h1, h2⟩ := filterMap_read u.cells u.count hp.written
  have h1 : u.entries.length = u.count := h1
  have h2 : u.entries[i]? = some e := (h2 i hi).trans he
  rw [List.drop_eq_getElem_cons (by omega)]
  rw [List.getElem?_eq_getElem (by omega)] at h2
  simp at h2; rw [h2]

/-- Nothing is left at the end. -/
theorem drop_all {u : Buffer} {cap : Nat} (hp : u.Playable cap) : u.entries.drop u.count = [] := by
  obtain ⟨h1, -⟩ := filterMap_read u.cells u.count hp.written
  have h1 : u.entries.length = u.count := h1
  exact List.drop_eq_nil_of_le (by omega)

/-- The flush buffer read back (R87). -/
theorem flush_entries {u : Buffer} (h : u.IsFlush) : u.entries = [flushEntry, flushEntry] := by
  obtain ⟨h1, h2, h3⟩ := h
  simp [Buffer.entries, h1, List.range_succ, h2, h3]

/-! ## One iteration -/

/-- A buffer write: the buffer it leaves. -/
theorem bufWrite_push {s t : State} {b n e u} (h : s.bufWrite b n e = some t) (hu : s.buf b = some u) :
    t.buf b = some { u with cells := Memory.write u.cells n e } ∧ t.callouts = s.callouts ∧ t.producer = s.producer ∧ t.draws = s.draws ∧ t.restDuration = s.restDuration := by
  obtain ⟨v, hv, -, rfl⟩ := bufWrite_eq_some.1 h
  rw [hu] at hv; cases hv
  exact ⟨buf_setBuf_same hu _, rfl, rfl, rfl, rfl⟩

/-- A buffer write: what it leaves alone. -/
theorem bufWrite_same {s t : State} {b n e} (h : s.bufWrite b n e = some t) :
    t.params = s.params ∧ t.freq = s.freq ∧ t.producer = s.producer ∧ t.draws = s.draws ∧ t.restDuration = s.restDuration ∧ t.restStatus = s.restStatus ∧ t.restLevel = s.restLevel ∧ t.callouts = s.callouts := by
  obtain ⟨v, hv, -, rfl⟩ := bufWrite_eq_some.1 h
  exact ⟨rfl, rfl, rfl, rfl, rfl, rfl, rfl, rfl⟩

/-- One iteration of the loop. -/
theorem fillLoop_go {b fuel n s n' st' s'} (hn : n < s.params.txBufCap) (h : fillIter b n s = .go n' st' s') :
    fillLoop b (fuel + 1) n .ok s = fillLoop b fuel n' st' s' := by
  conv_lhs => unfold fillLoop
  rw [if_pos ⟨hn, rfl⟩]
  dsimp only
  rw [h]

/-- The loop ends. -/
theorem fillLoop_end {b fuel n st s} (h : ¬ (n < s.params.txBufCap ∧ st = .ok)) : fillLoop b fuel n st s = closeFill b n st s := by
  unfold fillLoop; rw [if_neg h]

/-- An iteration that drains the remainder (R84 step 1). -/
theorem fillIter_drain {b n} {s : State} {u : Buffer} (hu : s.buf b = some u) (hn : n < s.params.txBufCap) (hr : s.restDuration.toNat ≠ 0) :
    ∃ s' st, fillIter b n s = .go (n + 1) st s' ∧
      s'.buf b = some { u with cells := Memory.write u.cells n { pol := s.restLevel, ticks := BitVec.ofNat 16 (min s.restDuration.toNat tickMax) } } ∧
      s'.restDuration.toNat = s.restDuration.toNat - min s.restDuration.toNat tickMax ∧ (s'.restDuration.toNat ≠ 0 → st = .ok) ∧
      s'.params = s.params ∧ s'.restLevel = s.restLevel ∧ s'.producer = s.producer ∧ s'.draws = s.draws ∧ s'.callouts = s.callouts := by
  have h0 : s.restDuration ≠ 0#64 := by intro h; rw [h] at hr; exact hr rfl
  have hw : s.bufWrite b n { pol := s.restLevel, ticks := BitVec.ofNat 16 (min s.restDuration.toNat tickMax) } = some (s.setBuf b { u with cells := Memory.write u.cells n { pol := s.restLevel, ticks := BitVec.ofNat 16 (min s.restDuration.toNat tickMax) } }) := bufWrite_eq_some.2 ⟨u, hu, hn, rfl⟩
  have hlt := s.restDuration.isLt
  have hval : (BitVec.ofNat 64 (s.restDuration.toNat - min s.restDuration.toNat tickMax)).toNat = s.restDuration.toNat - min s.restDuration.toNat tickMax := by
    rw [BitVec.toNat_ofNat, Nat.mod_eq_of_lt]; omega
  unfold fillIter drainRest
  rw [if_neg h0]
  dsimp only
  rw [hw]
  dsimp only
  refine ⟨_, _, rfl, ?_, hval, ?_, rfl, rfl, rfl, rfl, rfl⟩
  · have := buf_setBuf_same hu { u with cells := Memory.write u.cells n { pol := s.restLevel, ticks := BitVec.ofNat 16 (min s.restDuration.toNat tickMax) } }
    unfold State.buf at this ⊢
    exact this
  · intro h
    rw [if_neg]
    intro hc; rw [hc] at h; exact h rfl

/-- An iteration that takes an `Ok` sample one entry holds (R84 step 2). -/
theorem fillIter_pullOk {b n} {s : State} {u : Buffer} {a : AnswerWord} {rest} (hu : s.buf b = some u) (hn : n < s.params.txBufCap) (hr : s.restDuration = 0#64) (hp : s.producer = a :: rest)
    (hs : (answerOf a).status = .ok) (h1 : 1 ≤ numCycles (answerOf a).duration.toNat s.freq.toNat) (h2 : numCycles (answerOf a).duration.toNat s.freq.toNat ≤ 65536) :
    ∃ s' u', fillIter b n s = .go (n + 1) .ok s' ∧ s'.buf b = some u' ∧ s'.params = s.params ∧ s'.freq = s.freq ∧ s'.restDuration = 0#64 ∧ s'.producer = rest ∧ s'.draws = s.draws ∧ s'.cbData = s.cbData ∧ s'.callouts = s.callouts ++ [.dataReq s.cbData.ctx (answerOf a)] := by
  have hna := nextAnswer_cons hp
  have d1 : s.dataReq.1 = answerOf a := by simp [State.dataReq, hna]
  have d2 : s.dataReq.2 = { s with producer := rest, callouts := s.callouts ++ [.dataReq s.cbData.ctx (answerOf a)] } := by simp [State.dataReq, hna, State.callout]
  unfold fillIter pullSample
  rw [if_pos hr, d1, hs]
  dsimp only
  generalize numCycles (answerOf a).duration.toNat s.freq.toNat = c at *
  unfold placeSample
  have ht : tickMax = 65535 := rfl
  rw [if_neg (by omega), if_neg (by omega)]
  generalize ({ pol := (answerOf a).level, ticks := BitVec.ofNat 16 (c - 1) } : Entry) = e
  have hw : s.dataReq.2.bufWrite b n e = some (s.dataReq.2.setBuf b { u with cells := Memory.write u.cells n e }) := bufWrite_eq_some.2 ⟨u, by rw [d2]; exact hu, by rw [d2]; exact hn, rfl⟩
  rw [hw]
  dsimp only
  refine ⟨_, { u with cells := Memory.write u.cells n e }, by rw [hs], buf_setBuf_same (by rw [d2]; exact hu) _, ?_, ?_, ?_, ?_, ?_, ?_, ?_⟩ <;> rw [d2]
  · rfl
  · rfl
  · exact hr
  · rfl
  · rfl
  · rfl
  · rfl

/-- The end of the fill. -/
theorem close_shape {b n st} {s t : State} {u : Buffer} (hu : s.buf b = some u) (h : closeFill b n st s = .filled t) :
    ∃ m cells, t.buf b = some { cells := cells, count := m, packetEnd := packetEndOf st, lastPacketEnd := lastPacketEndOf st } ∧
      ((n = 0 ∧ m = 1 ∧ cells = Memory.write u.cells 0 degenerateEntry) ∨ (n ≠ 0 ∧ m = n ∧ cells = u.cells)) ∧
      t = { s with engine := if st = .lastDone ∧ s.engine = .asyncTx then .asyncTxLast else s.engine, bufs := t.bufs } := by
  unfold closeFill at h
  dsimp only at h
  split at h
  · rename_i h0
    split at h
    · simp at h
    · rename_i t' ht'
      obtain ⟨v, hv, -, rfl⟩ := bufWrite_eq_some.1 ht'
      rw [hu] at hv; cases hv
      have hb := buf_setBuf_same hu { u with cells := Memory.write u.cells 0 degenerateEntry }
      rw [closeBuf_eq hb] at h
      simp only [FillResult.filled.injEq] at h
      subst h
      refine ⟨1, _, ?_, .inl ⟨h0, rfl, rfl⟩, ?_⟩
      · have := buf_setBuf_same hb { u with cells := Memory.write u.cells 0 degenerateEntry, count := 1, packetEnd := packetEndOf st, lastPacketEnd := lastPacketEndOf st }
        split <;> exact this
      · split
        · rename_i hq; have : st = .lastDone ∧ s.engine = .asyncTx := hq; rw [if_pos this]; rfl
        · rename_i hq; have : ¬(st = .lastDone ∧ s.engine = .asyncTx) := hq; rw [if_neg this]; rfl
  · rename_i h0
    rw [closeBuf_eq hu] at h
    simp only [FillResult.filled.injEq] at h
    subst h
    refine ⟨n, _, ?_, .inr ⟨h0, rfl, rfl⟩, ?_⟩
    · have := buf_setBuf_same hu { u with count := n, packetEnd := packetEndOf st, lastPacketEnd := lastPacketEndOf st }
      split <;> exact this
    · split
      · rename_i hq; have : st = .lastDone ∧ s.engine = .asyncTx := hq; rw [if_pos this]; rfl
      · rename_i hq; have : ¬(st = .lastDone ∧ s.engine = .asyncTx) := hq; rw [if_neg this]; rfl

/-! ## The loop -/

@[simp] theorem lastStatus_nil (s : State) : s.lastStatus [] = s.restStatus := rfl

@[simp] theorem lastStatus_concat (s : State) (as : List Answer) (a : Answer) : s.lastStatus (as ++ [a]) = a.status := by
  simp [State.lastStatus]

/-- What holds of every place in a list holds of every place in a longer one, if it holds at the new end. -/
theorem forall_split_concat {α : Type} {P : List α → α → List α → Prop} {as : List α} {x : α}
    (h : ∀ pre a post, as = pre ++ a :: post → P pre a (post ++ [x])) (hx : P as x []) :
    ∀ pre a post, as ++ [x] = pre ++ a :: post → P pre a post := by
  intro pre a post he
  rcases List.eq_nil_or_concat post with rfl | ⟨p, y, rfl⟩
  · obtain ⟨rfl, hy⟩ := List.append_inj' he rfl
    cases hy; exact hx
  · rw [List.concat_eq_append] at he ⊢
    rw [show pre ++ a :: (p ++ [y]) = (pre ++ a :: p) ++ [y] by simp] at he
    obtain ⟨h1, hy⟩ := List.append_inj' he rfl
    cases hy; exact h pre a p h1

/-- Data requests are read piece by piece. -/
theorem requestedAnswers_append (l m) : requestedAnswers (l ++ m) = requestedAnswers l ++ requestedAnswers m := List.filterMap_append

/-- One data request, one answer. -/
theorem requestedAnswers_one (c a) : requestedAnswers [.dataReq c a] = [a] := rfl

/-- The invariant of the loop of R84 that relates the entries written to the samples taken. -/
structure FillSamples (b : BufIdx) (s : State) (n : Nat) (st : Status) (s' : State) : Prop where
  frame : FillFrame b s s'
  le : n ≤ s.params.txBufCap
  ex : ∃ u l es, s'.buf b = some u ∧ s'.callouts = s.callouts ++ l ∧ (∀ c ∈ l, ∃ a, c = .dataReq s.cbData.ctx a) ∧
    es.length = n ∧ (∀ i, i < n → Memory.read u.cells i = es[i]?) ∧
    es ++ s'.restEntries = s.entriesDue (requestedAnswers l) ∧
    (s'.restDuration ≠ 0#64 → st = .ok ∧ s'.restStatus = s.lastStatus (requestedAnswers l)) ∧
    (s'.restDuration = 0#64 → (st = .ok ∧ n = 0) ∨ st = s.lastStatus (requestedAnswers l)) ∧
    (s'.restDuration = 0#64 → st = .ok → ∀ pre a post, requestedAnswers l = pre ++ a :: post → s.goesOnAfter pre a) ∧
    (∀ pre a post, requestedAnswers l = pre ++ a :: post →
      (s.entriesDue pre).length < s.params.txBufCap ∧ (post ≠ [] → s.goesOnAfter pre a)) ∧
    (∀ a ∈ requestedAnswers l, a.status ≠ .error) ∧
    (n = 0 → st ≠ .done) ∧
    l.length + s'.producer.length = s.producer.length + (s'.draws - s.draws) ∧ s.draws ≤ s'.draws

/-- It holds at the start. -/
theorem fillSamples_init {b s} (hv : s.bufValid = true) : FillSamples b s 0 .ok s := by
  obtain ⟨u, hu⟩ := exists_buf hv b
  exact ⟨.refl b s, Nat.zero_le _, u, [], [], hu, by simp, by simp, rfl, by simp, by simp [requestedAnswers, State.entriesDue], by simp [requestedAnswers], by simp, by simp [requestedAnswers], by simp [requestedAnswers], by simp [requestedAnswers], by simp, by simp, le_rfl⟩

/-- A sample has fewer than 2^45 cycles (R81). -/
theorem nextCycles_lt (s : State) : numCycles s.dataReq.1.duration.toNat s.freq.toNat < 2 ^ 45 := numCycles_lt s.dataReq.1.duration.isLt s.freq.isLt

/-- Every iteration keeps it. -/
theorem fillSamples_keep (b s) (n : Nat) (s' : State) (n'' : Nat) (st : Status) (s'' : State)
    (hP : FillSamples b s n .ok s') (hn : n < s'.params.txBufCap) (h : fillIter b n s' = .go n'' st s'') : FillSamples b s n'' st s'' := by
  obtain ⟨hf, hle, u, l, es, hu, hcl, hd, hlen, hrd, hes, h1, h2, h3, h4, h5, h6, h7, h8⟩ := hP
  rw [hf.params] at hn
  rcases fillIter_go h with ⟨hr0, h⟩ | ⟨hr0, h⟩
  · obtain ⟨hst, h⟩ := pullSample_go h
    have hb : s'.dataReq.2.bufs = s'.bufs := by simp
    have hu' : s'.dataReq.2.buf b = some u := (buf_congr hb b).trans hu
    have hfd := hf.trans (dataReq_frame b s')
    have hcd : s'.dataReq.2.callouts = s.callouts ++ (l ++ [.dataReq s.cbData.ctx s'.dataReq.1]) := by
      simp [hcl, hf.cbData]
    have hdd : ∀ c ∈ l ++ [.dataReq s.cbData.ctx s'.dataReq.1], ∃ a, c = .dataReq s.cbData.ctx a := by
      intro c hc; rcases List.mem_append.1 hc with hc | hc
      · exact hd c hc
      · simp at hc; exact ⟨_, hc⟩
    have hra : requestedAnswers (l ++ [.dataReq s.cbData.ctx s'.dataReq.1]) = requestedAnswers l ++ [s'.dataReq.1] := by rw [requestedAnswers_append, requestedAnswers_one]
    have hfreq : s'.freq = s.freq := hf.freq
    have hc45 := nextCycles_lt s'
    have hnc : nextCycles s' = numCycles s'.dataReq.1.duration.toNat s'.freq.toNat := rfl
    have hsn : s'.restEntries = [] := by simp [State.restEntries, hr0, splitEntries_zero]
    have hes' : es = s.entriesDue (requestedAnswers l) := by rw [← hes, hsn]; simp
    have hprog : l.length + 1 + s'.dataReq.2.producer.length = s.producer.length + (s'.dataReq.2.draws - s.draws) ∧ s.draws ≤ s'.dataReq.2.draws := by
      have e1 : s'.dataReq.2.producer = s'.nextAnswer.2.producer := rfl
      have e2 : s'.dataReq.2.draws = s'.nextAnswer.2.draws := rfl
      rw [e1, e2]
      rcases nextAnswer_progress s' with ⟨a, ha, -, hdr⟩ | ⟨ha, hb, hdr⟩
      · rw [ha] at h7; simp at h7; rw [hdr]; omega
      · rw [ha] at h7; simp at h7; rw [hb, hdr]; simp; omega
    have hall := h3 hr0 rfl
    have mem1 : ∀ a ∈ requestedAnswers l ++ [s'.dataReq.1], a.status ≠ .error := by
      intro a ha; rcases List.mem_append.1 ha with ha | ha
      · exact h5 a ha
      · simp at ha; subst ha; exact hst
    have hstand : s.lastStatus (requestedAnswers l ++ [s'.dataReq.1]) = s'.dataReq.1.status := by simp
    have hask : ∀ pre a post, requestedAnswers l ++ [s'.dataReq.1] = pre ++ a :: post →
        (s.entriesDue pre).length < s.params.txBufCap ∧ (post ≠ [] → s.goesOnAfter pre a) :=
      forall_split_concat (fun pre a post he => ⟨(h4 pre a post he).1, fun _ => hall pre a post he⟩)
        ⟨by rw [← hes', hlen]; exact hn, by simp⟩
    have hdue : s.entriesDue (requestedAnswers l ++ [s'.dataReq.1]) = es ++ sampleEntries s.freq s'.dataReq.1 := by
      rw [hes']; simp [State.entriesDue]
    have hrest0 : s'.dataReq.2.restDuration = 0#64 := by simp [hr0]
    rcases placeSample_go h with ⟨hc0, rfl, rfl, hst'⟩ | ⟨hc1, rfl, rfl, t, ht, rfl⟩ | ⟨hc0, hc1, rfl, rfl, hw⟩
    · refine ⟨hfd, hle, u, _, es, hu', hcd, hdd, hlen, hrd, ?_, ?_, ?_, ?_, ?_, ?_, ?_, ?_⟩
      · rw [hra]
        have : sampleEntries s.freq s'.dataReq.1 = [] := by rw [sampleEntries_next hfreq, hc0]; rfl
        rw [hdue, this]; simp [State.restEntries, hr0, splitEntries_zero]
      · simp [hr0]
      · intro _; rw [hra, hstand, hst']; split
        · rename_i hq; exact .inl ⟨rfl, hq.1⟩
        · exact .inr rfl
      · intro _ hok
        rw [hra]
        refine forall_split_concat hall ?_
        rw [hst'] at hok
        split at hok
        · rename_i hq
          exact .inr ⟨hq.2, by rw [← hfreq]; exact hc0, by rw [← hes']; exact List.length_eq_zero_iff.1 (hlen.trans hq.1)⟩
        · exact .inl hok
      · rw [hra]; exact hask
      · rw [hra]; exact mem1
      · intro hn0 hd0
        rw [hst'] at hd0
        split at hd0
        · simp at hd0
        · rename_i hq; exact hq ⟨hn0, hd0⟩
      · simp only [List.length_append, List.length_singleton]; exact hprog
    · have hbig := cycleEntries_big s'.dataReq.1.level hc1
      have hval : (BitVec.ofNat 64 (nextCycles s' - 1 - tickMax)).toNat = nextCycles s' - 1 - tickMax := by
        rw [BitVec.toNat_ofNat, Nat.mod_eq_of_lt]; rw [hnc]; omega
      have hpos : nextCycles s' - 1 - tickMax ≠ 0 := by omega
      clear hc45 hnc hc1
      clear h
      suffices key : ∀ (left : BitVec 64) (r : Nat) (e : Entry), left.toNat = r → r ≠ 0 → cycleEntries s'.dataReq.1.level (nextCycles s') = e :: splitEntries s'.dataReq.1.level r → s'.dataReq.2.bufWrite b n e = some t → FillSamples b s (n + 1) .ok { t with restDuration := left, restLevel := s'.dataReq.1.level, restStatus := s'.dataReq.1.status } from key _ _ _ hval hpos hbig ht
      clear hval hpos hbig ht
      intro left r e hval hpos hbig ht
      obtain ⟨b1, b2, b3, b4, -⟩ := bufWrite_push ht hu'
      have hl0 : left ≠ 0#64 := by intro hz; rw [hz] at hval; simp at hval; omega
      refine ⟨(hfd.trans (bufWrite_frame ht)).trans (withRest_frame b _ _ _ _ fun _ _ => hst), by omega, { u with cells := Memory.write u.cells n e }, _, es ++ [e], b1, b2.trans hcd, hdd, by simp [hlen], getElem_push hlen hrd, ?_, ?_, ?_, ?_, ?_, ?_, ?_, ?_⟩
      · rw [hra, hdue, sampleEntries_next hfreq, hbig]
        show _ ++ splitEntries _ left.toNat = _
        rw [hval]
        simp only [List.append_assoc, List.cons_append, List.nil_append]
      · intro _; rw [hra, hstand]; exact ⟨rfl, rfl⟩
      · intro hz; exact absurd hz hl0
      · intro hz; exact absurd hz hl0
      · rw [hra]; exact hask
      · rw [hra]; exact mem1
      · intro hz; omega
      · simp only [List.length_append, List.length_singleton]
        rw [b3, b4]; exact hprog
    · have hsm := cycleEntries_small s'.dataReq.1.level hc0 hc1
      generalize ({ pol := s'.dataReq.1.level, ticks := BitVec.ofNat 16 (nextCycles s' - 1) } : Entry) = e at hw hsm
      clear hc45 hnc hc1
      obtain ⟨b1, b2, b3, b4, b5⟩ := bufWrite_push hw hu'
      have hr0' : s''.restDuration = 0#64 := b5.trans hrest0
      refine ⟨hfd.trans (bufWrite_frame hw), by omega, { u with cells := Memory.write u.cells n e }, _, es ++ [e], b1, b2.trans hcd, hdd, by simp [hlen], getElem_push hlen hrd, ?_, ?_, ?_, ?_, ?_, ?_, ?_, ?_⟩
      · rw [hra, hdue, sampleEntries_next hfreq, hsm]
        unfold State.restEntries
        rw [hr0']
        show _ ++ splitEntries _ 0 = _
        rw [splitEntries_zero]
        simp only [List.append_nil]
      · intro hz; exact absurd hr0' hz
      · intro _; rw [hra, hstand]; exact .inr rfl
      · intro _ hok
        rw [hra]
        exact forall_split_concat hall (.inl hok)
      · rw [hra]; exact hask
      · rw [hra]; exact mem1
      · intro hz; omega
      · simp only [List.length_append, List.length_singleton]
        rw [b3, b4]; exact hprog
  · obtain ⟨rfl, ⟨t, ht, rfl⟩, hst⟩ := drainRest_go h
    obtain ⟨v, hv, -, rfl⟩ := bufWrite_eq_some.1 ht
    rw [hu] at hv; cases hv
    have hne : s'.restDuration.toNat ≠ 0 := fun hz => hr0 (BitVec.eq_of_toNat_eq (by simpa using hz))
    have hlt := s'.restDuration.isLt
    have hval : (BitVec.ofNat 64 (s'.restDuration.toNat - min s'.restDuration.toNat tickMax)).toNat = s'.restDuration.toNat - min s'.restDuration.toNat tickMax := by
      rw [BitVec.toNat_ofNat, Nat.mod_eq_of_lt]; omega
    obtain ⟨-, hrs⟩ := h1 hr0
    have hfr : FillFrame b s' _ := (fillIter_frame (n := n) ⟨u, hu, fun i hi => by rw [hrd i hi]; simp [hlen, hi]⟩ (by unfold fillIter; rw [if_neg hr0]; exact h)).1
    refine ⟨hf.trans hfr, by omega, { u with cells := Memory.write u.cells n { pol := s'.restLevel, ticks := BitVec.ofNat 16 (min s'.restDuration.toNat tickMax) } }, l, es ++ [{ pol := s'.restLevel, ticks := BitVec.ofNat 16 (min s'.restDuration.toNat tickMax) }], ?_, by simpa using hcl, hd, by simp [hlen], ?_, ?_, ?_, ?_, ?_, h4, h5, ?_, ?_⟩
    · exact buf_setBuf_same hu _
    · exact getElem_push hlen hrd
    · rw [← hes]
      simp only [State.restEntries, hval]
      rw [splitEntries_cons s'.restLevel hne]
      simp
    · intro hz
      refine ⟨?_, by simpa using hrs⟩
      rw [hst, if_neg hz]
    · intro hz
      right
      rw [hst, if_pos hz, hrs]
    · intro hz hok
      rw [hst, if_pos hz, hrs] at hok
      intro pre a post he
      rcases List.eq_nil_or_concat post with rfl | ⟨p, y, rfl⟩
      · rw [he] at hok
        exact .inl (by simpa using hok)
      · exact (h4 pre a _ he).2 (by simp)
    · intro hz; omega
    · exact ⟨by simpa using h7, by simpa using h8⟩

/-- Where a fill that returns came from. -/
theorem fill_final {b : BufIdx} {s t : State} (hv : s.bufValid = true) (h : fill b s = .filled t) :
    ∃ n st s', FillSamples b s n st s' ∧ ¬ (n < s.params.txBufCap ∧ st = .ok) ∧ closeFill b n st s' = .filled t := by
  rcases fillLoop_cases (P := FillSamples b s) (fillSamples_keep b s) (fillFuel s) 0 .ok s (fillSamples_init hv) with
    ⟨t', ht', n', st', s', hP, hx, hcl⟩ | ⟨r, hr, -⟩ | ⟨f, hf, -⟩
  · have : t' = t := by simpa [fill, ht'] using h
    subst this
    rw [hP.frame.params] at hx
    exact ⟨n', st', s', hP, hx, hcl⟩
  · simp [fill, hr] at h
  · simp [fill, hf] at h

end Sys2Proof.Machine
end

