-- ==== Sys2Proof/Laws/Invariant.lean ====
section
/-! SUPPORT. Each agent's step keeps the invariant of Safety.lean. -/

namespace Sys2Proof.Machine

/-- The state without the fields the invariant does not look at. -/
def inert (s : State) : State :=
  { s with inputs := [], producer := [], draws := 0, resp := 0#32, cbCap := CbSlot.empty, cbTmo := CbSlot.empty, cbData := CbSlot.empty, cbSent := CbSlot.empty, rxCnt := 0#32, rxCcr1 := 0#32, rxCcr2 := 0#32, rxCcr3 := 0#32, prevCh2 := 0#32, rxPin := true, freq := 0#32, duty := 0#24, restLevel := false, txArr := 0#16, callouts := [] }

/-- The buffers' part does not look at the inert fields. -/
theorem streaming_inert (s : State) : Streaming s ↔ Streaming (inert s) :=
  ⟨fun h => ⟨h.playing, h.steady, h.last, h.flushing⟩, fun h => ⟨h.playing, h.steady, h.last, h.flushing⟩⟩

/-- The invariant does not look at the inert fields. -/
theorem inv_inert (s : State) : s.Inv ↔ (inert s).Inv :=
  ⟨fun h => ⟨h.params, h.faultRegs, h.termSem, h.semValid, h.bufValid, h.txEn, h.txLevel, h.rxEn, h.armed, h.held, h.restStatus, fun a => (streaming_inert s).1 (h.streaming a), h.stopped⟩,
   fun h => ⟨h.params, h.faultRegs, h.termSem, h.semValid, h.bufValid, h.txEn, h.txLevel, h.rxEn, h.armed, h.held, h.restStatus, fun a => (streaming_inert s).2 (h.streaming a), h.stopped⟩⟩

/-- States that agree outside the inert fields have the invariant together. -/
theorem inv_of_inert {s t : State} (h : inert t = inert s) (hs : s.Inv) : t.Inv := by
  rw [inv_inert] at hs ⊢; rw [h]; exact hs

/-- The reset step keeps the invariant. -/
theorem inv_resetBlock {s : State} (h : s.Inv) : (resetBlock s).Inv := by
  constructor <;> simp [State.reset, txOrLater, txActive, State.bufValid, h.params]

/-- A fatal assertion keeps the invariant (R95). -/
theorem inv_fatal {s r : State} (h : s.Inv) (c op) (ht : r.txTrace = s.txTrace ∨ s.engine = .asyncTx) : (raiseFatal s r c op).Inv := by
  refine ⟨h.params, by simp, h.termSem, h.semValid, h.bufValid, h.txEn, h.txLevel, h.rxEn, h.armed, h.held, h.restStatus, fun ha => ?_, ?_⟩
  · have := h.streaming ha
    refine ⟨this.playing, this.steady, this.last, ?_⟩
    intro he
    rcases ht with ht | ht
    · have := this.flushing he; simpa [raiseFatal, State.buf, ht] using this
    · simp [raiseFatal, ht] at he
  · intro he
    rcases ht with ht | ht
    · have := h.stopped he; simpa [raiseFatal, ht] using this
    · simp [raiseFatal, ht] at he

/-- `TX_START` keeps the invariant (R75). -/
theorem inv_txStart {s t : State} {f d} (h : s.Inv) (hx : execTxStart f d s = .next t) : t.Inv := by
  unfold execTxStart at hx
  obtain ⟨hh, hf, ⟨hl, hx⟩ | ⟨-, rfl⟩⟩ := issueCommand_next hx
  swap
  · exact inv_fatal h _ _ (.inl rfl)
  have hidle : s.engine = .idle := by simpa [legalInIdle] using hl
  split at hx
  · simp at hx; subst hx; exact inv_fatal h _ _ (.inl rfl)
  split at hx
  · simp at hx; subst hx; exact inv_fatal h _ _ (.inl rfl)
  split at hx
  · simp at hx; subst hx; exact inv_fatal h _ _ (.inl rfl)
  have hp := h.params
  simp [Params.wf] at hp
  have hv : (armTx f d s).bufValid = true := rfl
  have hcap : 1 ≤ (armTx f d s).params.txBufCap := by show 1 ≤ s.params.txBufCap; omega
  split at hx
  · rename_i m hm
    simp at hx; subst hx
    have sp := fill_filled hv hcap hm
    obtain ⟨u, hu, hpl, he⟩ := sp.buffer
    have eq := sp.state_eq
    have hframe := sp.frame
    have e1 : (armTx f d s).engine = .asyncTx := rfl
    simp only [e1, and_true] at he
    have hrest : restOk { m with engine := (armTx f d s).engine } := hframe.rest (by simp [restOk, armTx])
    have hbv : m.bufValid = true := hframe.valid
    have hother : m.buf .b1 = some Buffer.fresh := hframe.other
    have hpar : m.params = s.params := by have := congrArg State.params eq; exact this
    have F : ∀ {α} (g : State → α), g m = g { armTx f d s with
      engine := m.engine, producer := m.producer, draws := m.draws, restDuration := m.restDuration,
      restLevel := m.restLevel, restStatus := m.restStatus, bufs := m.bufs, callouts := m.callouts } := fun g => congrArg g eq
    have hact : txActive m.engine = true := by rw [he]; split <;> rfl
    have hlat : txOrLater m.engine = true := by rw [he]; split <;> rfl
    refine ⟨?_, ?_, ?_, ?_, ?_, ?_, ?_, ?_, ?_, ?_, ?_, ?_, ?_⟩
    · show m.params.wf = true; rw [hpar]; exact h.params
    · intro _; have a1 := F State.faultCause; have a2 := F State.faultOp; exact ⟨a1.trans (h.faultRegs hh).1, a2.trans (h.faultRegs hh).2⟩
    · have a1 : m.termSem = false := F State.termSem
      simp [launchTx, a1]; rw [he]; split <;> simp
    · have a1 : m.semValid = true := F State.semValid
      simp [launchTx, a1, hlat]
    · show m.bufValid = _; rw [hbv]; exact hlat.symm
    · exact hact.symm
    · intro h; simp [launchTx] at h
    · have a1 : m.rxEn = s.rxEn := F State.rxEn
      have := h.rxEn
      rw [hidle] at this
      have b : s.rxEn = false := by clear eq F hframe he; cases hq : s.rxEn <;> simp_all
      simp [launchTx, a1, b]; rw [he]; split <;> simp
    · have a1 : m.rxTmoArmed = s.rxTmoArmed := F State.rxTmoArmed
      intro hq
      have := h.armed (a1 ▸ hq); simp [hidle] at this
    · intro _; exact hlat
    · exact hrest
    · intro _
      refine ⟨⟨u, hu, by rw [show (launchTx m).params = s.params from hpar]; exact hpl, by have := hpl.nonempty; simp [launchTx]; omega⟩, ?_, ?_, ?_⟩
      · intro hq
        refine ⟨u, Buffer.fresh, hu, hother, ?_, fun hz => ?_⟩
        · have hq : m.engine = .asyncTx := hq
          rw [he] at hq; clear eq F hframe he sp; split at hq <;> simp_all
        · have := hpl.nonempty; simp [launchTx, htPoint] at hz; omega
      · intro hq
        refine ⟨u, Buffer.fresh, hu, hother, .inl ?_⟩
        have hq : m.engine = .asyncTxLast := hq
        rw [he] at hq; clear eq F hframe he sp; split at hq <;> simp_all
      · intro hq
        have hq : m.engine = .asyncTxStopInProgress := hq
        rw [he] at hq; clear eq F hframe he sp; split at hq <;> simp_all
    · intro hq
      have hq : m.engine = .asyncTxStopped := hq
      rw [he] at hq; clear eq F hframe he sp; split at hq <;> simp_all
  · rename_i r hr
    simp at hx; subst hx
    have fr := fill_producerError hv hr
    refine inv_fatal h _ _ (.inl ?_)
    have : (outsideFill r).txTrace = (outsideFill (armTx f d s)).txTrace := by rw [fr.outside]
    exact this
  · simp at hx

/-- Every command keeps the invariant. -/
theorem inv_exec {i : Instr} {s t : State} (h : s.Inv) (hx : exec i s = .next t) : t.Inv := by
  cases i with
  | txStart f d => exact inv_txStart h hx
  | rxStart =>
    unfold exec at hx
    unfold execRxStart at hx
    obtain ⟨hh, hf, ⟨hl, hx⟩ | ⟨-, rfl⟩⟩ := issueCommand_next hx
    swap
    · exact inv_fatal h _ _ (.inl rfl)
    simp at hx; subst hx
    have hidle : s.engine = .idle := by simpa [legalInIdle] using hl
    have h2 := h.termSem; have h3 := h.semValid; have h4 := h.bufValid; have h5 := h.txEn
    simp [hidle, txOrLater, txActive] at h2 h3 h4 h5
    constructor <;> simp [txOrLater, txActive, h2, h3, h5, h.params, hf]
    · exact fun _ => h.faultRegs hh
    · exact h4
    · exact h.txLevel h5
    · exact h.restStatus
  | rxStop =>
    unfold exec at hx
    unfold execRxStop at hx
    obtain ⟨hh, hf, ⟨hl, hx⟩ | ⟨-, rfl⟩⟩ := issueCommand_next hx
    swap
    · exact inv_fatal h _ _ (.inl rfl)
    simp at hx; subst hx
    have hidle : s.engine = .asyncRx := by simpa [legalInRx] using hl
    have h2 := h.termSem; have h3 := h.semValid; have h4 := h.bufValid; have h5 := h.txEn
    simp [hidle, txOrLater, txActive] at h2 h3 h4 h5
    constructor <;> simp [txOrLater, txActive, h2, h3, h5, h.params, hf]
    · exact fun _ => h.faultRegs hh
    · exact h4
    · exact h.txLevel h5
    · exact h.restStatus
  | rxSetTimeout x =>
    unfold exec at hx
    unfold execRxSetTimeout at hx
    obtain ⟨hh, hf, ⟨hl, hx⟩ | ⟨-, rfl⟩⟩ := issueCommand_next hx
    swap
    · exact inv_fatal h _ _ (.inl rfl)
    simp at hx; subst hx
    have hrx : s.engine = .asyncRx := by simpa [legalInRx] using hl
    exact ⟨h.params, h.faultRegs, h.termSem, h.semValid, h.bufValid, h.txEn, h.txLevel, h.rxEn, fun _ => hrx, h.held, h.restStatus, fun ha => by simp [hrx, txActive] at ha, h.stopped⟩
  | rxSetCaptureCb v c | rxSetTimeoutCb v c | txSetDataCb v c | txSetSentCb v c =>
    unfold exec at hx
    unfold execRxSetCaptureCb at hx
    obtain ⟨hh, hf, ⟨hl, hx⟩ | ⟨-, rfl⟩⟩ := issueCommand_next hx
    swap
    · exact inv_fatal h _ _ (.inl rfl)
    simp at hx; subst hx
    exact inv_of_inert (s := s) rfl h
  | txIsComplete =>
    unfold exec at hx
    unfold execTxIsComplete at hx
    obtain ⟨hh, hf, ⟨hl, hx⟩ | ⟨-, rfl⟩⟩ := issueCommand_next hx
    swap
    · exact inv_fatal h _ _ (.inl rfl)
    simp at hx; subst hx
    exact inv_of_inert (s := s) rfl h
  | txWaitTerm =>
    unfold exec at hx
    unfold execTxWaitTerm at hx
    obtain ⟨hh, hf, ⟨hl, hx⟩ | ⟨-, rfl⟩⟩ := issueCommand_next hx
    swap
    · exact inv_fatal h _ _ (.inl rfl)
    simp at hx; subst hx
    exact ⟨h.params, h.faultRegs, h.termSem, h.semValid, h.bufValid, h.txEn, h.txLevel, h.rxEn, h.armed, fun _ => hl, h.restStatus, fun a => by have := h.streaming a; exact ⟨this.playing, this.steady, this.last, this.flushing⟩, h.stopped⟩
  | txStop =>
    unfold exec at hx
    unfold execTxStop at hx
    obtain ⟨hh, hf, ⟨hl, hx⟩ | ⟨-, rfl⟩⟩ := issueCommand_next hx
    swap
    · exact inv_fatal h _ _ (.inl rfl)
    simp at hx; subst hx
    by_cases ha : s.engine = .asyncTx
    · have h2 := h.termSem; have h3 := h.semValid; have h4 := h.bufValid; have h5 := h.txEn; have h6 := h.rxEn; have h7 := h.armed; have h8 := h.streaming (by simp [ha, txActive])
      simp [ha, txOrLater, txActive] at h2 h3 h4 h5 h6 h7
      constructor <;> simp [txOrLater, txActive, h2, h3, h5, h6, h7, h.params, ha, afterStopRequest]
      · exact fun _ => h.faultRegs hh
      · exact h4
      · exact h.restStatus
      · exact ⟨h8.playing, by simp, by simp, by simp⟩
    · have : afterStopRequest s.engine = s.engine := by cases hq : s.engine <;> simp_all [afterStopRequest]
      rw [this]
      exact ⟨h.params, h.faultRegs, h.termSem, h.semValid, h.bufValid, h.txEn, h.txLevel, h.rxEn, h.armed, fun _ => hl, h.restStatus, fun a => by have := h.streaming a; exact ⟨this.playing, this.steady, this.last, this.flushing⟩, h.stopped⟩

end Sys2Proof.Machine
namespace Sys2Proof.Machine

/-- The completion step keeps the invariant (R78). -/
theorem inv_complete {s t : State} (h : s.Inv) (hx : completeHeld s = .next t) : t.Inv := by
  unfold completeHeld at hx
  split at hx
  · simp at hx; subst hx
    rename_i hc
    have hst := h.termSem.1 hc.2
    have h5 := h.txEn; have h6 := h.rxEn; have h7 := h.armed
    simp [hst, txActive] at h5 h6 h7
    constructor <;> simp [txOrLater, txActive, State.bufValid, h5, h6, h7, h.params]
    · exact h.faultRegs
    · exact h.txLevel h5
    · exact h.restStatus
  · simp at hx

/-- The supplied steps are no part of the invariant. -/
theorem inv_withInputs {s : State} (h : s.Inv) (l) : (s.withInputs l).Inv := inv_of_inert (s := s) rfl h

/-- A callout changes inert fields only. -/
theorem notify_inert (s : State) (k r) : inert (s.notify k r) = inert s := by
  unfold State.notify; split <;> rfl

/-- `Tick` keeps the invariant (R63). -/
theorem inv_tick {s : State} (h : s.Inv) : (tick s).Inv := by
  apply inv_of_inert (s := s) _ h
  unfold tick timeoutService
  dsimp only
  repeat' split
  all_goals first | rfl | (rw [notify_inert]; rfl)

/-- `Rise` keeps the invariant (R64). -/
theorem inv_rise {s t : State} (h : s.Inv) (hx : rise s = .next t) : t.Inv := by
  apply inv_of_inert (s := s) _ h
  unfold rise risingService at hx
  dsimp only at hx
  split at hx
  · simp at hx
  split at hx
  · simp at hx; subst hx; rw [notify_inert]; rfl
  · simp at hx; subst hx; rfl

/-- `Fall` keeps the invariant (R65). -/
theorem inv_fall {s t : State} (h : s.Inv) (hx : fall s = .next t) : t.Inv := by
  apply inv_of_inert (s := s) _ h
  unfold fall fallingService at hx
  dsimp only at hx
  split at hx
  · split at hx
    · simp at hx; subst hx; rw [notify_inert]; rfl
    · simp at hx; subst hx; rfl
  · simp at hx

/-- A flush buffer may be handed to the DMA (R25, R87). -/
theorem flush_playable {u : Buffer} {cap} (h : u.IsFlush) (hc : 2 ≤ cap) (hp : u.packetEnd = true): u.Playable cap := by
  obtain ⟨h1, h2, h3⟩ := h
  refine ⟨by omega, by omega, fun i hi => ?_, fun _ => hp⟩
  have : i = 0 ∨ i = 1 := by omega
  rcases this with rfl | rfl <;> simp [h2, h3]

/-- A buffer is read from the pair alone. -/
theorem buf_of_eq {s t : State} (h : t.bufs = s.bufs) (b) : t.buf b = s.buf b := buf_congr h b

/-- `Play` keeps the invariant (R88 to R90). -/
theorem inv_play {s t : State} (h : s.Inv) (hx : play s = .next t) : t.Inv := by
  obtain ⟨hen, u, e, hu, hlt, he, ⟨hht, hq, r, hr, rfl⟩ | ⟨m, hm, hx⟩⟩ := play_next hx
  · exact inv_fatal h _ _ (.inr hq)
  have ha : txActive s.engine = true := by rw [← h.txEn]; exact hen
  have S := h.streaming ha
  have hbv : s.bufValid = true := buf_eq_some_bufValid hu
  have hp := h.params
  simp [Params.wf] at hp
  -- facts of m
  have hT : ∀ b, (transferEntry e s).buf b = s.buf b := fun b => rfl
  rcases hm with ⟨hht, hq, hm⟩ | ⟨hno, rfl⟩
  · -- refilled
    have hq' : s.engine = .asyncTx := hq
    have sp := fill_filled (b := otherBuf s.dmaBuf) (s := transferEntry e s) (t := m) hbv (by show 1 ≤ s.params.txBufCap; omega) hm
    obtain ⟨v, hv, hpl, hme⟩ := sp.buffer
    have eq := sp.state_eq
    have F : ∀ {α} (g : State → α), g m = g { transferEntry e s with
      engine := m.engine, producer := m.producer, draws := m.draws, restDuration := m.restDuration,
      restLevel := m.restLevel, restStatus := m.restStatus, bufs := m.bufs, callouts := m.callouts } := fun g => congrArg g eq
    clear eq
    have hdb : m.dmaBuf = s.dmaBuf := F State.dmaBuf
    have hdp : m.dmaPos = s.dmaPos + 1 := F State.dmaPos
    have hpar : m.params = s.params := F State.params
    have hmu : m.buf s.dmaBuf = some u := by
      have := sp.frame.other; rw [otherBuf_otherBuf] at this
      exact this.trans hu
    have hrest : restOk m := sp.frame.rest h.restStatus
    have hmbv : m.bufValid = true := buf_eq_some_bufValid hmu
    have e1 : (transferEntry e s).engine = .asyncTx := hq
    simp only [e1, and_true] at hme
    obtain ⟨u', v', hu', hv', hlast, -⟩ := S.steady hq'
    rw [hu] at hu'; cases hu'
    have hact : txActive m.engine = true := by rw [hme]; split <;> rfl
    have hlat : txOrLater m.engine = true := by rw [hme]; split <;> rfl
    have b1 : m.txEn = true := (F State.txEn).trans hen
    have b2 : m.termSem = false := by
      have a := F State.termSem
      have : s.termSem = false := by have := h.termSem; rw [hq'] at this; cases hz : s.termSem; rfl; simp [hz] at this
      exact a.trans this
    have b3 : m.rxEn = false := by
      have a := F State.rxEn
      have : s.rxEn = false := by have := h.rxEn; rw [hq'] at this; cases hz : s.rxEn; rfl; simp [hz] at this
      exact a.trans this
    have b4 : m.rxTmoArmed = false := by
      have a := F State.rxTmoArmed
      have : s.rxTmoArmed = false := by have := h.armed; rw [hq'] at this; cases hz : s.rxTmoArmed; rfl; simp [hz] at this
      exact a.trans this
    have b5 : m.semValid = true := by
      have a := F State.semValid
      have : s.semValid = true := by have := h.semValid; rw [hq'] at this; exact this
      exact a.trans this
    have b6 : m.halted = false → m.faultCause = 0#8 ∧ m.faultOp = 0#8 := by
      have a1 : m.halted = s.halted := F State.halted
      have a2 : m.faultCause = s.faultCause := F State.faultCause
      have a3 : m.faultOp = s.faultOp := F State.faultOp
      rw [a1, a2, a3]; exact h.faultRegs
    have b7 : m.engine ≠ .asyncTxStopped ∧ m.engine ≠ .asyncRx ∧ m.engine ≠ .asyncTxStopInProgress ∧ m.engine ≠ .asyncTxStopRequested := by
      rw [hme]; split <;> simp
    -- m after no TC or switch
    rcases hx with ⟨hne, rfl⟩ | ⟨heq, hx⟩
    · refine ⟨by rw [hpar]; exact h.params, b6, by simp [b2, b7], b5.trans hlat.symm, hmbv.trans hlat.symm, b1.trans hact.symm, by simp [b1], by simp [b3, b7], by simp [b4], fun _ => hlat, hrest, fun _ => ⟨⟨u, ?_, ?_, ?_⟩, ?_, ?_, ?_⟩, ?_⟩
      · rw [hdb]; exact hmu
      · rw [hpar]; obtain ⟨x, hx1, hx2, hx3⟩ := S.playing; rw [hu] at hx1; cases hx1; exact hx2
      · rw [hdp] at hne ⊢; omega
      · intro hz
        refine ⟨u, v, hdb ▸ hmu, hdb ▸ hv, hlast, fun _ => ⟨hpar ▸ hpl, ?_⟩⟩
        rw [hme] at hz; cases hl : v.lastPacketEnd; rfl; simp [hl] at hz
      · intro hz
        refine ⟨u, v, hdb ▸ hmu, hdb ▸ hv, .inr ⟨hpar ▸ hpl, ?_⟩⟩
        rw [hme] at hz; cases hl : v.lastPacketEnd
        · rw [hl] at hz; simp at hz
        · rfl
      · intro hz; exact absurd hz b7.2.2.1
      · intro hz; exact absurd hz b7.1
    · obtain ⟨u2, w, hu2, hw, rfl⟩ := transferComplete_next hx
      rw [hdb, hmu] at hu2; cases hu2
      apply inv_of_inert (s := w) (by rw [signalPacket_eq]; rfl)
      unfold handOver at hw
      rw [if_neg b7.2.2.1, if_neg (by simp [hlast, b7.2.2.2])] at hw
      simp at hw; subst hw
      have hsw : (switchBuf m).buf (switchBuf m).dmaBuf = some v := by show m.buf (otherBuf m.dmaBuf) = some v; rw [hdb]; exact hv
      have hsu : (switchBuf m).buf (otherBuf (switchBuf m).dmaBuf) = some u := by show m.buf (otherBuf (otherBuf m.dmaBuf)) = some u; rw [otherBuf_otherBuf, hdb]; exact hmu
      refine ⟨by show m.params.wf = _; rw [hpar]; exact h.params, b6, by simp [switchBuf, b2, b7], b5.trans hlat.symm, hmbv.trans hlat.symm, b1.trans hact.symm, by simp [switchBuf, b1], by simp [switchBuf, b3, b7], by simp [switchBuf, b4], fun _ => hlat, hrest, fun _ => ⟨⟨v, hsw, hpar ▸ hpl, hpl.nonempty⟩, ?_, ?_, fun hz => absurd hz b7.2.2.1⟩, fun hz => absurd hz b7.1⟩
      · intro hz
        have hz : m.engine = .asyncTx := hz
        refine ⟨v, u, hsw, hsu, ?_, fun hz => ?_⟩
        · rw [hme] at hz; cases hl : v.lastPacketEnd
          · rfl
          · rw [hl] at hz; simp at hz
        · have := hpl.nonempty; simp [switchBuf, htPoint] at hz; omega
      · intro hz
        have hz : m.engine = .asyncTxLast := hz
        refine ⟨v, u, hsw, hsu, .inl ?_⟩
        rw [hme] at hz; cases hl : v.lastPacketEnd
        · rw [hl] at hz; simp at hz
        · rfl
  · -- no refill
    obtain ⟨x, hx1, hx2, hx3⟩ := S.playing; rw [hu] at hx1; cases hx1
    rcases hx with ⟨hne, rfl⟩ | ⟨heq, hx⟩
    · have hne : s.dmaPos + 1 ≠ u.count := hne
      refine ⟨h.params, h.faultRegs, h.termSem, h.semValid, h.bufValid, h.txEn, fun hz => by simp [transferEntry, hen] at hz, h.rxEn, h.armed, h.held, h.restStatus, fun _ => ⟨⟨u, hu, hx2, by show s.dmaPos + 1 < _; omega⟩, ?_, ?_, ?_⟩, fun hz => ?_⟩
      · intro hz
        obtain ⟨u', v', hu', hv', hlast, hr⟩ := S.steady hz
        rw [hu] at hu'; cases hu'
        refine ⟨u, v', hu, hv', hlast, fun hge => hr ?_⟩
        have hge : htPoint u.count ≤ s.dmaPos + 1 := hge
        have : s.dmaPos + 1 ≠ htPoint u.count := fun hc => hno ⟨hc, hz⟩
        omega
      · exact S.last
      · intro hz
        obtain ⟨u', hu', hfl, htr⟩ := S.flushing hz
        rw [hu] at hu'; cases hu'
        refine ⟨u, hu, hfl, fun hp => ⟨s.txTrace, ?_⟩⟩
        have hp : s.dmaPos + 1 = 1 := hp
        have : s.dmaPos = 0 := by omega
        have he2 : some e = some flushEntry := by
          rw [← he, this]; simp [State.bufRead, hu, hfl.1, hfl.2.1]
        cases he2; rfl
      · have hz : s.engine = .asyncTxStopped := hz
        rw [hz] at ha; simp [txActive] at ha
    · obtain ⟨u2, w, hu2, hw, rfl⟩ := transferComplete_next hx
      have hu2 : s.buf s.dmaBuf = some u2 := hu2
      rw [hu] at hu2; cases hu2
      have heq : s.dmaPos + 1 = u.count := heq
      apply inv_of_inert (s := w) (by rw [signalPacket_eq]; rfl)
      unfold handOver at hw
      have c3 : s.rxEn = false := by
        have := h.rxEn; cases hz : s.rxEn
        · rfl
        · rw [this.1 hz] at ha; simp [txActive] at ha
      have c4 : s.rxTmoArmed = false := by
        have := h.armed; cases hz : s.rxTmoArmed
        · rfl
        · rw [this hz] at ha; simp [txActive] at ha
      have c2 : s.termSem = false := by
        have := h.termSem; cases hz : s.termSem
        · rfl
        · rw [this.1 hz] at ha; simp [txActive] at ha
      have c5 : s.semValid = true := by rw [h.semValid]; cases hz : s.engine <;> simp_all [txActive, txOrLater]
      split at hw
      · rename_i hst
        have hst : s.engine = .asyncTxStopInProgress := hst
        simp at hw; subst hw
        obtain ⟨u', hu', hfl, htr⟩ := S.flushing hst
        rw [hu] at hu'; cases hu'
        refine ⟨h.params, h.faultRegs, by simp [finishTx], c5, hbv, rfl, fun _ => rfl, by simp [finishTx, transferEntry, State.emit, c3], by simp [finishTx, transferEntry, State.emit, c4], fun _ => rfl, h.restStatus, fun hz => by simp [finishTx, txActive] at hz, fun _ => ?_⟩
        have h1 : s.dmaPos = 1 := by have := hfl.1; omega
        obtain ⟨l, hl⟩ := htr h1
        refine ⟨l, ?_⟩
        have he2 : some e = some flushEntry := by
          rw [← he, h1]; simp [State.bufRead, hu, hfl.1, hfl.2.2]
        cases he2
        show s.txTrace ++ [flushEntry] = _
        rw [hl]; simp
      · split at hw
        · obtain ⟨t2, v, hf, fr, hcall, hv, hfl, hpe, hle⟩ := fillFlush_spec (b := otherBuf s.dmaBuf) (s := transferEntry e s) hbv (by show 2 ≤ s.params.txBufCap; omega)
          rw [show otherBuf (transferEntry e s).dmaBuf = otherBuf s.dmaBuf from rfl, hf] at hw
          simp at hw; subst hw
          have G : ∀ {α} (g : State → α), g t2 = g { transferEntry e s with
            producer := t2.producer, draws := t2.draws, restDuration := t2.restDuration,
            restLevel := t2.restLevel, restStatus := t2.restStatus, bufs := t2.bufs, callouts := t2.callouts } := fun g => congrArg g fr.state_eq
          have g1 : t2.params = s.params := G State.params
          have g2 : t2.halted = s.halted := G State.halted
          have g3 : t2.faultCause = s.faultCause := G State.faultCause
          have g4 : t2.faultOp = s.faultOp := G State.faultOp
          have g5 : t2.termSem = false := (G State.termSem).trans c2
          have g6 : t2.semValid = true := (G State.semValid).trans c5
          have g7 : t2.txEn = true := (G State.txEn).trans hen
          have g8 : t2.rxEn = false := (G State.rxEn).trans c3
          have g9 : t2.rxTmoArmed = false := (G State.rxTmoArmed).trans c4
          have g10 : t2.dmaBuf = s.dmaBuf := G State.dmaBuf
          refine ⟨by show t2.params.wf = true; rw [g1]; exact h.params, by show t2.halted = false → t2.faultCause = 0#8 ∧ t2.faultOp = 0#8; rw [g2, g3, g4]; exact h.faultRegs, by simp [switchBuf, g5], g6, buf_eq_some_bufValid hv, g7, by simp [switchBuf, g7], by simp [switchBuf, g8], by simp [switchBuf, g9], fun _ => rfl, fr.rest h.restStatus, fun _ => ⟨⟨v, by show t2.buf (otherBuf t2.dmaBuf) = _; rw [g10]; exact hv, flush_playable hfl (by show 2 ≤ t2.params.txBufCap; rw [g1]; omega) hpe, by show 0 < v.count; rw [hfl.1]; decide⟩, by simp, by simp, fun _ => ⟨v, by show t2.buf (otherBuf t2.dmaBuf) = _; rw [g10]; exact hv, hfl, by simp [switchBuf]⟩⟩, by simp⟩
        · rename_i hnf
          simp at hw; subst hw
          simp only [not_or] at hnf
          have hns : s.engine ≠ .asyncTxStopRequested := hnf.2
          have hnp : s.engine ≠ .asyncTxStopInProgress := by assumption
          have hE : s.engine = .asyncTx ∨ s.engine = .asyncTxLast := by
            cases hz : s.engine <;> simp_all [txActive]
          obtain ⟨v, hv, hvp, hvl⟩ : ∃ v, s.buf (otherBuf s.dmaBuf) = some v ∧ v.Playable s.params.txBufCap ∧ (v.lastPacketEnd = true ↔ s.engine = .asyncTxLast) := by
            rcases hE with hE | hE
            · obtain ⟨u', v, hu', hv, hlast, hr⟩ := S.steady hE
              rw [hu] at hu'; cases hu'
              have hn : s.dmaPos + 1 ≠ htPoint u.count := fun hc => hno ⟨hc, hE⟩
              have h2 := hr (by unfold htPoint at *; omega)
              exact ⟨v, hv, h2.1, by simp [hE, h2.2]⟩
            · obtain ⟨u', v, hu', hv, hr⟩ := S.last hE
              rw [hu] at hu'; cases hu'
              rcases hr with hr | hr
              · exact absurd hr hnf.1
              · exact ⟨v, hv, hr.1, by simp [hE, hr.2]⟩
          have hsu : s.buf (otherBuf (otherBuf s.dmaBuf)) = some u := by rw [otherBuf_otherBuf]; exact hu
          refine ⟨h.params, h.faultRegs, h.termSem, h.semValid, h.bufValid, h.txEn, fun hz => by simp [switchBuf, transferEntry, State.emit, hen] at hz, h.rxEn, h.armed, h.held, h.restStatus, fun _ => ⟨⟨v, hv, hvp, hvp.nonempty⟩, ?_, ?_, fun hz => absurd hz hnp⟩, fun hz => ?_⟩
          · intro hz
            have hz : s.engine = .asyncTx := hz
            refine ⟨v, u, hv, hsu, ?_, fun hq => ?_⟩
            · rw [hz] at hvl; cases hl : v.lastPacketEnd
              · rfl
              · have := hvl.1 hl; simp at this
            · have := hvp.nonempty; simp [switchBuf, htPoint] at hq; omega
          · intro hz
            exact ⟨v, u, hv, hsu, .inl (hvl.2 hz)⟩
          · have hz : s.engine = .asyncTxStopped := hz
            rw [hz] at ha; simp [txActive] at ha

end Sys2Proof.Machine
end

