-- ==== Sys2Proof/Laws/PerInstr.lean ====
section
/-! SUPPORT. Laws stated per instruction. Family Encoding: the word of an instruction has the instruction's opcode and
meets its format. -/

namespace Sys2Proof.Laws.Encoding

/-- The encoder's word carries the opcode of R49 and passes the must-be-zero checks of R47 and R50. -/
def Statement (i : Instr) : Prop := opField (encode i) = opcodeOf i ∧ (rawOf (encode i)).wellFormed = true

/-- The statement of a word assembled from the instruction's opcode and fields its format allows. -/
theorem of_fields {i : Instr} {f : Format} {aux : BitVec 24} {arg : Count} (he : encode i = assemble (opcodeOf i) aux arg)
    (hf : formatOf (opcodeOf i) = some f)
    (hz : f.reservedZero { op := opcodeOf i, aux := aux, arg := arg } = true) : Statement i := by
  unfold Statement rawOf RawCommand.wellFormed
  rw [he, opField_assemble, auxField_assemble, argField_assemble]
  refine ⟨rfl, ?_⟩
  dsimp only
  rw [hf]
  exact hz

/-- Format B's must-be-zero bits, for either value of `VALID`. -/
theorem auxOfValid_reserved (v : Bool) : decide (auxOfValid v >>> 1 = 0#24) = true := by cases v <;> decide

theorem rxStart : Statement .rxStart := of_fields (f := .z) rfl rfl rfl

theorem rxStop : Statement .rxStop := of_fields (f := .z) rfl rfl rfl

theorem rxSetTimeout (t : Count) : Statement (.rxSetTimeout t) := of_fields (f := .a) rfl rfl rfl

theorem rxSetCaptureCb (v : Bool) (c : Count) : Statement (.rxSetCaptureCb v c) := of_fields (f := .b) rfl rfl (auxOfValid_reserved v)

theorem rxSetTimeoutCb (v : Bool) (c : Count) : Statement (.rxSetTimeoutCb v c) := of_fields (f := .b) rfl rfl (auxOfValid_reserved v)

theorem txSetDataCb (v : Bool) (c : Count) : Statement (.txSetDataCb v c) := of_fields (f := .b) rfl rfl (auxOfValid_reserved v)

theorem txSetSentCb (v : Bool) (c : Count) : Statement (.txSetSentCb v c) := of_fields (f := .b) rfl rfl (auxOfValid_reserved v)

theorem txStart (f : Count) (d : BitVec 24) : Statement (.txStart f d) := of_fields (f := .s) rfl rfl rfl

theorem txStop : Statement .txStop := of_fields (f := .z) rfl rfl rfl

theorem txWaitTerm : Statement .txWaitTerm := of_fields (f := .z) rfl rfl rfl

theorem txIsComplete : Statement .txIsComplete := of_fields (f := .z) rfl rfl rfl

end Sys2Proof.Laws.Encoding
end

