-- ==== Sys2Proof/Laws/PlayEntry.lean ====
section
/-! SUPPORT. `Play` taken apart where it is enabled: the services of one transfer (R88), and runs of steps. -/

namespace Sys2Proof.Machine

/-- `Play` where it is enabled (R88). -/
theorem play_enabled {s : State} {u : Buffer} {e : Entry} (hen : s.txEn = true) (hu : s.buf s.dmaBuf = some u) (hlt : s.dmaPos < u.count) (he : s.bufRead s.dmaBuf s.dmaPos = some e) :
    play s = match (if s.dmaPos + 1 = htPoint u.count then halfTransferService (transferEntry e s) else .filled (transferEntry e s)) with
      | .producerError r => .next (raiseFatal s r .producerError eventHt)
      | .stuck f => .fault f
      | .filled m => if m.dmaPos = u.count then transferCompleteService m else .next m := by
  unfold play playEntry
  rw [if_pos hen, hu]
  dsimp only
  rw [if_pos hlt, he]
  dsimp only
  by_cases h : s.dmaPos + 1 = htPoint u.count
  · rw [if_pos h, if_pos (show htFlag (transferEntry e s).dmaPos u.count = true from decide_eq_true h)]
    cases halfTransferService (transferEntry e s) with
    | filled m => simp [tcFlag]
    | producerError r => rfl
    | stuck f => rfl
  · rw [if_neg h, if_neg (show ¬ htFlag (transferEntry e s).dmaPos u.count = true from fun hc => h (of_decide_eq_true hc))]
    simp [tcFlag]

/-- `Play` where no refill is due (R88, R89). -/
theorem play_no_refill {s : State} {u : Buffer} {e : Entry} (hen : s.txEn = true) (hu : s.buf s.dmaBuf = some u) (hlt : s.dmaPos < u.count) (he : s.bufRead s.dmaBuf s.dmaPos = some e)
   (hq : s.engine = .asyncTx → s.dmaPos + 1 ≠ htPoint u.count) :
    play s = if s.dmaPos + 1 = u.count then transferCompleteService (transferEntry e s) else .next (transferEntry e s) := by
  rw [play_enabled hen hu hlt he]
  by_cases h : s.dmaPos + 1 = htPoint u.count
  · rw [if_pos h]
    have hne : s.engine ≠ .asyncTx := fun hc => hq hc h
    unfold halfTransferService
    rw [if_neg (show ¬ (transferEntry e s).engine = .asyncTx from hne)]
    rfl
  · rw [if_neg h]; rfl

/-- `TransferCompleteService` where the buffer is there (R90). -/
theorem transferComplete_eq {m : State} {u : Buffer} (hu : m.buf m.dmaBuf = some u) : transferCompleteService m = match handOver u m with | none => .fault .bufferIndex | some t => .next (signalPacket u t) := by
  cases hh : handOver u m <;> simp only [transferCompleteService, hu, hh]

/-- A `Play` step supplied. -/
theorem step_play {s : State} {rest} (hh : s.halted = false) (h : s.inputs = .play :: rest) : step s = play (s.withInputs rest) := by
  unfold step takeStep
  rw [if_neg (by simp [hh]), h]; rfl

/-- One step of a run. -/
theorem run_next (M : Host.Core) {s t : M.State} (k : Nat) (h : M.step s = .next t) : M.run (k + 1) s = M.run k t := by
  simp only [Host.Core.run, h]

end Sys2Proof.Machine
end

