-- ==== Sys2Proof/Laws/Steps.lean ====
section
/-! SUPPORT. What one step of each agent can have done to the state, said once. -/

namespace Sys2Proof.Machine

/-- A field no `Play` step changes. -/
theorem field_of_outsidePlay {α} (g : State → α) {s t : State} (ho : outsidePlay t = outsidePlay s) (hg : ∀ x, g (outsidePlay x) = g x := by intro x; rfl) : g t = g s := by rw [← hg t, ho, hg]

/-- Every way a step that answers a next state can have gone. -/
theorem step_cases {s t : State} (h : step s = .next t) :
    (∃ rest, t = resetBlock { s with inputs := rest }) ∨ (s.halted = false ∧ t = s) ∨
    (s.halted = false ∧ ∃ i rest, s.inputs = i :: rest ∧ i ≠ .reset ∧ takeInput i { s with inputs := rest } = .next t) := by
  rcases takeStep_next h with ⟨-, rest, -, rfl⟩ | ⟨hh, -, rfl⟩ | ⟨hh, i, rest, hi, hx⟩
  · exact .inl ⟨rest, rfl⟩
  · exact .inr (.inl ⟨hh, rfl⟩)
  · by_cases hr : i = .reset
    · subst hr; simp [takeInput] at hx; exact .inl ⟨rest, hx.symm⟩
    · exact .inr (.inr ⟨hh, i, rest, hi, hr, hx⟩)

/-- The same for a block that is not halted, with the step taken named. -/
theorem step_running_cases {s t : State} (hh : s.halted = false) (h : step s = .next t) :
    (∃ rest, s.inputs = .reset :: rest ∧ t = resetBlock { s with inputs := rest }) ∨ (s.inputs = [] ∧ t = s) ∨
    (∃ i rest, s.inputs = i :: rest ∧ i ≠ .reset ∧ takeInput i { s with inputs := rest } = .next t) := by
  rcases takeStep_next h with ⟨hh', rest, -, rfl⟩ | ⟨hh, h0, rfl⟩ | ⟨hh, i, rest, hi, hx⟩
  · simp [hh] at hh'
  · exact .inr (.inl ⟨h0, rfl⟩)
  · by_cases hr : i = .reset
    · subst hr; simp [takeInput] at hx; exact .inl ⟨rest, hi, hx.symm⟩
    · exact .inr (.inr ⟨i, rest, hi, hr, hx⟩)

/-- A reset step names its own state. -/
theorem reset_form {s t : State} {rest} (h : t = resetBlock { s with inputs := rest }) : t = resetBlock { s with inputs := t.inputs } := by
  subst h; rfl

/-- The completion step inverted (R78). -/
theorem complete_next {s t : State} (h : completeHeld s = .next t) : s.termSem = true ∧ t = { s with termSem := false, semValid := false, bufs := Buffers.freed, engine := .idle, hostHeld := .free } := by
  unfold completeHeld at h
  split at h
  · rename_i hc; simp at h; exact ⟨hc.2, h.symm⟩
  · simp at h

/-- A first fill that meets `Error`. -/
theorem firstFill_error {f d} {s r : State} (h : fill .b0 (armTx f d s) = .producerError r) : ∃ l, r.callouts = s.callouts ++ l ∧ (∀ c ∈ l, ∃ a, c = .dataReq s.cbData.ctx a) ∧ r.txTrace = s.txTrace ∧ (∃ a, r.callouts.getLast? = some (.dataReq s.cbData.ctx a) ∧ a.status = .error) := by
  have fr := fill_producerError (s := armTx f d s) rfl h
  obtain ⟨l, hl, hd⟩ := fr.requests
  have ht : (outsideFill r).txTrace = (outsideFill (armTx f d s)).txTrace := by rw [fr.outside]
  exact ⟨l, hl, hd, ht, fill_producerError_last (s := armTx f d s) rfl h⟩

/-- Every way a command can have changed the state: a halt, or its effect. -/
theorem exec_outcome {i : Instr} {s t : State} (h : exec i s = .next t) :
    s.hostReady ∧ ((t.halted = true ∧ ∃ l, (∀ c ∈ l, ∃ a, c = .dataReq s.cbData.ctx a) ∧ (l ≠ [] → ∃ f d, i = .txStart f d ∧ s.engine = .idle) ∧
      t = { s with halted := true, faultCause := t.faultCause, faultOp := t.faultOp, producer := t.producer, draws := t.draws, callouts := s.callouts ++ l } ∧
      ((t.producer = s.producer ∧ t.draws = s.draws) ∨ ∃ f d, i = .txStart f d ∧ s.engine = .idle)) ∨
     (legalState i s.engine = true ∧ Commanded i s t ∧ t.halted = false)) := by
  obtain ⟨hr, ⟨hl, rfl⟩ | ⟨hl, hc⟩⟩ := exec_next h
  · refine ⟨hr, .inl ⟨rfl, [], by simp, by simp, by simp [raiseFatal], .inl ⟨rfl, rfl⟩⟩⟩
  · refine ⟨hr, ?_⟩
    cases i with
    | txStart f d =>
      have hi : s.engine = .idle := by rw [legalState_eq] at hl; simpa [legalInIdle] using hl
      rcases hc with ⟨h1, rfl⟩ | ⟨h1, h2, rfl⟩ | ⟨h1, h2, h3, rfl⟩ | ⟨h1, h2, h3, ⟨r, hf, rfl⟩ | ⟨m, hm, rfl⟩⟩
      · exact .inl ⟨rfl, [], by simp, by simp, by simp [raiseFatal], .inl ⟨rfl, rfl⟩⟩
      · exact .inl ⟨rfl, [], by simp, by simp, by simp [raiseFatal], .inl ⟨rfl, rfl⟩⟩
      · exact .inl ⟨rfl, [], by simp, by simp, by simp [raiseFatal], .inl ⟨rfl, rfl⟩⟩
      · obtain ⟨l, hl, hd, htr, -⟩ := firstFill_error hf
        exact .inl ⟨rfl, l, hd, fun _ => ⟨f, d, rfl, hi⟩, by simp [raiseFatal, hl, htr], .inr ⟨f, d, rfl, hi⟩⟩
      · refine .inr ⟨hl, .inr (.inr (.inr ⟨h1, h2, h3, .inr ⟨m, hm, rfl⟩⟩)), ?_⟩
        rw [(launched_eq hm).2]; exact hr.1
    | _ => refine .inr ⟨hl, hc, ?_⟩; simp only [Commanded] at hc; rw [hc]; exact hr.1

/-- Every way a write can have gone: a command, or an illegal word (R50, R52). -/
theorem write_outcome {bytes : List Byte} {s t : State} (h : hostWrite bytes s = .next t) :
    (∃ i, decodeBytes bytes = .instr i ∧ exec i s = .next t) ∨
    (s.hostReady ∧ ∃ w, bytes = bytesOfWord w ∧ (∀ r ∈ opcodeTable, r.hits w = false) ∧ t = raiseFatal s s .illegalCommand (opField w)) := by
  rcases hostWrite_next h with ⟨i, hi, hx⟩ | ⟨h1, h2, h3⟩
  · exact .inl ⟨i, hi, hx⟩
  · cases hd : decodeBytes bytes with
    | instr i => left; refine ⟨i, rfl, ?_⟩; unfold hostWrite at h; rw [hd] at h; exact h
    | reject r =>
    right
    refine ⟨⟨h1, h2⟩, ?_⟩
    have hl : bytes.length = 8 := by
      by_contra hl
      have := wordOfBytes_isSome bytes
      simp [hl] at this
      simp [hostWrite, decodeBytes, this] at h
    match bytes, hl with
    | [b0, b1, b2, b3, b4, b5, b6, b7], _ =>
      have hb : [b0, b1, b2, b3, b4, b5, b6, b7] = bytesOfWord (b7 ++ b6 ++ b5 ++ b4 ++ b3 ++ b2 ++ b1 ++ b0) := by
        simp only [bytesOfWord, List.cons.injEq, and_true]
        refine ⟨?_, ?_, ?_, ?_, ?_, ?_, ?_, ?_⟩ <;>
        · apply BitVec.eq_of_getLsbD_eq
          intro i hi
          simp only [BitVec.getLsbD_extractLsb', BitVec.getLsbD_append, hi, decide_true, Bool.true_and]
          repeat' split
          all_goals first | omega | (congr 1; omega)
      refine ⟨_, hb, ?_, ?_⟩
      · have : decode (b7 ++ b6 ++ b5 ++ b4 ++ b3 ++ b2 ++ b1 ++ b0) = .reject r := by rw [← decodeBytes_bytesOfWord, ← hb]; exact hd
        unfold decode at this
        split at this
        · simp at this
        · rename_i hn; intro r hr; simpa using List.find?_eq_none.1 hn r hr
      · rw [h3]; rw [hb]; rfl

/-- Signal-sent records are counted piece by piece. -/
theorem signalSentCount_append (l m) : signalSentCount (l ++ m) = signalSentCount l + signalSentCount m := List.countP_append

/-- No signal-sent record, none counted. -/
theorem signalSentCount_zero {l : List Callout} (h : ∀ c ∈ l, ∀ x, c ≠ .signalSent x) : signalSentCount l = 0 := by
  unfold signalSentCount; rw [List.countP_eq_zero]
  intro c hc
  have := h c hc
  cases c with
  | signalSent x => exact absurd rfl (this x)
  | _ => simp

end Sys2Proof.Machine
end

