-- ==== Sys2Proof/Tests/Slice0.lean ====
section
/-! SUPPORT. Tests against the vectors of spec/95_test_vectors.md, named by their numbers there, and one witness for every
statement with hypotheses: a concrete state and operands that meet all of them together. -/

namespace Sys2Proof.Tests

set_option Elab.async false

open Sys2Proof.Machine

/-! ## Helpers -/

/-- The step answers a next state of which this holds. -/
def after (o : Result) (holds : State → Bool) : Bool :=
  match o with
  | .next t => holds t
  | .fault _ | .refused _ => false

/-- The step is refused for this reason. -/
def refusedFor (o : Result) (r : Refusal) : Bool :=
  match o with
  | .refused q => decide (q = r)
  | .next _ | .fault _ => false

/-- The step faults for this reason. -/
def faultsFor (o : Result) (f : Fault) : Bool :=
  match o with
  | .fault g => decide (g = f)
  | .next _ | .refused _ => false

/-- The fill returns a state of which this holds. -/
def filledWith (r : FillResult) (holds : State → Bool) : Bool :=
  match r with
  | .filled t => holds t
  | .producerError _ | .stuck _ => false

/-- The fill meets an `Error`, and this holds of what it reached. -/
def failedWith (r : FillResult) (holds : State → Bool) : Bool :=
  match r with
  | .producerError t => holds t
  | .filled _ | .stuck _ => false

theorem exists_of_after {o : Result} {holds : State → Bool} (h : after o holds = true) :
    ∃ t, o = .next t ∧ holds t = true := by
  cases o with
  | next t => exact ⟨t, rfl, h⟩
  | fault _ | refused _ => simp [after] at h

theorem exists_of_filled {r : FillResult} {holds : State → Bool} (h : filledWith r holds = true) :
    ∃ t, r = .filled t ∧ holds t = true := by
  cases r with
  | filled t => exact ⟨t, rfl, h⟩
  | producerError _ | stuck _ => simp [filledWith] at h

theorem exists_of_failed {r : FillResult} {holds : State → Bool} (h : failedWith r holds = true) :
    ∃ t, r = .producerError t ∧ holds t = true := by
  cases r with
  | producerError t => exact ⟨t, rfl, h⟩
  | filled _ | stuck _ => simp [failedWith] at h

/-- Halted with this cause by this operation. -/
def halts (o : Result) (cause op : BitVec 8) : Bool :=
  after o fun t => decide (t.halted = true ∧ t.faultCause = cause ∧ t.faultOp = op)

def capCtx : Count := 0xCAFE0001#32
def tmoCtx : Count := 0xCAFE0002#32
def dataCtx : Count := 0xD0D00001#32
def sentCtx : Count := 0xD0D00002#32

/-- `Idle`, all four slots valid. -/
def idle : State :=
  { State.reset with
    cbCap := ⟨true, capCtx⟩, cbTmo := ⟨true, tmoCtx⟩, cbData := ⟨true, dataCtx⟩, cbSent := ⟨true, sentCtx⟩ }

/-- `AsyncRx`, at this count. -/
def receiving (count : Count) : State := { idle with engine := .asyncRx, rxEn := true, rxCnt := count }

/-- A buffer holding these entries. -/
def bufferOf (l : List Entry) (packetEnd lastPacketEnd : Bool) : Buffer :=
  { cells := l.mapIdx fun i e => (i, e), count := l.length, packetEnd := packetEnd, lastPacketEnd := lastPacketEnd }

/-- A TX session in this state, with these two buffers, playing buffer 0 from this position. -/
def sending (e : EngineState) (u v : Buffer) (pos : Nat) : State :=
  { idle with
    engine := e, semValid := true, txEn := true, freq := 38000#32, duty := 21627#24, bufs := .allocated ⟨u, v⟩, dmaPos := pos }

/-- Four entries, the end of a packet: the first buffer of program P4. -/
def four : Buffer := bufferOf [⟨true, 341#16⟩, ⟨false, 170#16⟩, ⟨true, 20#16⟩, ⟨false, 20#16⟩] true false

/-- Two entries, no packet's end. -/
def two : Buffer := bufferOf [⟨true, 20#16⟩, ⟨false, 20#16⟩] false false

/-- The flush buffer (R87). -/
def flush : Buffer := bufferOf [flushEntry, flushEntry] true true

/-- `AsyncTxStopped` with the semaphore given. -/
def stopped : State :=
  { sending .asyncTxStopped four flush 2 with
    dmaBuf := .b1, txEn := false, termSem := true, txTrace := [flushEntry, flushEntry] }

def cap (n : Nat) (s : State) : State := { s with params := { s.params with txBufCap := n } }
def answering (l : List AnswerWord) (s : State) : State := { s with producer := l }
def given (l : List Input) (s : State) : State := { s with inputs := l }

/-- The write of this word to the command port. -/
def wordWrite (w : Word) : Input := .portWrite (bytesOfWord w)

/-! ## Well-formedness: each check refuses an ill-formed term -/

theorem test_illformed_unassigned_opcode : RawCommand.wellFormed ⟨0x15#8, 0#24, 0#32⟩ = false := by decide
theorem test_illformed_formatZ_arg : RawCommand.wellFormed ⟨0x10#8, 0#24, 1#32⟩ = false := by decide
theorem test_illformed_formatZ_aux : RawCommand.wellFormed ⟨0x23#8, 1#24, 0#32⟩ = false := by decide
theorem test_illformed_formatA_aux : RawCommand.wellFormed ⟨0x12#8, 1#24, 1000#32⟩ = false := by decide
theorem test_illformed_formatB_bit33 : RawCommand.wellFormed ⟨0x13#8, 2#24, capCtx⟩ = false := by decide
theorem test_illformed_formatB_bit55 : RawCommand.wellFormed ⟨0x13#8, 0x800000#24, capCtx⟩ = false := by decide
theorem test_wellformed_formatS : RawCommand.wellFormed ⟨0x22#8, 0xFFFFFF#24, 0xFFFFFFFF#32⟩ = true := by decide

/-! ## Decoding: words written out from R49's table (DEC1 to DEC24) -/

theorem test_dec1 : decode 0x1000000000000000#64 = .instr .rxStart := by decide
theorem test_dec2 : decode 0x1100000000000000#64 = .instr .rxStop := by decide
theorem test_dec3 : decode 0x12000000000249F0#64 = .instr (.rxSetTimeout 150000#32) := by decide
theorem test_dec4 : decode 0x12000000FFFFFFFF#64 = .instr (.rxSetTimeout 4294967295#32) := by decide
theorem test_dec5 : decode 0x13000001CAFE0001#64 = .instr (.rxSetCaptureCb true 0xCAFE0001#32) := by decide
theorem test_dec6 : decode 0x13000000DEADBEEF#64 = .instr (.rxSetCaptureCb false 0xDEADBEEF#32) := by decide
theorem test_dec7 : decode 0x14000001CAFE0002#64 = .instr (.rxSetTimeoutCb true 0xCAFE0002#32) := by decide
theorem test_dec8 : decode 0x20000001D0D00001#64 = .instr (.txSetDataCb true 0xD0D00001#32) := by decide
theorem test_dec9 : decode 0x21000001D0D00002#64 = .instr (.txSetSentCb true 0xD0D00002#32) := by decide
theorem test_dec10 : decode 0x2200547B00009470#64 = .instr (.txStart 38000#32 21627#24) := by decide
theorem test_dec10_bytes :
    decodeBytes [0x70#8, 0x94#8, 0x00#8, 0x00#8, 0x7B#8, 0x54#8, 0x00#8, 0x22#8] =
      .instr (.txStart 38000#32 21627#24) := by decide
theorem test_dec12 : decode 0x22FFFFFFFFFFFFFF#64 = .instr (.txStart 4294967295#32 16777215#24) := by decide
theorem test_dec13 : decode 0x2300000000000000#64 = .instr .txStop := by decide
theorem test_dec14 : decode 0x2400000000000000#64 = .instr .txWaitTerm := by decide
theorem test_dec15 : decode 0x2500000000000000#64 = .instr .txIsComplete := by decide
theorem test_dec16 : decode 0x1000000000000001#64 = .reject .reservedBitSet := by decide
theorem test_dec17 : decode 0x2300000100000000#64 = .reject .reservedBitSet := by decide
theorem test_dec18 : decode 0x12000001000003E8#64 = .reject .reservedBitSet := by decide
theorem test_dec19 : decode 0x13000002CAFE0001#64 = .reject .reservedBitSet := by decide
theorem test_dec20 : decode 0x13800000CAFE0001#64 = .reject .reservedBitSet := by decide
theorem test_dec21 : decode 0x0000000000000000#64 = .reject .unassignedOpcode := by decide
theorem test_dec22 : decode 0x1500000000000000#64 = .reject .unassignedOpcode := by decide
theorem test_dec24 : decode 0xFFFFFFFFFFFFFFFF#64 = .reject .unassignedOpcode := by decide
theorem test_dec_seven_bytes :
    decodeBytes [0x00#8, 0x00#8, 0x00#8, 0x00#8, 0x00#8, 0x00#8, 0x10#8] = .reject .notEightBytes := by decide
theorem test_decodeTableWord : decodeTableWord 64 0x2200547B00009470 = some (.txStart 38000#32 21627#24) := by decide

/-! ## One step per command (sections 2.2, 2.4 and 2.8) -/

theorem test_x1_rx_start :
    after (exec .rxStart { idle with rxCnt := 77#32, rxCcr3 := 9#32, rxTmoArmed := true, prevCh2 := 5#32 }) (fun t =>
      decide (t.engine = .asyncRx ∧ t.rxEn = true ∧ t.rxCnt = 0#32 ∧ t.rxCcr3 = 0#32 ∧ t.rxTmoArmed = false ∧
        t.prevCh2 = 0#32)) = true := by decide
theorem test_x12_rx_start_in_stopped : halts (exec .rxStart stopped) 0x01#8 0x10#8 = true := by decide
theorem test_x3_rx_stop :
    after (exec .rxStop { receiving 1234#32 with rxTmoArmed := true }) (fun t =>
      decide (t.engine = .idle ∧ t.rxEn = false ∧ t.rxTmoArmed = false ∧ t.rxCnt = 1234#32)) = true := by decide
theorem test_x4_rx_stop_in_idle : halts (exec .rxStop State.reset) 0x01#8 0x11#8 = true := by decide
theorem test_x5_rx_set_timeout :
    after (exec (.rxSetTimeout 150000#32) (receiving 500#32)) (fun t =>
      decide (t.rxCcr3 = 150000#32 ∧ t.rxTmoArmed = true ∧ t.rxCnt = 500#32)) = true := by decide
theorem test_x6_rx_set_timeout_in_idle : halts (exec (.rxSetTimeout 150000#32) idle) 0x01#8 0x12#8 = true := by decide
theorem test_x9_rx_set_capture_cb :
    after (exec (.rxSetCaptureCb false 0xDEADBEEF#32) idle) (fun t =>
      decide (t.cbCap = ⟨false, 0xDEADBEEF#32⟩ ∧ t.cbTmo = idle.cbTmo)) = true := by decide
theorem test_x10_rx_set_capture_cb_in_rx :
    halts (exec (.rxSetCaptureCb true capCtx) (receiving 0#32)) 0x01#8 0x13#8 = true := by decide
theorem test_rx_set_timeout_cb :
    after (exec (.rxSetTimeoutCb true 7#32) idle) (fun t =>
      decide (t.cbTmo = ⟨true, 7#32⟩ ∧ t.cbCap = idle.cbCap)) = true := by decide
theorem test_x11_rx_set_timeout_cb_in_tx :
    halts (exec (.rxSetTimeoutCb true tmoCtx) (sending .asyncTx four two 0)) 0x01#8 0x14#8 = true := by decide
theorem test_t1_tx_set_data_cb :
    after (exec (.txSetDataCb true dataCtx) State.reset) (fun t =>
      decide (t.cbData = ⟨true, dataCtx⟩ ∧ t.cbSent = CbSlot.empty)) = true := by decide
theorem test_t2_tx_set_data_cb_in_tx :
    halts (exec (.txSetDataCb true dataCtx) (sending .asyncTx four two 0)) 0x01#8 0x20#8 = true := by decide
theorem test_tx_set_sent_cb :
    after (exec (.txSetSentCb true sentCtx) State.reset) (fun t =>
      decide (t.cbSent = ⟨true, sentCtx⟩ ∧ t.cbData = CbSlot.empty)) = true := by decide
theorem test_t3_tx_set_sent_cb_in_rx :
    halts (exec (.txSetSentCb true sentCtx) (receiving 0#32)) 0x01#8 0x21#8 = true := by decide
theorem test_t4_tx_start :
    after (exec (.txStart 38000#32 21627#24) (answering [answerWord .lastDone true 560#32] idle)) (fun t =>
      decide (t.engine = .asyncTxLast ∧ t.freq = 38000#32 ∧ t.duty = 21627#24 ∧
        t.buf .b0 = some (bufferOf [⟨true, 20#16⟩] true true) ∧ t.semValid = true ∧ t.termSem = false ∧
        t.dmaBuf = .b0 ∧ t.dmaPos = 0 ∧ t.txEn = true)) = true := by decide +kernel
theorem test_t13_tx_start_producer_error :
    after (exec (.txStart 38000#32 32768#24) (answering [answerWord .error false 0#32] idle)) (fun t =>
      decide (t.halted = true ∧ t.faultCause = 0x05#8 ∧ t.faultOp = 0x22#8 ∧ t.engine = .idle ∧ t.txEn = false ∧
        t.callouts = [.dataReq dataCtx ⟨false, .error, 0#32⟩])) = true := by decide +kernel
theorem test_t15_tx_stop :
    after (exec .txStop (sending .asyncTx four two 0)) (fun t =>
      decide (t.engine = .asyncTxStopRequested ∧ t.hostHeld = .stop)) = true := by decide
theorem test_t16_tx_stop_in_last :
    after (exec .txStop (sending .asyncTxLast flush two 0)) (fun t =>
      decide (t.engine = .asyncTxLast ∧ t.hostHeld = .stop)) = true := by decide
theorem test_t20_tx_wait_term :
    after (exec .txWaitTerm (sending .asyncTx four two 0)) (fun t =>
      decide (t.engine = .asyncTx ∧ t.hostHeld = .wait)) = true := by decide
theorem test_t19_tx_wait_term_in_rx : halts (exec .txWaitTerm (receiving 0#32)) 0x01#8 0x24#8 = true := by decide
theorem test_t24_tx_is_complete : after (exec .txIsComplete stopped) (fun t => decide (t.resp = 1#32)) = true := by decide
theorem test_t23_tx_is_complete_in_idle :
    after (exec .txIsComplete { idle with resp := 1#32 }) (fun t => decide (t.resp = 0#32)) = true := by decide
theorem test_t22_completion :
    after (completeHeld { stopped with hostHeld := .wait }) (fun t =>
      decide (t.engine = .idle ∧ t.hostHeld = .free ∧ t.termSem = false ∧ t.semValid = false ∧ t.bufValid = false)) =
      true := by decide
theorem test_t25_held_host : refusedFor (exec .txIsComplete { stopped with hostHeld := .stop }) .hostSuspended = true := by
  decide

/-! ## The environment's steps (section 2.3) -/

theorem test_e5_timeout :
    (tick { receiving 149999#32 with rxCcr3 := 150000#32, rxTmoArmed := true }).callouts = [.timeout tmoCtx] := by decide
theorem test_e9_zero_timeout_matches_on_the_wrap :
    (tick { receiving 0xFFFFFFFF#32 with rxTmoArmed := true }).callouts = [.timeout tmoCtx] := by decide
theorem test_e11_fall :
    after (fall (receiving 300#32)) (fun t =>
      decide (t.rxPin = false ∧ t.rxCcr2 = 300#32 ∧ t.prevCh2 = 300#32 ∧ t.rxCnt = 300#32 ∧
        t.callouts = [.capture capCtx false 300#32])) = true := by decide
theorem test_e15_rise_short_period :
    after (rise { receiving 0x100#32 with rxPin := false, prevCh2 := 0xFF00#32 }) (fun t =>
      decide (t.rxPin = true ∧ t.rxCcr1 = 0x100#32 ∧ t.rxCnt = 0#32 ∧
        t.callouts = [.capture capCtx true 0xFFFF0200#32])) = true := by decide

/-! ## Conversion and fill (sections 2.5 and 2.6) -/

theorem test_cv10_tie_rounds_up : numCycles 2500000 1 = 3 := by decide +kernel
theorem test_cv28_largest : numCycles 4294967295 4294967295 = 18446744065120 := by decide +kernel

/-- Both buffers allocated, `AsyncTx` at 38000 Hz, this capacity and producer. -/
def filling (n : Nat) (l : List AnswerWord) : State :=
  answering l (cap n (sending .asyncTx Buffer.fresh Buffer.fresh 0))

theorem test_f2_zero_cycles_dropped :
    filledWith (fill .b1 (filling 4 [answerWord .ok true 13#32, answerWord .ok false 14#32, answerWord .done true 560#32]))
      (fun t => decide (t.buf .b1 = some (bufferOf [⟨false, 0#16⟩, ⟨true, 20#16⟩] true false))) = true := by decide +kernel
theorem test_f3_zero_cycle_done_ends_a_packet :
    filledWith (fill .b1 (filling 4 [answerWord .ok true 560#32, answerWord .done false 5#32, answerWord .ok true 560#32]))
      (fun t => decide (t.buf .b1 = some (bufferOf [⟨true, 20#16⟩] true false) ∧ t.callouts.length = 2)) = true := by
  decide +kernel
theorem test_f4_zero_cycle_done_in_empty_buffer :
    filledWith (fill .b1 (filling 4 [answerWord .done false 5#32, answerWord .ok true 560#32, answerWord .done false 560#32]))
      (fun t => decide (t.buf .b1 = some (bufferOf [⟨true, 20#16⟩, ⟨false, 20#16⟩] true false))) = true := by decide +kernel
theorem test_flush_and_forced_entries_are_low : flushEntry = ⟨false, 0#16⟩ ∧ degenerateEntry = ⟨false, 0#16⟩ := by decide
theorem test_f5_forced_entry :
    filledWith (fill .b1 (filling 4 [answerWord .lastDone false 0#32]))
      (fun t => decide (t.buf .b1 = some (bufferOf [degenerateEntry] true true) ∧ t.engine = .asyncTxLast)) = true := by
  decide +kernel
theorem test_f7_held_done :
    filledWith (fill .b1 (filling 2 [answerWord .done true 2000000#32]))
      (fun t => decide (t.buf .b1 = some (bufferOf [⟨true, 65535#16⟩, ⟨true, 10464#16⟩] true false) ∧
        t.restDuration = 0#64 ∧ t.restLevel = true ∧ t.restStatus = .done)) = true := by decide +kernel
theorem test_f8_remainder_left :
    filledWith (fill .b1 (filling 2 [answerWord .ok true 6000000#32]))
      (fun t => decide (t.buf .b1 = some (bufferOf [⟨true, 65535#16⟩, ⟨true, 65535#16⟩] false false) ∧
        t.restDuration = 96929#64)) = true := by decide +kernel
theorem test_f10_remainder_ends_the_fill :
    filledWith (fill .b1 { filling 2 [] with restDuration := 10464#64, restLevel := true, restStatus := .done })
      (fun t => decide (t.buf .b1 = some (bufferOf [⟨true, 10464#16⟩] true false) ∧ t.callouts = [])) = true := by
  decide +kernel
theorem test_f12_tick_max_fits :
    filledWith (fill .b1 (filling 4
      [answerWord .ok true 1724631#32, answerWord .ok false 1724632#32, answerWord .done true 1#32]))
      (fun t => decide (t.buf .b1 = some (bufferOf [⟨true, 65535#16⟩, ⟨false, 65535#16⟩] true false))) = true := by
  decide +kernel

/-! ## Playback (section 2.7) -/

theorem test_s4_switch_with_signal :
    after (play (sending .asyncTx four two 3)) (fun t =>
      decide (t.dmaBuf = .b1 ∧ t.dmaPos = 0 ∧ t.callouts = [.signalSent sentCtx] ∧ t.engine = .asyncTx)) = true := by
  decide +kernel
theorem test_s6_last_buffer :
    after (play (sending .asyncTxLast (bufferOf [⟨true, 341#16⟩, ⟨false, 170#16⟩, ⟨true, 20#16⟩] true true) two 2)) (fun t =>
      decide (t.buf .b1 = some flush ∧ t.dmaBuf = .b1 ∧ t.dmaPos = 0 ∧ t.engine = .asyncTxStopInProgress ∧
        t.callouts = [.signalSent sentCtx])) = true := by decide +kernel
theorem test_s9_no_refill_after_stop_request :
    after (play (sending .asyncTxStopRequested four two 1)) (fun t =>
      decide (t.dmaPos = 2 ∧ t.callouts = [] ∧ t.buf .b1 = some two)) = true := by decide +kernel
theorem test_s12_terminal_completion :
    after (play (sending .asyncTxStopInProgress flush four 1)) (fun t =>
      decide (t.txEn = false ∧ t.txLevel = false ∧ t.engine = .asyncTxStopped ∧ t.termSem = true ∧ t.dmaPos = 2 ∧
        t.callouts = [])) = true := by decide +kernel
theorem test_reset_end_flags :
    State.reset.endFlags .b0 = some ⟨false, false⟩ ∧ State.reset.endFlags .b1 = some ⟨false, false⟩ ∧
      (sending .asyncTx four flush 0).endFlags .b0 = some ⟨true, false⟩ := by decide
theorem test_p6_error_at_half_transfer :
    after (play (answering [answerWord .error false 0#32] (sending .asyncTx two Buffer.fresh 0))) (fun t =>
      decide (t.halted = true ∧ t.faultCause = 0x05#8 ∧ t.faultOp = 0x84#8 ∧ t.dmaPos = 0 ∧ t.txEn = true ∧
        t.engine = .asyncTx ∧ t.txTrace = [⟨true, 20#16⟩] ∧ t.callouts.length = 1)) = true := by decide +kernel

/-! ## Steps -/

theorem test_step_runs_the_placed_word :
    after (step (State.reset.withFetchWord 64 0x1000000000000000)) (fun t =>
      decide (t.engine = .asyncRx ∧ t.inputs = [])) = true := by decide
theorem test_step_illegal_word :
    halts (step (given [wordWrite 0x13000002CAFE0001#64] (receiving 0#32))) 0x06#8 0x13#8 = true := by decide
theorem test_p5_halted_until_reset :
    after (step (given [.tick, .reset, .play] { receiving 5#32 with halted := true, faultCause := 0x01#8 })) (fun t =>
      decide (t = { State.reset with inputs := [.play] })) = true := by decide
theorem test_halted_is_stuck : faultsFor (step (given [.tick] { idle with halted := true })) .halted = true := by decide

/-! ## Witnesses: concrete states and operands that meet the hypotheses of the statements -/

/-- The invariant holds after reset. -/
theorem reset_inv : State.reset.Inv := by
  constructor <;> simp [State.reset, Params.standard, Params.wf, txOrLater, txActive, State.bufValid]

theorem ready_idle : idle.hostReady := ⟨rfl, rfl⟩
theorem ready_receiving (n : Count) : (receiving n).hostReady := ⟨rfl, rfl⟩
theorem ready_sending (e : EngineState) (u v : Buffer) (n : Nat) : (sending e u v n).hostReady := ⟨rfl, rfl⟩
theorem ready_stopped : stopped.hostReady := ⟨rfl, rfl⟩

theorem playable_four : four.Playable 4 :=
  ⟨by decide +kernel, by decide +kernel, fun i hi => by have : i < 4 := hi; interval_cases i <;> rfl, fun h => absurd h (by decide +kernel)⟩

/-- A state with the invariant in the middle of a TX session. -/
theorem sending_inv : (sending .asyncTx four Buffer.fresh 1).Inv := by
  refine ⟨by decide +kernel, fun _ => ⟨rfl, rfl⟩, by decide +kernel, rfl, rfl, rfl, fun _ => rfl, by decide +kernel, fun h => absurd h (by decide +kernel),
    fun h => absurd rfl h, fun h => absurd rfl h, fun _ => ⟨⟨four, rfl, playable_four, by decide +kernel⟩, fun _ => ?_,
    fun h => absurd h (by decide +kernel), fun h => absurd h (by decide +kernel)⟩, fun h => absurd h (by decide +kernel)⟩
  exact ⟨four, Buffer.fresh, rfl, rfl, rfl, fun h => absurd h (by decide +kernel)⟩

theorem witness_DecodedWordIsTheEncoding : ∃ w i, decode w = .instr i :=
  ⟨0x2201000000009470#64, .txStart 38000#32 65536#24, by decide +kernel⟩

theorem witness_DecodingIsTotalAndUnambiguous :
    opField 0x22FFFFFFFFFFFFFF#64 = 0x22#8 ∧
    idle.hostReady ∧ idle.engine = .idle ∧ idle.cbData.valid = true ∧ 65536 < (65537#24).toNat ∧
    (∃ freq : Count, freq = 0xFFFFFFFF#32) := by
  exact ⟨by decide +kernel, ready_idle, rfl, rfl, by decide +kernel, _, rfl⟩

theorem witness_StepRunsDecodedCommand :
    ∃ (s : State) (bytes : List Byte) (rest : List Input) (i : Instr), s.halted = false ∧
      s.inputs = .portWrite bytes :: rest ∧ decodeBytes bytes = .instr i :=
  ⟨given [wordWrite 0x2200547B00009470#64, .tick] idle, _, [.tick], .txStart 38000#32 21627#24, rfl, rfl, by decide +kernel⟩

theorem witness_StepTakesTheSuppliedStep :
    idle.halted = false ∧ (given [.complete] idle).inputs = .complete :: [] ∧ (given [.tick] idle).inputs = .tick :: [] ∧
    (given [.rise] idle).inputs = .rise :: [] ∧ (given [.fall] idle).inputs = .fall :: [] ∧
    (given [.play] idle).inputs = .play :: [] ∧ (given [] idle).inputs = [] := by decide +kernel

theorem witness_IllegalWordHalts :
    (given [wordWrite 0x2600000000000000#64] (receiving 3#32)).hostReady ∧
    (given [wordWrite 0x2600000000000000#64] (receiving 3#32)).inputs = [.portWrite (bytesOfWord 0x2600000000000000#64)] ∧
    ∀ r ∈ opcodeTable, r.hits 0x2600000000000000#64 = false :=
  ⟨⟨rfl, rfl⟩, rfl, by decide +kernel⟩

theorem witness_OtherWriteLengthsAreRefused :
    ∀ bytes ∈ [[], List.replicate 7 0x10#8, List.replicate 9 0x10#8], (given [.portWrite bytes] idle).halted = false ∧
      (given [.portWrite bytes] idle).inputs = [.portWrite bytes] ∧ bytes.length ≠ 8 := by
  intro bytes h
  simp only [List.mem_cons, List.not_mem_nil, or_false] at h
  rcases h with rfl | rfl | rfl <;> exact ⟨rfl, rfl, by decide +kernel⟩

theorem witness_CommandsAreLegalExactlyInTheirStates :
    stopped.hostReady ∧ legalState .rxStart stopped.engine = false ∧
    legalState (.txStart 38000#32 0#24) idle.engine = true ∧ (∃ t, exec (.txStart 38000#32 0#24) idle = .next t) ∧
    legalState .txStop stopped.engine = true ∧ (∃ t, exec .txStop stopped = .next t) := by
  obtain ⟨t, ht, -⟩ := exists_of_after (o := exec (.txStart 38000#32 0#24) idle) (holds := fun _ => true) (by decide +kernel)
  obtain ⟨u, hu, -⟩ := exists_of_after (o := exec .txStop stopped) (holds := fun _ => true) (by decide +kernel)
  exact ⟨ready_stopped, by decide +kernel, by decide +kernel, ⟨t, ht⟩, by decide +kernel, ⟨u, hu⟩⟩

/-- A `Play` step that meets an `Error` at the half-transfer point (program P6, its variant). -/
def failing : State := given [.play] (answering [answerWord .error false 0#32] (sending .asyncTx two Buffer.fresh 0))

theorem witness_FatalDiscardsTheStep :
    (∃ t, failing.halted = false ∧ step failing = .next t ∧ t.halted = true) ∧
    ∃ t, (given [wordWrite 0x1100000000000000#64] idle).halted = false ∧
      step (given [wordWrite 0x1100000000000000#64] idle) = .next t ∧ t.halted = true := by
  obtain ⟨t, ht, hh⟩ := exists_of_after (o := step failing) (holds := fun t => t.halted) (by decide +kernel)
  obtain ⟨u, hu, hk⟩ := exists_of_after (o := step (given [wordWrite 0x1100000000000000#64] idle))
    (holds := fun t => t.halted) (by decide +kernel)
  exact ⟨⟨t, rfl, ht, hh⟩, u, rfl, hu, hk⟩

theorem witness_OnlyResetLeavesTheHalt :
    (∃ t, (given [.tick, .reset] { idle with halted := true }).halted = true ∧
      step (given [.tick, .reset] { idle with halted := true }) = .next t) ∧
    Input.reset ∉ (given [.tick] { idle with halted := true }).inputs := by
  obtain ⟨t, ht, -⟩ := exists_of_after (o := step (given [.tick, .reset] { idle with halted := true }))
    (holds := fun _ => true) (by decide +kernel)
  exact ⟨⟨t, rfl, ht⟩, by decide +kernel⟩

theorem witness_HeldHostIssuesNothing :
    ({ stopped with hostHeld := .wait } : State).halted = false ∧ ({ stopped with hostHeld := .wait } : State).hostHeld ≠ .free ∧
    (given [wordWrite 0#64] { stopped with hostHeld := .stop }).inputs = [.portWrite (bytesOfWord 0#64)] := by
  exact ⟨rfl, by decide +kernel, rfl⟩

theorem witness_FatalCausesAreThoseOfTheTable :
    (∃ t, failing.halted = false ∧ step failing = .next t ∧ t.halted = true) ∧
    (∃ t, (given [wordWrite 0xFFFFFFFFFFFFFFFF#64] idle).halted = false ∧
      step (given [wordWrite 0xFFFFFFFFFFFFFFFF#64] idle) = .next t ∧ t.halted = true) ∧
    ∃ t, (given [wordWrite 0x2200000100000000#64] idle).halted = false ∧
      step (given [wordWrite 0x2200000100000000#64] idle) = .next t ∧ t.halted = true := by
  obtain ⟨t, ht, hh⟩ := exists_of_after (o := step failing) (holds := fun t => t.halted) (by decide +kernel)
  obtain ⟨u, hu, hk⟩ := exists_of_after (o := step (given [wordWrite 0xFFFFFFFFFFFFFFFF#64] idle))
    (holds := fun t => t.halted) (by decide +kernel)
  obtain ⟨v, hv, hl⟩ := exists_of_after (o := step (given [wordWrite 0x2200000100000000#64] idle))
    (holds := fun t => t.halted) (by decide +kernel)
  exact ⟨⟨t, rfl, ht, hh⟩, ⟨u, rfl, hu, hk⟩, v, rfl, hv, hl⟩

theorem witness_RxStartBeginsASession :
    idle.hostReady ∧ idle.engine = .idle ∧ stopped.hostReady ∧ stopped.engine ≠ .idle :=
  ⟨ready_idle, rfl, ready_stopped, by decide +kernel⟩

theorem witness_RxStopEndsASession :
    (receiving 1234#32).hostReady ∧ (receiving 1234#32).engine = .asyncRx ∧ idle.hostReady ∧ idle.engine ≠ .asyncRx :=
  ⟨ready_receiving _, rfl, ready_idle, by decide +kernel⟩

/-- An armed compare of this value, at this count of this period. -/
def armedAt (compare count period : Count) : State :=
  { receiving count with rxCcr3 := compare, rxTmoArmed := true, params := { Params.standard with rxPeriod := period } }

theorem witness_RxSetTimeoutArmsTheCompare :
    (receiving 0#32).hostReady ∧ (receiving 0#32).engine = .asyncRx ∧ idle.engine ≠ .asyncRx ∧
    (armedAt 0x10000#32 0xFFFF#32 0xFFFF#32).rxCnt.toNat ≤ (armedAt 0x10000#32 0xFFFF#32 0xFFFF#32).params.rxPeriod.toNat ∧
    (armedAt 0x10000#32 0xFFFF#32 0xFFFF#32).params.rxPeriod.toNat < (armedAt 0x10000#32 0xFFFF#32 0xFFFF#32).rxCcr3.toNat ∧
    (armedAt 0#32 0xFFFF#32 0xFFFF#32).rxCcr3 = 0#32 ∧
    (tick (armedAt 0#32 0xFFFF#32 0xFFFF#32)).callouts ≠ (armedAt 0#32 0xFFFF#32 0xFFFF#32).callouts :=
  ⟨ready_receiving _, rfl, by decide +kernel, by decide +kernel, by decide +kernel, rfl, by decide +kernel⟩

theorem witness_RxCallbackCommandsWriteTheirSlot :
    idle.hostReady ∧ idle.engine = .idle ∧ (receiving 0#32).hostReady ∧ (receiving 0#32).engine ≠ .idle :=
  ⟨ready_idle, rfl, ready_receiving _, by decide +kernel⟩

theorem witness_TickCountsAndCompares :
    idle.rxEn = false ∧ (receiving 0xFFFFFFFF#32).rxEn = true ∧
    (receiving 0xFFFFFFFF#32).rxCnt = (receiving 0xFFFFFFFF#32).params.rxPeriod ∧
    (receiving 0xFFFFFFFE#32).rxCnt ≠ (receiving 0xFFFFFFFE#32).params.rxPeriod := by decide +kernel

theorem witness_RiseCapturesAndReportsTheMark :
    idle.rxPin = true ∧ ({ idle with rxPin := false } : State).rxPin = false ∧ idle.rxEn = false ∧
    ({ receiving 860#32 with rxPin := false } : State).rxPin = false ∧
    ({ receiving 860#32 with rxPin := false } : State).rxEn = true := by decide +kernel

theorem witness_FallCapturesAndReportsTheSpace :
    ({ idle with rxPin := false } : State).rxPin = false ∧ idle.rxPin = true ∧ idle.rxEn = false ∧
    (receiving 300#32).rxPin = true ∧ (receiving 300#32).rxEn = true := by decide +kernel

theorem witness_SpaceDurationIsTheTicksSinceTheRise :
    ∃ s t : State, s.rxEn = true ∧ s.cbCap.valid = true ∧ rise s = .next t := by
  obtain ⟨t, ht, -⟩ := exists_of_after (o := rise { receiving 860#32 with rxPin := false }) (holds := fun _ => true)
    (by decide +kernel)
  exact ⟨{ receiving 860#32 with rxPin := false }, t, rfl, rfl, ht⟩

theorem witness_MarkDurationIsTheTicksSinceTheFall :
    (∃ t : State, (receiving 300#32).rxEn = true ∧ (receiving 300#32).cbCap.valid = true ∧
      fall (receiving 300#32) = .next t) ∧
    (receiving 300#32).rxCnt.toNat + 0xFFFFFED3 ≤ (receiving 300#32).params.rxPeriod.toNat ∧
    (receiving 300#32).params.rxPeriod = 0xFFFFFFFF#32 ∧
    (armedAt 0#32 0xFF00#32 0xFFFF#32).rxCnt.toNat ≤ (armedAt 0#32 0xFF00#32 0xFFFF#32).params.rxPeriod.toNat ∧
    (armedAt 0#32 0xFF00#32 0xFFFF#32).params.rxPeriod.toNat < (armedAt 0#32 0xFF00#32 0xFFFF#32).rxCnt.toNat + 0x200 ∧
    (armedAt 0#32 0xFF00#32 0xFFFF#32).rxCnt.toNat + 0x200 ≤
      2 * (armedAt 0#32 0xFF00#32 0xFFFF#32).params.rxPeriod.toNat + 1 := by
  obtain ⟨t, ht, -⟩ := exists_of_after (o := fall (receiving 300#32)) (holds := fun _ => true) (by decide +kernel)
  exact ⟨⟨t, rfl, rfl, ht⟩, by decide +kernel, rfl, by decide +kernel, by decide +kernel, by decide +kernel⟩

theorem witness_TimeoutAtMostOncePerPeriod :
    (armedAt 3#32 0xFFFF#32 0xFFFF#32).rxCnt.toNat ≤ (armedAt 3#32 0xFFFF#32 0xFFFF#32).params.rxPeriod.toNat ∧
    0x10000 ≤ (armedAt 3#32 0xFFFF#32 0xFFFF#32).params.rxPeriod.toNat + 1 := by decide +kernel

theorem witness_RxCounterStaysWithinItsPeriod :
    ∃ t, (given [.tick] (receiving 0xFFFFFFFF#32)).rxCnt.toNat ≤
        (given [.tick] (receiving 0xFFFFFFFF#32)).params.rxPeriod.toNat ∧
      step (given [.tick] (receiving 0xFFFFFFFF#32)) = .next t := by
  obtain ⟨t, ht, -⟩ := exists_of_after (o := step (given [.tick] (receiving 0xFFFFFFFF#32))) (holds := fun _ => true)
    (by decide +kernel)
  exact ⟨t, by decide +kernel, ht⟩

theorem witness_TxCallbackCommandsWriteTheirSlot :
    idle.hostReady ∧ idle.engine = .idle ∧ (receiving 0#32).hostReady ∧ (receiving 0#32).engine ≠ .idle :=
  ⟨ready_idle, rfl, ready_receiving _, by decide +kernel⟩

/-- `Idle` with every slot valid and the TX frequencies limited. -/
def limited : State := { idle with params := { Params.standard with txFreqMin := 10000#32, txFreqMax := 1000000#32 } }

theorem witness_TxStartReportsTheFirstFailingCheck :
    (receiving 0#32).hostReady ∧ (receiving 0#32).engine ≠ .idle ∧
    State.reset.hostReady ∧ State.reset.engine = .idle ∧ State.reset.cbData.valid = false ∧
    idle.hostReady ∧ idle.cbData.valid = true ∧ 65536 < (65537#24).toNat ∧
    limited.hostReady ∧ limited.engine = .idle ∧ limited.cbData.valid = true ∧
    65536#24 ≠ 0#24 ∧ (65536#24).toNat ≤ 65536 ∧ (9999#32).toNat < limited.params.txFreqMin.toNat ∧
    limited.params.txFreqMax.toNat < (1000001#32).toNat :=
  ⟨ready_receiving _, by decide +kernel, ⟨rfl, rfl⟩, rfl, rfl, ready_idle, rfl, by decide +kernel, ⟨rfl, rfl⟩, rfl, rfl, by decide +kernel, by decide +kernel,
    by decide +kernel, by decide +kernel⟩

/-- Two samples of `Ok`, of 1 and of 65536 cycles at 38000 Hz (F2, CV23), before an `Error`. -/
def goodAnswers : List AnswerWord := [answerWord .ok true 14#32, answerWord .ok false 1724631#32]

theorem goodAnswers_ok : ∀ a ∈ goodAnswers, (answerOf a).status = .ok ∧
    1 ≤ numCycles (answerOf a).duration.toNat (38000#32).toNat ∧
    numCycles (answerOf a).duration.toNat (38000#32).toNat ≤ 65536 :=
  List.forall_mem_cons.2 ⟨by decide +kernel, List.forall_mem_cons.2 ⟨by decide +kernel, List.forall_mem_nil _⟩⟩

theorem witness_TxStartProducerErrorKeepsTheRequests :
    ∃ (s : State) (good : List AnswerWord) (bad : AnswerWord) (rest : List AnswerWord),
      s.hostReady ∧ s.engine = .idle ∧ s.cbData.valid = true ∧ 1#24 ≠ 0#24 ∧ (1#24).toNat ≤ 65536 ∧
      s.params.txFreqMin.toNat ≤ (38000#32).toNat ∧ (38000#32).toNat ≤ s.params.txFreqMax.toNat ∧
      s.producer = good ++ bad :: rest ∧ good.length < s.params.txBufCap ∧
      (∀ a ∈ good, (answerOf a).status = .ok ∧ 1 ≤ numCycles (answerOf a).duration.toNat (38000#32).toNat ∧
        numCycles (answerOf a).duration.toNat (38000#32).toNat ≤ 65536) ∧
      (answerOf bad).status = .error :=
  ⟨answering (goodAnswers ++ [answerWord .error false 0#32]) idle, goodAnswers, answerWord .error false 0#32, [],
    ⟨rfl, rfl⟩, rfl, rfl, by decide +kernel, by decide +kernel, by decide +kernel, by decide +kernel, rfl,
    by decide +kernel, goodAnswers_ok, by decide +kernel⟩

theorem witness_TxStartCompletes :
    ∃ s : State, s.hostReady ∧ s.params.wf = true ∧ s.engine = .idle ∧ s.cbData.valid = true ∧
      65536#24 ≠ 0#24 ∧ (65536#24).toNat ≤ 65536 ∧
      s.params.txFreqMin.toNat ≤ (38000#32).toNat ∧ (38000#32).toNat ≤ s.params.txFreqMax.toNat ∧
      noErrorListed s ∧ listedAnswersEndFill 38000#32 s :=
  ⟨answering [answerWord .ok true 9000#32, answerWord .lastDone false 0#32] idle, ⟨rfl, rfl⟩, by decide +kernel, rfl, rfl,
    by decide +kernel, by decide +kernel, by decide +kernel, by decide +kernel,
    List.forall_mem_cons.2 ⟨by decide +kernel, List.forall_mem_cons.2 ⟨by decide +kernel, List.forall_mem_nil _⟩⟩,
    .inl ⟨answerWord .lastDone false 0#32, List.mem_cons_of_mem _ (List.mem_cons_self ..), .inl (by decide +kernel)⟩⟩

theorem witness_TxStartResultAndFrame :
    ∃ t, (answering [answerWord .lastDone true 560#32] idle).params.wf = true ∧
      exec (.txStart 38000#32 21627#24) (answering [answerWord .lastDone true 560#32] idle) = .next t ∧
      t.halted = false := by
  obtain ⟨t, ht, hh⟩ := exists_of_after
    (o := exec (.txStart 38000#32 21627#24) (answering [answerWord .lastDone true 560#32] idle))
    (holds := fun t => !t.halted) (by decide +kernel)
  exact ⟨t, by decide +kernel, ht, by simpa using hh⟩

theorem witness_TxStopIssueStep :
    (sending .asyncTx four two 0).hostReady ∧ (sending .asyncTx four two 0).engine = .asyncTx ∧
    stopped.hostReady ∧ txOrLater stopped.engine = true ∧ stopped.engine ≠ .asyncTx ∧
    (receiving 0#32).hostReady ∧ txOrLater (receiving 0#32).engine = false :=
  ⟨⟨rfl, rfl⟩, rfl, ready_stopped, rfl, by decide +kernel, ready_receiving _, rfl⟩

theorem witness_TxWaitTermIssueStep :
    stopped.hostReady ∧ txOrLater stopped.engine = true ∧ idle.hostReady ∧ txOrLater idle.engine = false :=
  ⟨ready_stopped, rfl, ready_idle, rfl⟩

theorem witness_CompletionFreesTheSession :
    ({ stopped with hostHeld := .wait } : State).hostHeld ≠ .free ∧ stopped.termSem = true ∧ stopped.hostHeld = .free ∧
    ({ sending .asyncTx four two 0 with hostHeld := .wait } : State).termSem = false := by
  exact ⟨by decide +kernel, rfl, rfl, rfl⟩

theorem witness_TxIsCompletePollsStopped :
    stopped.hostReady ∧ stopped.engine = .asyncTxStopped ∧ idle.hostReady ∧ idle.engine ≠ .asyncTxStopped :=
  ⟨ready_stopped, rfl, ready_idle, by decide +kernel⟩

/-- A fill that splits a sample and leaves a remainder (F8), and one that ends in the forced entry (F5). -/
theorem witness_FillConservesEveryTick :
    (∃ t, (filling 2 [answerWord .ok true 6000000#32]).bufValid = true ∧
      (filling 2 [answerWord .ok true 6000000#32]).params.wf = true ∧
      fill .b1 (filling 2 [answerWord .ok true 6000000#32]) = .filled t) ∧
    ∃ t, (filling 4 [answerWord .lastDone false 0#32]).bufValid = true ∧
      (filling 4 [answerWord .lastDone false 0#32]).params.wf = true ∧
      fill .b1 (filling 4 [answerWord .lastDone false 0#32]) = .filled t := by
  obtain ⟨t, ht, -⟩ := exists_of_filled (r := fill .b1 (filling 2 [answerWord .ok true 6000000#32]))
    (holds := fun _ => true) (by decide +kernel)
  obtain ⟨u, hu, -⟩ := exists_of_filled (r := fill .b1 (filling 4 [answerWord .lastDone false 0#32]))
    (holds := fun _ => true) (by decide +kernel)
  exact ⟨⟨t, rfl, by decide +kernel, ht⟩, u, rfl, by decide +kernel, hu⟩

/-- The answers of F4, a `Done` of no cycle swallowed; of F3, one that ends the fill; and of a held `Done` left over. -/
def endings : List (List AnswerWord) :=
  [[answerWord .done false 5#32, answerWord .ok true 560#32, answerWord .done false 560#32],
   [answerWord .ok true 560#32, answerWord .done false 5#32],
   [answerWord .done true 12000000#32]]

theorem witness_FillRecordsTheEndOfThePacket :
    ∀ l ∈ endings, ∃ t, (filling 4 l).bufValid = true ∧ (filling 4 l).params.wf = true ∧
      fill .b1 (filling 4 l) = .filled t ∧ t.callouts = l.map (fun a => .dataReq dataCtx (answerOf a)) ∧
      (t.restDuration ≠ 0#64 ↔ l = [answerWord .done true 12000000#32]) := by
  have key : ∀ l, filledWith (fill .b1 (filling 4 l)) (fun t => decide (
      t.callouts = l.map (fun a => .dataReq dataCtx (answerOf a)) ∧
      (t.restDuration ≠ 0#64 ↔ l = [answerWord .done true 12000000#32]))) = true → ∃ t, (filling 4 l).bufValid = true ∧
      (filling 4 l).params.wf = true ∧ fill .b1 (filling 4 l) = .filled t ∧
      t.callouts = l.map (fun a => .dataReq dataCtx (answerOf a)) ∧
      (t.restDuration ≠ 0#64 ↔ l = [answerWord .done true 12000000#32]) := by
    intro l h
    obtain ⟨t, ht, hh⟩ := exists_of_filled h
    exact ⟨t, rfl, rfl, ht, of_decide_eq_true hh⟩
  intro l hl
  simp only [endings, List.mem_cons, List.not_mem_nil, or_false] at hl
  rcases hl with rfl | rfl | rfl <;> exact key _ (by decide +kernel)

/-- The hypotheses of the other statements about a fill that returns. -/
theorem witness_FillTicksAddUp_FillLeavesTheRestAlone :
    ∃ b s t, State.bufValid s = true ∧ s.params.wf = true ∧ fill b s = .filled t := by
  obtain ⟨⟨t, h1, h2, h3⟩, -⟩ := witness_FillConservesEveryTick
  exact ⟨_, _, t, h1, h2, h3⟩

/-- A remainder of exactly two entries in a buffer of two (F9). -/
theorem witness_RemainderIsDrainedBeforeAnyRequest :
    ({ filling 2 [] with restDuration := 96929#64 } : State).bufValid = true ∧
    ({ filling 2 [] with restDuration := 96929#64 } : State).params.wf = true ∧
    ({ filling 2 [] with restDuration := 96929#64 } : State).params.txBufCap ≤
      splitCount ({ filling 2 [] with restDuration := 96929#64 } : State).restDuration.toNat := by decide +kernel

theorem witness_FlushBufferIsTwoLowEntries :
    (sending .asyncTx four two 3).bufValid = true ∧ (sending .asyncTx four two 3).params.wf = true := by decide +kernel

theorem witness_PlayMovesOneEntryWhileEnabled :
    idle.txEn = false ∧
    (∃ u, (sending .asyncTx four two 4).txEn = true ∧ (sending .asyncTx four two 4).buf .b0 = some u ∧ u.count ≤ 4) ∧
    (∃ u e, (sending .asyncTx four two 2).txEn = true ∧ (sending .asyncTx four two 2).buf .b0 = some u ∧ 2 + 1 < u.count ∧
      (sending .asyncTx four two 2).bufRead .b0 2 = some e ∧ 2 + 1 ≠ (u.count + 1) / 2) ∧
    ∃ u e, (sending .asyncTxLast four two 1).txEn = true ∧ (sending .asyncTxLast four two 1).buf .b0 = some u ∧
      1 + 1 < u.count ∧ (sending .asyncTxLast four two 1).bufRead .b0 1 = some e ∧
      (sending .asyncTxLast four two 1).engine ≠ .asyncTx :=
  ⟨rfl, ⟨four, rfl, rfl, by decide +kernel⟩, ⟨four, ⟨true, 20#16⟩, rfl, rfl, by decide +kernel, by decide +kernel, by decide +kernel⟩,
    four, ⟨false, 170#16⟩, rfl, rfl, by decide +kernel, by decide +kernel, by decide +kernel⟩

/-- The half-transfer point of `two` with this producer. -/
def halfway (l : List AnswerWord) : State := answering l (sending .asyncTx two Buffer.fresh 0)

/-- `halfway` as the half-transfer service finds it. -/
def halfwayMoved (l : List AnswerWord) : State :=
  { halfway l with
    txLevel := true, txArr := 20#16, dmaPos := (halfway l).dmaPos + 1, txTrace := (halfway l).txTrace ++ [⟨true, 20#16⟩] }

theorem witness_HalfTransferRefillsTheOtherBuffer :
    (∀ l, (halfway l).txEn = true ∧ (halfway l).buf (halfway l).dmaBuf = some two ∧ 2 ≤ two.count ∧
      (halfway l).dmaPos + 1 = (two.count + 1) / 2 ∧ (halfway l).bufRead (halfway l).dmaBuf (halfway l).dmaPos =
        some ⟨true, 20#16⟩ ∧ (halfway l).engine = .asyncTx) ∧
    (∃ m, fill (otherBuf .b0) (halfwayMoved [answerWord .lastDone true 560#32]) = .filled m) ∧
    ∃ r, fill (otherBuf .b0) (halfwayMoved [answerWord .error true 560#32]) = .producerError r := by
  obtain ⟨t, ht, -⟩ := exists_of_filled (r := fill (otherBuf .b0) (halfwayMoved [answerWord .lastDone true 560#32]))
    (holds := fun _ => true) (by decide +kernel)
  obtain ⟨u, hu, -⟩ := exists_of_failed (r := fill (otherBuf .b0) (halfwayMoved [answerWord .error true 560#32]))
    (holds := fun _ => true) (by decide +kernel)
  exact ⟨fun _ => ⟨rfl, rfl, by decide +kernel, (show 0 + 1 = (2 + 1) / 2 from rfl), rfl, rfl⟩, ⟨t, ht⟩, u, hu⟩

theorem witness_TransferCompleteHandsOver :
    (∀ e, (sending e four two 3).params.wf = true ∧ (sending e four two 3).txEn = true ∧
      (sending e four two 3).buf .b0 = some four ∧ 3 + 1 = four.count ∧
      (sending e four two 3).bufRead .b0 3 = some ⟨false, 20#16⟩ ∧ 2 ≤ four.count) ∧
    (sending .asyncTxStopInProgress four two 3).engine = .asyncTxStopInProgress ∧
    ((sending .asyncTxLast flush two 1).engine ≠ .asyncTxStopInProgress ∧ flush.lastPacketEnd = true) ∧
    (sending .asyncTxStopRequested four two 3).engine = .asyncTxStopRequested ∧
    (sending .asyncTx four two 3).engine = .asyncTx ∧ four.lastPacketEnd = false :=
  ⟨fun _ => ⟨rfl, rfl, rfl, by decide +kernel, rfl, by decide +kernel⟩, rfl, ⟨by decide +kernel, rfl⟩, rfl, rfl, rfl⟩

/-- A buffer of one entry. -/
def one : Buffer := bufferOf [⟨true, 20#16⟩] false false

/-- S13: a one-entry buffer in `AsyncTx`. -/
def oneEntry : State := answering [answerWord .lastDone true 560#32] (sending .asyncTx one Buffer.fresh 0)

theorem witness_OneEntryBufferRefillsThenHandsOver :
    (∃ m, oneEntry.txEn = true ∧ oneEntry.buf oneEntry.dmaBuf = some one ∧ one.count = 1 ∧ oneEntry.dmaPos = 0 ∧
      oneEntry.bufRead oneEntry.dmaBuf 0 = some ⟨true, 20#16⟩ ∧ oneEntry.engine = .asyncTx ∧ one.lastPacketEnd = false ∧
      fill (otherBuf oneEntry.dmaBuf) { oneEntry with
        txLevel := true, txArr := 20#16, dmaPos := 1, txTrace := oneEntry.txTrace ++ [⟨true, 20#16⟩] } = .filled m) ∧
    ∃ r, fill (otherBuf oneEntry.dmaBuf) { answering [answerWord .error true 560#32] oneEntry with
      txLevel := true, txArr := 20#16, dmaPos := 1, txTrace := oneEntry.txTrace ++ [⟨true, 20#16⟩] } = .producerError r := by
  obtain ⟨m, hm, -⟩ := exists_of_filled
    (r := fill (otherBuf oneEntry.dmaBuf) { oneEntry with
      txLevel := true, txArr := 20#16, dmaPos := 1, txTrace := oneEntry.txTrace ++ [⟨true, 20#16⟩] })
    (holds := fun _ => true) (by decide +kernel)
  obtain ⟨r, hr, -⟩ := exists_of_failed
    (r := fill (otherBuf oneEntry.dmaBuf) { answering [answerWord .error true 560#32] oneEntry with
      txLevel := true, txArr := 20#16, dmaPos := 1, txTrace := oneEntry.txTrace ++ [⟨true, 20#16⟩] })
    (holds := fun _ => true) (by decide +kernel)
  exact ⟨⟨m, rfl, rfl, rfl, rfl, rfl, rfl, rfl, hm⟩, r, hr⟩

/-- The end of a packet's buffer: a signal-sent record is due. -/
def packetEnds : State := given [.play] (sending .asyncTx four two 3)

theorem witness_SignalSentOncePerFinishedPacket :
    ∃ t, packetEnds.halted = false ∧ step packetEnds = .next t ∧ packetEnds.inputs.head? ≠ some .reset ∧
      t.halted = false := by
  obtain ⟨t, ht, hh⟩ := exists_of_after (o := step packetEnds) (holds := fun t => !t.halted) (by decide +kernel)
  exact ⟨t, rfl, ht, by decide +kernel, by simpa using hh⟩

theorem witness_EveryStepKeepsTheInvariant :
    ∃ t, (sending .asyncTx four Buffer.fresh 1).Inv ∧ step (sending .asyncTx four Buffer.fresh 1) = .next t :=
  ⟨_, sending_inv, rfl⟩

theorem canonical_packetEnds : packetEnds.memoriesCanonical := by
  intro b u h
  cases b
  · have : some four = some u := h
    cases this; decide +kernel
  · have : some two = some u := h
    cases this; decide +kernel

theorem witness_EveryStepKeepsMemoriesCanonical :
    ∃ t, packetEnds.memoriesCanonical ∧ step packetEnds = .next t := by
  obtain ⟨t, ht, -⟩ := exists_of_after (o := step packetEnds) (holds := fun _ => true) (by decide +kernel)
  exact ⟨t, canonical_packetEnds, ht⟩

/-- The hypotheses of the statements about every step, from a state with the invariant. -/
theorem witness_OnlyListedTransitionsHappen_PlayGoesOnThroughoutASession :
    (∃ t, State.reset.Inv ∧ step State.reset = .next t) ∧
    (sending .asyncTx four Buffer.fresh 1).Inv ∧ txActive (sending .asyncTx four Buffer.fresh 1).engine = true :=
  ⟨⟨_, reset_inv, rfl⟩, sending_inv, rfl⟩

theorem witness_SlotsChangeOnlyByTheirCommandInIdle :
    (∃ t, step (given [wordWrite 0x13000001CAFE0001#64] State.reset) = .next t ∧ t.cbCap ≠ State.reset.cbCap) ∧
    (∃ t, step (given [wordWrite 0x14000001CAFE0002#64] State.reset) = .next t ∧ t.cbTmo ≠ State.reset.cbTmo) ∧
    (∃ t, step (given [wordWrite 0x20000001D0D00001#64] State.reset) = .next t ∧ t.cbData ≠ State.reset.cbData) ∧
    ∃ t, step (given [wordWrite 0x21000001D0D00002#64] State.reset) = .next t ∧ t.cbSent ≠ State.reset.cbSent := by
  have key : ∀ (w : Word) (f : State → CbSlot), after (step (given [wordWrite w] State.reset))
      (fun t => decide (f t ≠ f State.reset)) = true →
      ∃ t, step (given [wordWrite w] State.reset) = .next t ∧ f t ≠ f State.reset := by
    intro w f h
    obtain ⟨t, ht, hh⟩ := exists_of_after h
    exact ⟨t, ht, by simpa using hh⟩
  exact ⟨key _ (·.cbCap) (by decide +kernel), key _ (·.cbTmo) (by decide +kernel), key _ (·.cbData) (by decide +kernel),
    key _ (·.cbSent) (by decide +kernel)⟩

theorem witness_RegistersChangeOnlyByTheirWriters :
    (∃ t, step (given [wordWrite 0x2500000000000000#64] stopped) = .next t ∧ t.resp ≠ stopped.resp) ∧
    (∃ t, step (given [.fall] idle) = .next t ∧ t.rxPin ≠ idle.rxPin) ∧
    (∃ t, step (given [wordWrite 0x2200547B00009470#64] (answering [answerWord .lastDone true 560#32] idle)) = .next t ∧
      t.freq ≠ idle.freq) ∧
    ∃ t, step (given [wordWrite 0x12000000000249F0#64] (receiving 0#32)) = .next t ∧ t.rxCcr3 ≠ 0#32 := by
  have key : ∀ (s : State) (p : State → Prop) (q : State → Bool), (∀ t, q t = true → p t) → after (step s) q = true →
      ∃ t, step s = .next t ∧ p t := by
    intro s p q hq h
    obtain ⟨t, ht, hh⟩ := exists_of_after h
    exact ⟨t, ht, hq t hh⟩
  exact ⟨key _ _ (fun t => decide (t.resp ≠ stopped.resp)) (fun _ h => of_decide_eq_true h) (by decide +kernel),
    key _ _ (fun t => decide (t.rxPin ≠ idle.rxPin)) (fun _ h => of_decide_eq_true h) (by decide +kernel),
    key _ _ (fun t => decide (t.freq ≠ idle.freq)) (fun _ h => of_decide_eq_true h) (by decide +kernel),
    key _ _ (fun t => decide (t.rxCcr3 ≠ 0#32)) (fun _ h => of_decide_eq_true h) (by decide +kernel)⟩

theorem witness_HistoriesOnlyGrow : ∃ t, step packetEnds = .next t ∧ t.txTrace ≠ packetEnds.txTrace := by
  obtain ⟨t, ht, hh⟩ := exists_of_after (o := step packetEnds)
    (holds := fun t => decide (t.txTrace ≠ packetEnds.txTrace)) (by decide +kernel)
  exact ⟨t, ht, by simpa using hh⟩

theorem witness_ProducerIsAskedOnlyWhileDataIsDue : ∃ t, step failing = .next t ∧ t.producer ≠ failing.producer := by
  obtain ⟨t, ht, hh⟩ := exists_of_after (o := step failing)
    (holds := fun t => decide (t.producer ≠ failing.producer)) (by decide +kernel)
  exact ⟨t, ht, by simpa using hh⟩

/-- The state with `TX_STOP`, the `Play` steps still due and the completion step supplied. -/
def winding (s : State) : State :=
  given (.portWrite (encodeBytes .txStop) :: (List.replicate s.windDownEntries.length .play ++ [.complete])) s

theorem winding_inv {s : State} (h : s.Inv) : (winding s).Inv := by
  obtain ⟨h1, h2, h3, h4, h5, h6, h7, h8, h9, h10, h11, h12, h13⟩ := h
  exact ⟨h1, h2, h3, h4, h5, h6, h7, h8, h9, h10, h11, fun h => ⟨(h12 h).1, (h12 h).2, (h12 h).3, (h12 h).4⟩, h13⟩

/-- The last packet's buffer. -/
def lastOne : Buffer := bufferOf [⟨true, 20#16⟩] true true

theorem playable_two : two.Playable 4 :=
  ⟨by decide +kernel, by decide +kernel, fun i hi => by have : i < 2 := hi; interval_cases i <;> rfl, fun h => absurd h (by decide +kernel)⟩

theorem playable_lastOne : lastOne.Playable 4 :=
  ⟨by decide +kernel, by decide +kernel, fun i hi => by have : i < 1 := hi; interval_cases i; rfl, fun _ => rfl⟩

theorem playable_flush : flush.Playable 4 :=
  ⟨by decide +kernel, by decide +kernel, fun i hi => by have : i < 2 := hi; interval_cases i <;> rfl, fun _ => rfl⟩

/-- In `AsyncTxLast`, the last packet in the other buffer. -/
def beforeLast : State := sending .asyncTxLast two lastOne 1

theorem beforeLast_inv : beforeLast.Inv := by
  refine ⟨by decide +kernel, fun _ => ⟨rfl, rfl⟩, by decide +kernel, rfl, rfl, rfl, fun _ => rfl, by decide +kernel, fun h => absurd h (by decide +kernel),
    fun h => absurd rfl h, fun h => absurd rfl h, fun _ => ⟨⟨two, rfl, playable_two, by decide +kernel⟩, fun h => absurd h (by decide +kernel),
    fun _ => ⟨two, lastOne, rfl, rfl, .inr ⟨playable_lastOne, rfl⟩⟩, fun h => absurd h (by decide +kernel)⟩, fun h => absurd h (by decide +kernel)⟩

/-- In `AsyncTxLast`, the last packet's buffer playing. -/
def inLast : State := sending .asyncTxLast lastOne two 0

theorem inLast_inv : inLast.Inv := by
  refine ⟨by decide +kernel, fun _ => ⟨rfl, rfl⟩, by decide +kernel, rfl, rfl, rfl, fun _ => rfl, by decide +kernel, fun h => absurd h (by decide +kernel),
    fun h => absurd rfl h, fun h => absurd rfl h, fun _ => ⟨⟨lastOne, rfl, playable_lastOne, by decide +kernel⟩, fun h => absurd h (by decide +kernel),
    fun _ => ⟨lastOne, two, rfl, rfl, .inl rfl⟩, fun h => absurd h (by decide +kernel)⟩, fun h => absurd h (by decide +kernel)⟩

/-- A stop asked for. -/
def stopAsked : State := sending .asyncTxStopRequested two four 0

theorem stopAsked_inv : stopAsked.Inv := by
  refine ⟨by decide +kernel, fun _ => ⟨rfl, rfl⟩, by decide +kernel, rfl, rfl, rfl, fun _ => rfl, by decide +kernel, fun h => absurd h (by decide +kernel),
    fun h => absurd rfl h, fun h => absurd rfl h, fun _ => ⟨⟨two, rfl, playable_two, by decide +kernel⟩, fun h => absurd h (by decide +kernel),
    fun h => absurd h (by decide +kernel), fun h => absurd h (by decide +kernel)⟩, fun h => absurd h (by decide +kernel)⟩

/-- The flush buffer's second entry still to play. -/
def flushing : State := { sending .asyncTxStopInProgress flush four 1 with txTrace := [flushEntry] }

theorem flushing_inv : flushing.Inv := by
  refine ⟨by decide +kernel, fun _ => ⟨rfl, rfl⟩, by decide +kernel, rfl, rfl, rfl, fun _ => rfl, by decide +kernel, fun h => absurd h (by decide +kernel),
    fun h => absurd rfl h, fun h => absurd rfl h, fun _ => ⟨⟨flush, rfl, playable_flush, by decide +kernel⟩, fun h => absurd h (by decide +kernel),
    fun h => absurd h (by decide +kernel), fun _ => ⟨flush, rfl, ⟨rfl, rfl, rfl⟩, fun _ => ⟨[], rfl⟩⟩⟩, fun h => absurd h (by decide +kernel)⟩

theorem stopped_inv : stopped.Inv := by
  refine ⟨by decide +kernel, fun _ => ⟨rfl, rfl⟩, by decide +kernel, rfl, rfl, rfl, fun _ => rfl, by decide +kernel, fun h => absurd h (by decide +kernel),
    fun h => absurd rfl h, fun h => absurd rfl h, fun h => absurd h (by decide +kernel), fun _ => ⟨[], rfl⟩⟩

theorem witness_StopReturnsToIdle :
    ∀ s ∈ [sending .asyncTx four Buffer.fresh 1, beforeLast, inLast, stopAsked, flushing, stopped],
      (winding s).Inv ∧ (winding s).hostReady ∧ txOrLater (winding s).engine = true ∧
      (winding s).inputs = .portWrite (encodeBytes .txStop) ::
        (List.replicate (winding s).windDownEntries.length .play ++ .complete :: []) := by
  intro s hs
  simp only [List.mem_cons, List.not_mem_nil, or_false] at hs
  rcases hs with rfl | rfl | rfl | rfl | rfl | rfl
  · exact ⟨winding_inv sending_inv, ⟨rfl, rfl⟩, rfl, rfl⟩
  · exact ⟨winding_inv beforeLast_inv, ⟨rfl, rfl⟩, rfl, rfl⟩
  · exact ⟨winding_inv inLast_inv, ⟨rfl, rfl⟩, rfl, rfl⟩
  · exact ⟨winding_inv stopAsked_inv, ⟨rfl, rfl⟩, rfl, rfl⟩
  · exact ⟨winding_inv flushing_inv, ⟨rfl, rfl⟩, rfl, rfl⟩
  · exact ⟨winding_inv stopped_inv, ⟨rfl, rfl⟩, rfl, rfl⟩

/-- What is still due, by hand from R87, R89 and R90. -/
theorem test_wind_down_entries :
    (sending .asyncTx four Buffer.fresh 1).windDownEntries =
      [⟨false, 170#16⟩, ⟨true, 20#16⟩, ⟨false, 20#16⟩, flushEntry, flushEntry] ∧
    beforeLast.windDownEntries = [⟨false, 20#16⟩, ⟨true, 20#16⟩, flushEntry, flushEntry] ∧
    beforeLast.windDownPackets = 1 ∧ inLast.windDownPackets = 1 ∧
    flushing.windDownEntries = [flushEntry] ∧ stopped.windDownEntries = [] := by decide +kernel

theorem witness_ResetStepRestoresTheResetValues : ∃ (s : State) (rest : List Input), s.inputs = .reset :: rest :=
  ⟨given [.reset, .tick] { receiving 7#32 with halted := true }, [.tick], rfl⟩

end Sys2Proof.Tests
end

namespace Sys2Proof.Machine

/-! ## Steps of a block that is not halted -/

/-- A block that is not halted takes the first step supplied (R40, log 3). -/
theorem step_eq_takeInput {s : State} {i : Input} {rest : List Input} (running : s.halted = false)
    (supplied : s.inputs = i :: rest) : step s = takeInput i { s with inputs := rest } := by
  simp only [step, takeStep, running, supplied, Bool.false_eq_true, if_false, State.withInputs]

/-- A block that is not halted waits where no step is supplied (R104, log 4). -/
theorem step_eq_self {s : State} (running : s.halted = false) (unsupplied : s.inputs = []) : step s = .next s := by
  simp only [step, takeStep, running, unsupplied, Bool.false_eq_true, if_false]

/-- Settles O8: the first supplied step is taken, whichever agent's it is, and the block waits where none is supplied. -/
theorem stepTakesTheSuppliedStep : Obligations.StepTakesTheSuppliedStep := by
  intro s rest running
  have takes (i : Input) (supplied : s.inputs = i :: rest) : step s = takeInput i { s with inputs := rest } :=
    step_eq_takeInput running supplied
  exact ⟨takes .complete, takes .tick, takes .rise, takes .fall, takes .play, step_eq_self running⟩

end Sys2Proof.Machine

namespace Sys2Proof.Machine

/-! ## The invariant -/

/-- The step of any agent keeps the invariant. -/
theorem inv_takeInput {i : Input} {s t : State} (inv : s.Inv) (taken : takeInput i s = .next t) : t.Inv := by
  cases i with
  | portWrite bytes =>
    rcases hostWrite_next taken with ⟨c, -, run⟩ | ⟨-, -, rfl⟩
    · exact inv_exec inv run
    · exact inv_fatal inv _ _ (.inl rfl)
  | complete => exact inv_complete inv taken
  | tick => cases taken; exact inv_tick inv
  | rise => exact inv_rise inv taken
  | fall => exact inv_fall inv taken
  | play => exact inv_play inv taken
  | reset => cases taken; exact inv_resetBlock inv

/-- Settles O49: a step is a reset, a wait or the step of one agent, and each keeps the invariant. -/
theorem everyStepKeepsTheInvariant : Obligations.EveryStepKeepsTheInvariant := by
  intro s t inv h
  rcases step_cases h with ⟨rest, rfl⟩ | ⟨-, rfl⟩ | ⟨-, i, rest, -, -, taken⟩
  · exact inv_resetBlock (inv_withInputs inv rest)
  · exact inv
  · exact inv_takeInput (inv_withInputs inv rest) taken

/-- The state after reset has the invariant: it is idle, so no clause on a session applies (R30). -/
theorem inv_reset : State.reset.Inv where
  params := by decide
  faultRegs _ := ⟨rfl, rfl⟩
  termSem := by decide
  semValid := rfl
  bufValid := rfl
  txEn := rfl
  txLevel _ := rfl
  rxEn := by decide
  armed := by decide
  held := by decide
  restStatus := by decide
  streaming active := nomatch active
  stopped engine := nomatch engine

/-- Settles O48: nothing is allocated after reset and the counter is 0. -/
theorem resetEstablishesTheInvariants : Obligations.ResetEstablishesTheInvariants := by
  refine ⟨inv_reset, ?_, by decide, ?_⟩
  · intro b u allocated
    nomatch allocated
  · intro b
    cases b <;> rfl

/-- Settles O59: every register the table of R30 names, read off `State.reset`. -/
theorem resetValuesAreThoseOfTheTable : Obligations.ResetValuesAreThoseOfTheTable := by
  unfold Obligations.ResetValuesAreThoseOfTheTable
  decide

/-- Settles O60: state by state. -/
theorem engineCodesAreThoseOfTheTable : Obligations.EngineCodesAreThoseOfTheTable := by
  refine ⟨rfl, rfl, rfl, rfl, rfl, rfl, rfl, fun e => ?_, fun e => ?_, fun e => ?_, rfl, fun e => ?_⟩
  all_goals cases e <;> decide

/-! ## A held command -/

/-- While a command is held the port's gate is shut (R13, R52). -/
theorem hostGate_of_held {s : State} (issue : State → Result) (running : s.halted = false) (held : s.hostHeld ≠ .free) :
    hostGate s issue = .refused .hostSuspended := by
  unfold hostGate
  rw [running]
  cases h : s.hostHeld with
  | free => exact absurd h held
  | stop | wait => rfl

/-- Every command begins at the gate (R52), so none runs while one is held. -/
theorem exec_of_held {s : State} (i : Instr) (running : s.halted = false) (held : s.hostHeld ≠ .free) :
    exec i s = .refused .hostSuspended := by
  cases i <;>
    simp only [exec, execRxStart, execRxStop, execRxSetTimeout, execRxSetCaptureCb, execRxSetTimeoutCb, execTxSetDataCb,
      execTxSetSentCb, execTxStart, execTxStop, execTxWaitTerm, execTxIsComplete, issueCommand,
      hostGate_of_held _ running held]

/-- A word is never rejected for its length (R35). -/
theorem decode_ne_notEightBytes (w : Word) : decode w ≠ .reject .notEightBytes := by
  unfold decode
  split
  · nofun
  · split <;> nofun

/-- A word written while a command is held is refused, legal or not. -/
theorem hostWrite_of_held {s : State} (w : Word) (running : s.halted = false) (held : s.hostHeld ≠ .free) :
    hostWrite (bytesOfWord w) s = .refused .hostSuspended := by
  unfold hostWrite
  rw [decodeBytes_bytesOfWord]
  cases h : decode w with
  | instr i => exact exec_of_held i running held
  | reject why =>
    cases why with
    | notEightBytes => exact absurd h (decode_ne_notEightBytes w)
    | unassignedOpcode | reservedBitSet => exact hostGate_of_held _ running held

/-- Settles O14: the gate refuses the commands, and the word is taken to the gate. -/
theorem heldHostIssuesNothing : Obligations.HeldHostIssuesNothing := by
  intro s running held
  refine ⟨fun i => exec_of_held i running held, fun w rest supplied => ?_⟩
  rw [step_eq_takeInput running supplied]
  exact hostWrite_of_held (s := { s with inputs := rest }) w running held

/-! ## What a supplied step can have done -/

/-- Every way a write to the port that answers a next state can have gone: the block halted and kept all else but the
producer port and the callouts (R95), or a command in its legal state had its effect. -/
theorem hostWrite_outcome {bytes : List Byte} {s t : State} (h : hostWrite bytes s = .next t) :
    (∃ l, t = { s with
      halted := true, faultCause := t.faultCause, faultOp := t.faultOp, producer := t.producer, draws := t.draws,
      callouts := s.callouts ++ l }) ∨
    (∃ c, decodeBytes bytes = .instr c ∧ legalState c s.engine = true ∧ Commanded c s t ∧ t.halted = false) := by
  rcases write_outcome h with ⟨c, decoded, run⟩ | ⟨-, w, -, -, rfl⟩
  · obtain ⟨-, ⟨-, l, -, -, halt, -⟩ | ⟨legal, did, running⟩⟩ := exec_outcome run
    · exact .inl ⟨l, halt⟩
    · exact .inr ⟨c, decoded, legal, did, running⟩
  · exact .inl ⟨[], by simp [raiseFatal]⟩

/-- `TX_START` that does not halt has started a session (R75). -/
theorem txStart_launched {f : Count} {d : BitVec 24} {s t : State} (did : Commanded (.txStart f d) s t)
    (running : t.halted = false) : ∃ m, fill .b0 (armTx f d s) = .filled m ∧ t = launchTx m := by
  rcases did with ⟨-, rfl⟩ | ⟨-, -, rfl⟩ | ⟨-, -, -, rfl⟩ | ⟨-, -, -, ⟨r, -, rfl⟩ | launched⟩
  · nomatch running
  · nomatch running
  · nomatch running
  · nomatch running
  · exact launched

/-! ## The registers with few writers -/

/-- The four callback slots (R15). -/
inductive Slot where
  | cap | tmo | data | sent

/-- The command that writes a slot (R61, R62, R73, R74). -/
def Slot.command : Slot → Bool → Count → Instr
  | .cap => .rxSetCaptureCb
  | .tmo => .rxSetTimeoutCb
  | .data => .txSetDataCb
  | .sent => .txSetSentCb

/-- The parameters, and the registers only commands and the pin write (R13, R15, R16, R18, R19). -/
structure Registers where
  params : Params
  resp   : BitVec 32
  cbCap  : CbSlot
  cbTmo  : CbSlot
  cbData : CbSlot
  cbSent : CbSlot
  rxPin  : Bool
  freq   : Count
  duty   : BitVec 24
  rxCcr3 : Count

/-- The registers as a state holds them. -/
def State.registers (s : State) : Registers :=
  { params := s.params, resp := s.resp, cbCap := s.cbCap, cbTmo := s.cbTmo, cbData := s.cbData, cbSent := s.cbSent,
    rxPin := s.rxPin, freq := s.freq, duty := s.duty, rxCcr3 := s.rxCcr3 }

/-- A slot among the registers. -/
def Registers.slot (r : Registers) : Slot → CbSlot
  | .cap => r.cbCap
  | .tmo => r.cbTmo
  | .data => r.cbData
  | .sent => r.cbSent

/-- The registers as a command in its legal state leaves them, `STATE` being `e` (R58 to R62, R73 to R79). -/
def registersAfter (c : Instr) (e : EngineState) (r : Registers) : Registers :=
  match c with
  | .rxStart => { r with rxCcr3 := 0#32 }
  | .rxSetTimeout us => { r with rxCcr3 := us }
  | .rxSetCaptureCb v x => { r with cbCap := { valid := v, ctx := x } }
  | .rxSetTimeoutCb v x => { r with cbTmo := { valid := v, ctx := x } }
  | .txSetDataCb v x => { r with cbData := { valid := v, ctx := x } }
  | .txSetSentCb v x => { r with cbSent := { valid := v, ctx := x } }
  | .txStart f d => { r with freq := f, duty := d }
  | .txIsComplete => { r with resp := if e = .asyncTxStopped then 1#32 else 0#32 }
  | .rxStop | .txStop | .txWaitTerm => r

theorem commanded_registers {c : Instr} {s t : State} (did : Commanded c s t) (running : t.halted = false) :
    t.registers = registersAfter c s.engine s.registers := by
  cases c with
  | txStart f d =>
    obtain ⟨m, filled, rfl⟩ := txStart_launched did running
    rw [(launched_eq filled).2]
    rfl
  | _ =>
    simp only [Commanded] at did
    subst did
    rfl

/-- A `Play` step keeps the registers, whether it halts the block or not (R88, R95). -/
theorem play_registers {s t : State} (h : play s = .next t) : t.registers = s.registers := by
  obtain ⟨u, e, l, -, -, -, -, -, -, ⟨-, -, halt⟩ | ⟨outside, -⟩⟩ := play_frame h
  · rw [halt]
    rfl
  · exact field_of_outsidePlay State.registers outside

/-- Every way a step from `s` to `t` can have written the registers: by the reset, at most the pin, by an edge, or by a
command in its legal state. -/
inductive RegisterStep (s t : State) : Prop
  | reset (form : t = resetBlock { s with inputs := t.inputs })
  | pin (p : Bool) (wrote : t.registers = { s.registers with rxPin := p })
      (edge : p ≠ s.rxPin → (s.inputs.head? = some .rise ∧ p = true) ∨ (s.inputs.head? = some .fall ∧ p = false))
  | command (bytes : List Byte) (c : Instr) (supplied : s.inputs.head? = some (.portWrite bytes))
      (decoded : decodeBytes bytes = .instr c) (legal : legalState c s.engine = true)
      (wrote : t.registers = registersAfter c s.engine s.registers)

theorem RegisterStep.kept {s t : State} (same : t.registers = s.registers) : RegisterStep s t :=
  .pin s.rxPin same fun moved => absurd rfl moved

theorem step_registers {s t : State} (h : step s = .next t) : RegisterStep s t := by
  rcases step_cases h with ⟨rest, reset⟩ | ⟨-, rfl⟩ | ⟨-, i, rest, supplied, noReset, taken⟩
  · exact .reset (reset_form reset)
  · exact .kept rfl
  have head : s.inputs.head? = some i := by rw [supplied, List.head?_cons]
  cases i with
  | portWrite bytes =>
    rcases hostWrite_outcome taken with ⟨l, halt⟩ | ⟨c, decoded, legal, did, running⟩
    · exact .kept (by rw [halt]; rfl)
    · exact .command bytes c head decoded legal (commanded_registers (s := { s with inputs := rest }) did running)
  | complete => exact .kept (by rw [(complete_next taken).2]; rfl)
  | tick => cases taken; exact .kept (by rw [tick_frame]; rfl)
  | rise =>
    obtain ⟨-, ⟨-, rfl⟩ | ⟨-, rfl⟩⟩ := rise_next taken <;> exact .pin true rfl fun _ => .inl ⟨head, rfl⟩
  | fall =>
    obtain ⟨-, ⟨-, rfl⟩ | ⟨-, rfl⟩⟩ := fall_next taken <;> exact .pin false rfl fun _ => .inr ⟨head, rfl⟩
  | play => exact .kept (play_registers (s := { s with inputs := rest }) taken)
  | reset => exact absurd rfl noReset

/-! ### Which command writes which register -/

/-- A slot's command is legal in `Idle` only (R80). -/
theorem engine_idle_of_slotCommand {k : Slot} {v : Bool} {x : Count} {e : EngineState}
    (legal : legalState (k.command v x) e = true) : e = .idle := by
  rw [legalState_eq] at legal
  cases k <;> exact of_decide_eq_true legal

/-- `TX_START` is legal in `Idle` only (R80). -/
theorem engine_idle_of_txStart {f : Count} {d : BitVec 24} {e : EngineState}
    (legal : legalState (.txStart f d) e = true) : e = .idle := by
  rw [legalState_eq] at legal
  exact of_decide_eq_true legal

section
variable {c : Instr} {e : EngineState} {r : Registers}

/-- A slot is written by its own command only, with the operands (R15). -/
theorem command_eq_of_slot_ne {k : Slot} (changed : (registersAfter c e r).slot k ≠ r.slot k) :
    c = k.command ((registersAfter c e r).slot k).valid ((registersAfter c e r).slot k).ctx := by
  cases k with
  | cap => cases c with | rxSetCaptureCb v x => rfl | _ => exact absurd rfl changed
  | tmo => cases c with | rxSetTimeoutCb v x => rfl | _ => exact absurd rfl changed
  | data => cases c with | txSetDataCb v x => rfl | _ => exact absurd rfl changed
  | sent => cases c with | txSetSentCb v x => rfl | _ => exact absurd rfl changed

theorem command_eq_of_resp_ne (changed : (registersAfter c e r).resp ≠ r.resp) : c = .txIsComplete := by
  cases c with
  | txIsComplete => rfl
  | _ => exact absurd rfl changed

theorem command_eq_of_carrier_ne
    (changed : (registersAfter c e r).freq ≠ r.freq ∨ (registersAfter c e r).duty ≠ r.duty) :
    c = .txStart (registersAfter c e r).freq (registersAfter c e r).duty := by
  cases c with
  | txStart f d => rfl
  | _ => rcases changed with changed | changed <;> exact absurd rfl changed

theorem command_eq_of_rxCcr3_ne (changed : (registersAfter c e r).rxCcr3 ≠ r.rxCcr3) :
    c = .rxStart ∨ c = .rxSetTimeout (registersAfter c e r).rxCcr3 := by
  cases c with
  | rxStart => exact .inl rfl
  | rxSetTimeout us => exact .inr rfl
  | _ => exact absurd rfl changed

theorem registersAfter_params : (registersAfter c e r).params = r.params := by cases c <;> rfl

theorem registersAfter_rxPin : (registersAfter c e r).rxPin = r.rxPin := by cases c <;> rfl

end

/-- No step changes the parameters (log 2). -/
theorem step_params {s t : State} (h : step s = .next t) : t.params = s.params := by
  cases step_registers h with
  | reset form => rw [form]; rfl
  | pin _ wrote _ => exact congrArg Registers.params wrote
  | command _ _ _ _ _ wrote => exact (congrArg Registers.params wrote).trans registersAfter_params

/-- Settles O52: of all that write registers only a slot's command writes the slot, and its legal state is `Idle`. -/
theorem slotsChangeOnlyByTheirCommandInIdle : Obligations.SlotsChangeOnlyByTheirCommandInIdle := by
  intro s t h
  cases step_registers h with
  | reset form => exact .inl form
  | pin p wrote _ =>
    have same (k : Slot) : t.registers.slot k = s.registers.slot k := by rw [wrote]; cases k <;> rfl
    exact .inr ⟨absurd (same .cap), absurd (same .tmo), absurd (same .data), absurd (same .sent)⟩
  | command bytes c supplied decoded legal wrote =>
    have writer (k : Slot) (changed : t.registers.slot k ≠ s.registers.slot k) : s.engine = .idle ∧
        ∃ bytes, s.inputs.head? = some (.portWrite bytes) ∧
          decodeBytes bytes = .instr (k.command (t.registers.slot k).valid (t.registers.slot k).ctx) := by
      rw [wrote] at changed ⊢
      have own := command_eq_of_slot_ne changed
      rw [own] at legal
      exact ⟨engine_idle_of_slotCommand legal, bytes, supplied, own ▸ decoded⟩
    exact .inr ⟨writer .cap, writer .tmo, writer .data, writer .sent⟩

/-- Settles O53: an edge writes the pin alone, and a command what its rule names. -/
theorem registersChangeOnlyByTheirWriters : Obligations.RegistersChangeOnlyByTheirWriters := by
  intro s t h
  refine ⟨step_params h, ?_⟩
  cases step_registers h with
  | reset form => exact .inl form
  | pin p wrote edge =>
    have level : t.rxPin = p := congrArg Registers.rxPin wrote
    exact .inr ⟨absurd (congrArg Registers.resp wrote), level ▸ edge,
      Or.rec (absurd (congrArg Registers.freq wrote)) (absurd (congrArg Registers.duty wrote)),
      absurd (congrArg Registers.rxCcr3 wrote)⟩
  | command bytes c supplied decoded legal wrote =>
    have resp : t.resp = _ := congrArg Registers.resp wrote
    have freq : t.freq = _ := congrArg Registers.freq wrote
    have duty : t.duty = _ := congrArg Registers.duty wrote
    have rxCcr3 : t.rxCcr3 = _ := congrArg Registers.rxCcr3 wrote
    have rxPin : t.rxPin = s.rxPin := (congrArg Registers.rxPin wrote).trans registersAfter_rxPin
    rw [resp, freq, duty, rxCcr3]
    refine .inr ⟨fun changed => ⟨bytes, supplied, ?_⟩, absurd rxPin, fun changed => ?_,
      fun changed => ⟨bytes, supplied, ?_⟩⟩
    · rw [decoded, command_eq_of_resp_ne changed]
    · have start := command_eq_of_carrier_ne changed
      rw [start] at legal
      exact ⟨engine_idle_of_txStart legal, bytes, supplied, start ▸ decoded⟩
    · rw [decoded, Decoded.instr.injEq, Decoded.instr.injEq]
      exact command_eq_of_rxCcr3_ne changed

/-! ## The RX counter -/

/-- A command keeps the counter or, as `RX_START`, zeroes it (R58). -/
theorem commanded_rxCnt {c : Instr} {s t : State} (did : Commanded c s t) (running : t.halted = false) :
    t.rxCnt = s.rxCnt ∨ t.rxCnt = 0#32 := by
  cases c with
  | txStart f d =>
    obtain ⟨m, filled, rfl⟩ := txStart_launched did running
    rw [(launched_eq filled).2]
    exact .inl rfl
  | rxStart => exact .inr (by rw [did])
  | _ =>
    simp only [Commanded] at did
    subst did
    exact .inl rfl

theorem tick_rxCnt (s : State) : (tick s).rxCnt = s.rxCnt ∨ (tick s).rxCnt = nextCount s.rxCnt s.params.rxPeriod := by
  by_cases enabled : s.rxEn = true
  · exact .inr (by rw [tick_eq enabled])
  · exact .inl (by simp [tick, enabled])

theorem play_rxCnt {s t : State} (h : play s = .next t) : t.rxCnt = s.rxCnt := by
  obtain ⟨u, e, l, -, -, -, -, -, -, ⟨-, -, halt⟩ | ⟨outside, -⟩⟩ := play_frame h
  · rw [halt]
  · exact field_of_outsidePlay State.rxCnt outside

/-- Every step keeps the counter, zeroes it or counts one tick (R16, R63, R64). -/
theorem step_rxCnt {s t : State} (h : step s = .next t) :
    t.rxCnt = s.rxCnt ∨ t.rxCnt = 0#32 ∨ t.rxCnt = nextCount s.rxCnt s.params.rxPeriod := by
  rcases step_cases h with ⟨rest, rfl⟩ | ⟨-, rfl⟩ | ⟨-, i, rest, -, noReset, taken⟩
  · exact .inr (.inl rfl)
  · exact .inl rfl
  cases i with
  | portWrite bytes =>
    rcases hostWrite_outcome taken with ⟨l, halt⟩ | ⟨c, -, -, did, running⟩
    · exact .inl (by rw [halt])
    · exact (commanded_rxCnt did running).imp_right .inl
  | complete => exact .inl (by rw [(complete_next taken).2])
  | tick => cases taken; exact (tick_rxCnt _).imp_right .inr
  | rise =>
    obtain ⟨-, ⟨-, rfl⟩ | ⟨-, rfl⟩⟩ := rise_next taken
    · exact .inl rfl
    · exact .inr (.inl rfl)
  | fall => obtain ⟨-, ⟨-, rfl⟩ | ⟨-, rfl⟩⟩ := fall_next taken <;> exact .inl rfl
  | play => exact .inl (play_rxCnt (s := { s with inputs := rest }) taken)
  | reset => exact absurd rfl noReset

/-- Settles O26: a counter kept or zeroed stays within the period, and a tick counts modulo the period plus one. -/
theorem rxCounterStaysWithinItsPeriod : Obligations.RxCounterStaysWithinItsPeriod := by
  intro s t within h
  rw [step_params h]
  rcases step_rxCnt h with kept | zeroed | counted
  · rwa [kept]
  · simp [zeroed]
  · rw [counted, nextCount_toNat within]
    exact Nat.le_of_lt_succ (Nat.mod_lt _ (Nat.succ_pos _))

/-! ## The histories -/

/-- A command keeps the trace and takes no callout back (R26, R27). -/
theorem commanded_histories {c : Instr} {s t : State} (did : Commanded c s t) (running : t.halted = false) :
    s.callouts <+: t.callouts ∧ t.txTrace = s.txTrace := by
  cases c with
  | txStart f d =>
    obtain ⟨m, filled, rfl⟩ := txStart_launched did running
    obtain ⟨spec, launched⟩ := launched_eq filled
    obtain ⟨l, requests, -⟩ := spec.frame.requests
    rw [launched]
    exact ⟨⟨l, requests.symm⟩, rfl⟩
  | _ =>
    simp only [Commanded] at did
    subst did
    exact ⟨List.prefix_rfl, rfl⟩

/-- A `Play` step takes no callout back and appends the entry at the playback pointer to the trace (R88). -/
theorem play_histories {s t : State} (h : play s = .next t) : s.callouts <+: t.callouts ∧
    ∃ e, s.bufRead s.dmaBuf s.dmaPos = some e ∧ t.txTrace = s.txTrace ++ [e] := by
  obtain ⟨u, e, l, -, -, read, trace, -, -, outcome⟩ := play_frame h
  refine ⟨?_, e, read, trace⟩
  rcases outcome with ⟨-, -, halt⟩ | ⟨-, callouts⟩
  · rw [halt]
    exact List.prefix_append _ _
  · rw [callouts, List.append_assoc]
    exact List.prefix_append _ _

/-- A step other than the reset and `Play` keeps the trace and takes no callout back. -/
theorem takeInput_histories {i : Input} {s t : State} (noReset : i ≠ .reset) (noPlay : i ≠ .play)
    (taken : takeInput i s = .next t) : s.callouts <+: t.callouts ∧ t.txTrace = s.txTrace := by
  cases i with
  | portWrite bytes =>
    rcases hostWrite_outcome taken with ⟨l, halt⟩ | ⟨c, -, -, did, running⟩
    · rw [halt]
      exact ⟨List.prefix_append _ _, rfl⟩
    · exact commanded_histories did running
  | complete =>
    rw [(complete_next taken).2]
    exact ⟨List.prefix_rfl, rfl⟩
  | tick =>
    cases taken
    obtain ⟨l, -, ticked⟩ := tick_out s
    rw [ticked]
    exact ⟨List.prefix_append _ _, rfl⟩
  | rise =>
    obtain ⟨-, ⟨-, rfl⟩ | ⟨-, rfl⟩⟩ := rise_next taken
    · exact ⟨List.prefix_rfl, rfl⟩
    · exact ⟨List.prefix_append _ _, rfl⟩
  | fall =>
    obtain ⟨-, ⟨-, rfl⟩ | ⟨-, rfl⟩⟩ := fall_next taken
    · exact ⟨List.prefix_rfl, rfl⟩
    · exact ⟨List.prefix_append _ _, rfl⟩
  | play => exact absurd rfl noPlay
  | reset => exact absurd rfl noReset

/-- Settles O54: every record is appended, and only `Play` appends to the trace. -/
theorem historiesOnlyGrow : Obligations.HistoriesOnlyGrow := by
  intro s t h
  rcases step_cases h with ⟨rest, reset⟩ | ⟨-, rfl⟩ | ⟨-, i, rest, supplied, noReset, taken⟩
  · exact .inl (reset_form reset)
  · exact .inr ⟨List.prefix_rfl, .inl rfl⟩
  by_cases isPlay : i = .play
  · subst isPlay
    obtain ⟨callouts, e, read, trace⟩ := play_histories (s := { s with inputs := rest }) taken
    exact .inr ⟨callouts, .inr ⟨e, by rw [supplied, List.head?_cons], read, trace⟩⟩
  · obtain ⟨callouts, trace⟩ := takeInput_histories (s := { s with inputs := rest }) noReset isPlay taken
    exact .inr ⟨callouts, .inl trace⟩

end Sys2Proof.Machine

namespace Sys2Proof.Machine

/-! ## What is written to the command port -/

/-- Every command's word decodes to the command, every operand whole (R47 to R49). -/
theorem decode_encode (i : Instr) : decode (encode i) = .instr i := by
  rw [decode_eq_fields]
  cases i with
  | rxStart | rxStop | txStop | txWaitTerm | txIsComplete => rfl
  | rxSetTimeout t => simp [encode, opcodeOf, decodedIf]
  | txStart f d => simp [encode, opcodeOf]
  | rxSetCaptureCb v c | rxSetTimeoutCb v c | txSetDataCb v c | txSetSentCb v c =>
    cases v <;> simp [encode, opcodeOf, decodedIf, validField_assemble, auxOfValid]

/-- A written command runs (R52). -/
theorem hostWrite_instr {bytes : List Byte} {i : Instr} (decoded : decodeBytes bytes = .instr i) (s : State) :
    hostWrite bytes s = exec i s := by
  simp only [hostWrite, decoded]

/-- A write that is not 64 bits is refused, whatever the state (R35). -/
theorem hostWrite_other_length {bytes : List Byte} (length : bytes.length ≠ 8) (s : State) :
    hostWrite bytes s = .refused .notACommandWord := by
  have noWord : wordOfBytes bytes = none := by
    rw [← Option.not_isSome_iff_eq_none, wordOfBytes_isSome, decide_eq_true_eq]
    exact length
  simp only [hostWrite, decodeBytes, noWord]

/-- A 64-bit table word is the word itself. -/
theorem tableWord_toNat (w : Word) : tableWord 64 w.toNat = w := by
  rw [tableWord, Nat.mod_eq_of_lt w.isLt, BitVec.ofNat_toNat, BitVec.setWidth_eq]

/-- Settles O7: the supplied write is taken to the port, and a command's own word decodes to it. -/
theorem stepRunsDecodedCommand : Obligations.StepRunsDecodedCommand := by
  refine ⟨fun s bytes rest i running supplied decoded => ?_, fun s i running => ?_⟩
  · rw [step_eq_takeInput running supplied]
    exact hostWrite_instr decoded _
  · have decoded : decodeBytes (bytesOfWord (tableWord 64 (encode i).toNat)) = .instr i := by
      rw [decodeBytes_bytesOfWord, tableWord_toNat, decode_encode]
    rw [step_eq_takeInput (s := s.withFetchWord 64 (encode i).toNat) running rfl]
    exact hostWrite_instr decoded s

/-- Settles O10: the port refuses the supplied write for its length. -/
theorem otherWriteLengthsAreRefused : Obligations.OtherWriteLengthsAreRefused := by
  intro s bytes rest running supplied length
  rw [step_eq_takeInput running supplied]
  exact hostWrite_other_length length _

/-! ## The frame of a fill -/

/-- Settles O40: a fill that returns keeps its frame, and what it asked the producer are the next answers. -/
theorem fillLeavesTheRestAlone : Obligations.FillLeavesTheRestAlone := by
  intro b s t valid _ filled
  have spec := fill_filled' valid filled
  obtain ⟨n, producer, draws, callouts⟩ := spec.frame.taken
  refine ⟨spec.frame.other, n, ?_⟩
  rw [← producer, ← draws, ← callouts]
  exact spec.state_eq

/-! ## The canonical form of the buffers' entries -/

/-- The entries are held in the buffer pair alone. -/
theorem memoriesCanonical_of_bufs {s t : State} (same : t.bufs = s.bufs) (canonical : s.memoriesCanonical) :
    t.memoriesCanonical :=
  fun b u allocated => canonical b u (by rw [← buf_congr same b, allocated])

/-- A pair that is not allocated has no entries (R24). -/
theorem memoriesCanonical_of_unallocated {s : State} (free : s.bufs.pair = none) : s.memoriesCanonical := by
  intro b u allocated
  simp [State.buf, free] at allocated

/-- `TX_START` allocates buffers without an entry (R75). -/
theorem armTx_memoriesCanonical (f : Count) (d : BitVec 24) (s : State) : (armTx f d s).memoriesCanonical := by
  intro b u allocated
  cases b <;> cases allocated <;> rfl

theorem FillSpec.memoriesCanonical {b : BufIdx} {s t : State} (spec : FillSpec b s t) (canonical : s.memoriesCanonical) :
    t.memoriesCanonical :=
  memoriesCanonical_of_bufs (s := { t with engine := s.engine }) rfl (spec.frame.canonical canonical)

/-- `FillFlush` keeps the frame of a fill (R87). -/
theorem fillFlush_frame {b : BufIdx} {s t : State} (filled : fillFlush b s = some t) : FillFrame b s t := by
  unfold fillFlush at filled
  split at filled
  · cases filled
  next w first =>
    split at filled
    · cases filled
    next x second =>
      cases filled
      exact ((bufWrite_frame first).trans (bufWrite_frame second)).trans (closeBuf_frame _ _ _ _ _)

/-- A command writes the buffers only as `TX_START`, which fills one of two fresh ones. -/
theorem commanded_memoriesCanonical {c : Instr} {s t : State} (did : Commanded c s t) (running : t.halted = false)
    (canonical : s.memoriesCanonical) : t.memoriesCanonical := by
  cases c with
  | txStart f d =>
    obtain ⟨m, filled, rfl⟩ := txStart_launched did running
    obtain ⟨spec, -⟩ := launched_eq filled
    exact memoriesCanonical_of_bufs (s := m) rfl (spec.memoriesCanonical (armTx_memoriesCanonical f d s))
  | _ =>
    simp only [Commanded] at did
    subst did
    exact memoriesCanonical_of_bufs (s := s) rfl canonical

theorem refilled_memoriesCanonical {n : Nat} {s t : State} (h : refilled n s t) (valid : s.bufValid = true)
    (canonical : s.memoriesCanonical) : t.memoriesCanonical := by
  rcases h with ⟨-, -, filled⟩ | ⟨-, rfl⟩
  · exact (fill_filled' valid filled).memoriesCanonical canonical
  · exact canonical

/-- The transfer-complete service writes the buffers only as `FillFlush` does (R90). -/
theorem transferComplete_memoriesCanonical {s t : State} (h : transferCompleteService s = .next t)
    (canonical : s.memoriesCanonical) : t.memoriesCanonical := by
  obtain ⟨u, w, -, handed, rfl⟩ := transferComplete_next h
  have kept : w.memoriesCanonical := by
    rcases handOver_cases handed with ⟨-, rfl⟩ | ⟨-, -, x, flushed, rfl⟩ | ⟨-, -, -, rfl⟩
    · exact memoriesCanonical_of_bufs (s := s) rfl canonical
    · exact memoriesCanonical_of_bufs (s := x) rfl ((fillFlush_frame flushed).canonical canonical)
    · exact memoriesCanonical_of_bufs (s := s) rfl canonical
  rw [signalPacket_eq]
  exact memoriesCanonical_of_bufs (s := w) rfl kept

theorem play_memoriesCanonical {s t : State} (h : play s = .next t) (canonical : s.memoriesCanonical) :
    t.memoriesCanonical := by
  obtain ⟨-, u, e, playing, -, -, ⟨-, -, r, -, rfl⟩ | ⟨m, refill, ended⟩⟩ := play_next h
  · exact memoriesCanonical_of_bufs (s := s) rfl canonical
  have moved : (transferEntry e s).memoriesCanonical := memoriesCanonical_of_bufs (s := s) rfl canonical
  have served : m.memoriesCanonical := refilled_memoriesCanonical refill (buf_eq_some_bufValid (s := s) playing) moved
  rcases ended with ⟨-, rfl⟩ | ⟨-, complete⟩
  · exact served
  · exact transferComplete_memoriesCanonical complete served

/-- Settles O50: only `TX_START` and `Play` write entries, and they do it by `BufWrite`, which keeps the form. -/
theorem everyStepKeepsMemoriesCanonical : Obligations.EveryStepKeepsMemoriesCanonical := by
  intro s t canonical h
  rcases step_cases h with ⟨rest, rfl⟩ | ⟨-, rfl⟩ | ⟨-, i, rest, -, noReset, taken⟩
  · exact memoriesCanonical_of_unallocated rfl
  · exact canonical
  have supplied : { s with inputs := rest }.memoriesCanonical := memoriesCanonical_of_bufs (s := s) rfl canonical
  cases i with
  | portWrite bytes =>
    rcases hostWrite_outcome taken with ⟨l, halt⟩ | ⟨c, -, -, did, running⟩
    · exact memoriesCanonical_of_bufs (by rw [halt]) supplied
    · exact commanded_memoriesCanonical did running supplied
  | complete =>
    rw [(complete_next taken).2]
    exact memoriesCanonical_of_unallocated rfl
  | tick =>
    cases taken
    exact memoriesCanonical_of_bufs (by rw [tick_frame]) supplied
  | rise =>
    obtain ⟨-, ⟨-, rfl⟩ | ⟨-, rfl⟩⟩ := rise_next taken <;> exact memoriesCanonical_of_bufs (s := s) rfl canonical
  | fall =>
    obtain ⟨-, ⟨-, rfl⟩ | ⟨-, rfl⟩⟩ := fall_next taken <;> exact memoriesCanonical_of_bufs (s := s) rfl canonical
  | play => exact play_memoriesCanonical taken supplied
  | reset => exact absurd rfl noReset

/-! ## A fill that its listed answers end -/

/-- The answer ends the packet, whatever the fill has written (R84, corner cases 1 to 3). -/
def endsPacket (freq : Count) (a : AnswerWord) : Prop :=
  (answerOf a).status = .lastDone ∨
    ((answerOf a).status = .done ∧ numCycles (answerOf a).duration.toNat freq.toNat ≠ 0)

/-- The answer lasts a cycle or more, so that an entry is written for it (R83). -/
def lastsACycle (freq : Count) (a : AnswerWord) : Bool :=
  decide (numCycles (answerOf a).duration.toNat freq.toNat ≠ 0)

/-- A fill that has written `n` entries ends on the remainder, or on the answers still listed: one of them ends the packet,
or they fill the buffer. -/
def State.endsFillAt (s : State) (n : Nat) : Prop :=
  (s.restDuration ≠ 0#64 ∧ s.restStatus ≠ .ok) ∨ (∃ a ∈ s.producer, endsPacket s.freq a) ∨
    s.params.txBufCap ≤ n + (s.producer.filter (lastsACycle s.freq)).length

theorem endsFillAt_zero {s : State} (ends : listedAnswersEndFill s.freq s) : s.endsFillAt 0 :=
  .inr (ends.imp_right fun full => by rwa [Nat.zero_add])

/-- How many iterations a fill that has written `n` entries can still take before it is full and every listed
answer taken. -/
def State.iterationsLeft (s : State) (n : Nat) : Nat := s.params.txBufCap - n + s.producer.length

/-- While the buffer is not full, a fill without a remainder still has an answer listed. -/
theorem producer_cons_of_endsFillAt {s : State} {n : Nat} (free : n < s.params.txBufCap) (noRest : s.restDuration = 0#64)
    (ends : s.endsFillAt n) : ∃ a rest, s.producer = a :: rest := by
  cases listed : s.producer with
  | cons a rest => exact ⟨a, rest, rfl⟩
  | nil =>
    rcases ends with ⟨rest, -⟩ | ⟨a, mem, -⟩ | full
    · exact absurd noRest rest
    · simp [listed] at mem
    · simp [listed] at full
      omega

/-- An answer that does not end the packet is taken off the list: those after it still end the fill, if an entry is written
for it where it lasts a cycle. -/
theorem endsFillAt_tail {s t : State} {n m : Nat} {a : AnswerWord} {rest : List AnswerWord}
    (ends : s.endsFillAt n) (noRest : s.restDuration = 0#64) (listed : s.producer = a :: rest)
    (goesOn : ¬ endsPacket s.freq a) (params : t.params = s.params) (freq : t.freq = s.freq) (taken : t.producer = rest)
    (wrote : n + (if lastsACycle s.freq a then 1 else 0) ≤ m) : t.endsFillAt m := by
  unfold State.endsFillAt
  rw [params, freq, taken]
  rcases ends with ⟨left, -⟩ | ⟨c, mem, isEnd⟩ | full
  · exact absurd noRest left
  · rw [listed] at mem
    rcases List.mem_cons.1 mem with rfl | mem
    · exact absurd isEnd goesOn
    · exact .inr (.inl ⟨c, mem, isEnd⟩)
  · rw [listed, List.filter_cons] at full
    refine .inr (.inr ?_)
    by_cases lasts : lastsACycle s.freq a = true
    · rw [if_pos lasts, List.length_cons] at full
      rw [if_pos lasts] at wrote
      omega
    · rw [if_neg lasts] at full wrote
      omega

/-- With an answer taken off the list fewer iterations are left. -/
theorem iterationsLeft_tail {s t : State} {n m : Nat} {a : AnswerWord} {rest : List AnswerWord}
    (listed : s.producer = a :: rest) (params : t.params = s.params) (taken : t.producer = rest) (later : n ≤ m) :
    t.iterationsLeft m < s.iterationsLeft n := by
  simp only [State.iterationsLeft, params, taken, listed, List.length_cons]
  omega

/-- The next listed answer is taken (R37). -/
theorem dataReq_cons {s : State} {a : AnswerWord} {rest : List AnswerWord} (listed : s.producer = a :: rest) :
    s.dataReq.1 = answerOf a ∧ s.dataReq.2.producer = rest := by
  simp [State.dataReq, nextAnswer_cons listed]

/-- An iteration that drains the remainder leaves it to end the fill, or ends the fill with its status. -/
theorem drainRest_endsFillAt {b : BufIdx} {n m : Nat} {s t : State} (free : n < s.params.txBufCap) (ends : s.endsFillAt n)
    (drained : drainRest b n s = .go m .ok t) : t.endsFillAt m ∧ t.iterationsLeft m < s.iterationsLeft n := by
  obtain ⟨rfl, ⟨w, wrote, rfl⟩, status⟩ := drainRest_go drained
  obtain ⟨params, freq, producer, -, -, restStatus, -, -⟩ := bufWrite_same wrote
  constructor
  · simp only [State.endsFillAt, params, freq, producer, restStatus]
    rcases ends with ⟨-, isEnd⟩ | isEnd | full
    · exact .inl ⟨fun empty => isEnd (by rw [if_pos empty] at status; exact status.symm), isEnd⟩
    · exact .inr (.inl isEnd)
    · exact .inr (.inr (by omega))
  · simp only [State.iterationsLeft, params, producer]
    omega

/-- An iteration that takes a listed answer and goes on leaves a remainder that ends the fill, or answers that do. -/
theorem pullSample_endsFillAt {b : BufIdx} {n m : Nat} {s t : State} (free : n < s.params.txBufCap)
    (noRest : s.restDuration = 0#64) (ends : s.endsFillAt n) (pulled : pullSample b n s = .go m .ok t) :
    t.endsFillAt m ∧ t.iterationsLeft m < s.iterationsLeft n := by
  obtain ⟨a, rest, listed⟩ := producer_cons_of_endsFillAt free noRest ends
  obtain ⟨answer, taken⟩ := dataReq_cons listed
  have cycles : numCycles (answerOf a).duration.toNat s.freq.toNat = nextCycles s := by rw [← answer]; rfl
  have tail (goesOn : ¬ endsPacket s.freq a) := endsFillAt_tail (t := t) (m := m) ends noRest listed goesOn
  have placed := (pullSample_go pulled).2
  rw [answer] at placed
  rcases placeSample_go placed with
    ⟨noCycle, rfl, rfl, status⟩ | ⟨big, rfl, -, w, wrote, rfl⟩ | ⟨-, -, rfl, status, wrote⟩
  · have goesOn : ¬ endsPacket s.freq a := by
      rintro (last | ⟨-, aCycle⟩)
      · simp [last] at status
      · exact aCycle (cycles.trans noCycle)
    exact ⟨tail goesOn (dataReq_params s) (dataReq_freq s) taken (by simp [lastsACycle, cycles, noCycle]),
      iterationsLeft_tail listed (dataReq_params s) taken le_rfl⟩
  · obtain ⟨params, freq, producer, -⟩ := bufWrite_same wrote
    rw [dataReq_params] at params
    rw [dataReq_freq] at freq
    rw [taken] at producer
    refine ⟨?_, iterationsLeft_tail listed params producer (Nat.le_succ n)⟩
    by_cases isEnd : endsPacket s.freq a
    · refine .inl ⟨fun empty => ?_, ?_⟩
      · have left := congrArg BitVec.toNat empty
        have bound : nextCycles s < 2 ^ 45 := nextCycles_lt s
        rw [BitVec.toNat_ofNat, Nat.mod_eq_of_lt (by omega)] at left
        simp at left
        omega
      · rcases isEnd with last | ⟨done, -⟩
        · simp [last]
        · simp [done]
    · exact tail isEnd params freq producer (by split <;> omega)
  · obtain ⟨params, freq, producer, -⟩ := bufWrite_same wrote
    rw [dataReq_params] at params
    rw [dataReq_freq] at freq
    rw [taken] at producer
    have goesOn : ¬ endsPacket s.freq a := by simp [endsPacket, ← status]
    exact ⟨tail goesOn params freq producer (by split <;> omega),
      iterationsLeft_tail listed params producer (Nat.le_succ n)⟩

/-- An iteration that goes on leaves fewer iterations, and still a remainder or listed answers that end the fill. -/
theorem fillIter_endsFillAt {b : BufIdx} {n m : Nat} {s t : State} (free : n < s.params.txBufCap) (ends : s.endsFillAt n)
    (went : fillIter b n s = .go m .ok t) : t.endsFillAt m ∧ t.iterationsLeft m < s.iterationsLeft n := by
  rcases fillIter_go went with ⟨noRest, pulled⟩ | ⟨-, drained⟩
  · exact pullSample_endsFillAt free noRest ends pulled
  · exact drainRest_endsFillAt free ends drained

/-- The end of a fill is stuck on no request (R84). -/
theorem closeFill_ne_doesNotReturn {b : BufIdx} {n : Nat} {st : Status} {s : State} :
    closeFill b n st s ≠ .stuck .fillDoesNotReturn := by
  unfold closeFill
  split
  · split <;> nofun
  · nofun

/-- A single iteration can be stuck on a buffer access only (R33, R84). -/
theorem fillIter_ne_doesNotReturn {b : BufIdx} {n : Nat} {s : State} : fillIter b n s ≠ .stuck .fillDoesNotReturn := by
  unfold fillIter pullSample placeSample drainRest
  dsimp only
  repeat' split
  all_goals nofun

/-- A loop with fuel for the iterations left does not use it up, where the remainder or the listed answers end the fill. -/
theorem fillLoop_ne_doesNotReturn {b : BufIdx} {fuel n : Nat} {st : Status} {s : State}
    (ends : st = .ok → s.endsFillAt n ∧ s.iterationsLeft n ≤ fuel) :
    fillLoop b fuel n st s ≠ .stuck .fillDoesNotReturn := by
  induction fuel generalizing n st s with
  | zero =>
    have full : ¬ (n < s.params.txBufCap ∧ st = .ok) := by
      rintro ⟨free, ok⟩
      have noneLeft := (ends ok).2
      unfold State.iterationsLeft at noneLeft
      omega
    rw [fillLoop_end full]
    exact closeFill_ne_doesNotReturn
  | succ fuel ih =>
    by_cases more : n < s.params.txBufCap ∧ st = .ok
    · obtain ⟨free, rfl⟩ := more
      obtain ⟨endsHere, enough⟩ := ends rfl
      cases iter : fillIter b n s with
      | go m st' t =>
        rw [fillLoop_go free iter]
        refine ih fun ok => ?_
        subst ok
        obtain ⟨endsThere, fewer⟩ := fillIter_endsFillAt free endsHere iter
        exact ⟨endsThere, by omega⟩
      | producerError r => simp [fillLoop, free, iter]
      | stuck f =>
        have other : f ≠ .fillDoesNotReturn := fun same => fillIter_ne_doesNotReturn (same ▸ iter)
        simp [fillLoop, free, iter, other]
    · rw [fillLoop_end more]
      exact closeFill_ne_doesNotReturn

/-- A fill of an allocated buffer that the listed answers end is never stuck (R107, log 8). -/
theorem fill_ne_stuck {b : BufIdx} {s : State} {f : Fault} (valid : s.bufValid = true) (cap : 1 ≤ s.params.txBufCap)
    (ends : listedAnswersEndFill s.freq s) : fill b s ≠ .stuck f := by
  intro stuck
  obtain rfl := fill_stuck valid cap stuck
  have enough : s.iterationsLeft 0 ≤ fillFuel s := by
    unfold State.iterationsLeft fillFuel
    omega
  exact fillLoop_ne_doesNotReturn (fun _ => ⟨endsFillAt_zero ends, enough⟩) stuck

/-! ## Play throughout a session -/

theorem two_le_txBufCap {s : State} (inv : s.Inv) : 2 ≤ s.params.txBufCap := by
  have params := inv.params
  simp only [Params.wf, Bool.and_eq_true, decide_eq_true_eq] at params
  omega

/-- An entry below the count of a buffer that may be handed to the DMA is read (R32). -/
theorem bufRead_of_playable {s : State} {b : BufIdx} {u : Buffer} {cap i : Nat} (allocated : s.buf b = some u)
    (playable : u.Playable cap) (below : i < u.count) : ∃ e, s.bufRead b i = some e := by
  obtain ⟨e, read⟩ := Option.isSome_iff_exists.1 (playable.written i below)
  exact ⟨e, by simp only [State.bufRead, allocated, if_pos below, read]⟩

/-- A buffer that ends is handed over, or the session finished (R90). -/
theorem handOver_answers {s : State} (u : Buffer) (valid : s.bufValid = true) (cap : 2 ≤ s.params.txBufCap) :
    ∃ t, handOver u s = some t := by
  obtain ⟨w, -, flushed, -⟩ := fillFlush_spec (b := otherBuf s.dmaBuf) valid cap
  unfold handOver
  rw [flushed]
  split
  · exact ⟨_, rfl⟩
  · split <;> exact ⟨_, rfl⟩

theorem transferComplete_answers {s : State} {u : Buffer} (playing : s.buf s.dmaBuf = some u)
    (cap : 2 ≤ s.params.txBufCap) : ∃ t, transferCompleteService s = .next t := by
  obtain ⟨t, handed⟩ := handOver_answers u (buf_eq_some_bufValid playing) cap
  exact ⟨signalPacket u t, by rw [transferComplete_eq playing, handed]⟩

/-- `Play` in a session answers a next state, unless it owes a refill that is stuck because the producer does not end it. -/
theorem play_outcome {s : State} (inv : s.Inv) (active : txActive s.engine = true) :
    (∃ t, play s = .next t) ∨
      (s.engine = .asyncTx ∧ ¬ listedAnswersEndFill s.freq s ∧ play s = .fault .fillDoesNotReturn) := by
  obtain ⟨u, playing, playable, left⟩ := (inv.streaming active).playing
  obtain ⟨e, read⟩ := bufRead_of_playable playing playable left
  have cap := two_le_txBufCap inv
  have valid : (transferEntry e s).bufValid = true := buf_eq_some_bufValid playing
  have played := play_enabled (inv.txEn.trans active) playing left read
  by_cases refills : s.engine = .asyncTx ∧ s.dmaPos + 1 = htPoint u.count
  · obtain ⟨engine, half⟩ := refills
    rw [if_pos half, halfTransferService, if_pos (show (transferEntry e s).engine = .asyncTx from engine)] at played
    cases refill : fill (otherBuf (transferEntry e s).dmaBuf) (transferEntry e s) with
    | filled m =>
      have spec := fill_filled' valid refill
      obtain ⟨dmaBuf, -, other⟩ := spec.dma
      rw [otherBuf_otherBuf, ← dmaBuf] at other
      have params : m.params = s.params := (congrArg State.params spec.state_eq).trans rfl
      rw [played, refill]
      dsimp only
      split
      · exact .inl (transferComplete_answers (other.trans (dmaBuf ▸ playing)) (params ▸ cap))
      · exact .inl ⟨_, rfl⟩
    | producerError r => exact .inl ⟨_, by rw [played, refill]⟩
    | stuck f =>
      have one : 1 ≤ s.params.txBufCap := by omega
      obtain rfl := fill_stuck valid one refill
      exact .inr ⟨engine, fun ends => fill_ne_stuck valid one ends refill, by rw [played, refill]⟩
  · rw [play_no_refill (inv.txEn.trans active) playing left read fun engine half => refills ⟨engine, half⟩]
    split
    · exact .inl (transferComplete_answers playing cap)
    · exact .inl ⟨_, rfl⟩

/-! ## Which faults a step can raise -/

/-- The gate itself faults in a halted block only (R52, R95). -/
theorem hostGate_fault {s : State} {issue : State → Result} {f : Fault} (h : hostGate s issue = .fault f) :
    f = .halted ∨ issue s = .fault f := by
  unfold hostGate at h
  split at h
  · cases h
    exact .inl rfl
  · split at h
    · exact .inr h
    · cases h
    · cases h

/-- The checks of a command raise no fault of their own but the gate's (R52). -/
theorem issueCommand_fault {s : State} {op : BitVec 8} {legal : EngineState → Bool} {effect : State → Result} {f : Fault}
    (h : issueCommand op legal s effect = .fault f) : f = .halted ∨ effect s = .fault f := by
  refine (hostGate_fault h).imp_right fun issued => ?_
  split at issued
  · exact issued
  · cases issued

/-- A command faults in a halted block, or as a `TX_START` whose first fill does not return (R95, R107). -/
theorem exec_fault {i : Instr} {s : State} {f : Fault} (cap : 1 ≤ s.params.txBufCap) (h : exec i s = .fault f) :
    f = .halted ∨ f = .fillDoesNotReturn := by
  cases i with
  | txStart freq duty =>
    simp only [exec, execTxStart] at h
    refine (issueCommand_fault h).imp_right fun started => ?_
    repeat' split at started
    all_goals cases started
    next stuck => exact fill_stuck (s := armTx freq duty s) rfl cap stuck
  | _ =>
    simp only [exec, execRxStart, execRxStop, execRxSetTimeout, execRxSetCaptureCb, execRxSetTimeoutCb, execTxSetDataCb,
      execTxSetSentCb, execTxStop, execTxWaitTerm, execTxIsComplete] at h
    exact .inl ((issueCommand_fault h).resolve_right nofun)

theorem hostWrite_fault {bytes : List Byte} {s : State} {f : Fault} (cap : 1 ≤ s.params.txBufCap)
    (h : hostWrite bytes s = .fault f) : f = .halted ∨ f = .fillDoesNotReturn := by
  unfold hostWrite at h
  split at h
  · exact exec_fault cap h
  · cases h
  · exact .inl ((hostGate_fault h).resolve_right nofun)
  · exact .inl ((hostGate_fault h).resolve_right nofun)

/-- `Play` faults only on a refill that does not return (R107). -/
theorem play_fault {s : State} {f : Fault} (inv : s.Inv) (h : play s = .fault f) : f = .fillDoesNotReturn := by
  cases active : txActive s.engine with
  | false =>
    have off : s.txEn = false := inv.txEn.trans active
    simp [play, off] at h
  | true =>
    rcases play_outcome inv active with ⟨t, played⟩ | ⟨-, -, played⟩ <;> rw [played] at h <;> cases h
    rfl

theorem takeInput_fault {i : Input} {s : State} {f : Fault} (inv : s.Inv) (h : takeInput i s = .fault f) :
    f = .halted ∨ f = .fillDoesNotReturn := by
  cases i with
  | portWrite bytes => exact hostWrite_fault (by have := two_le_txBufCap inv; omega) h
  | play => exact .inr (play_fault inv h)
  | complete | rise | fall =>
    simp only [takeInput, completeHeld, rise, fall] at h
    repeat' split at h
    all_goals cases h
  | tick | reset => cases h

/-- A step faults only in a halted block or on a fill that does not return. -/
theorem step_fault {s : State} {f : Fault} (inv : s.Inv) (h : step s = .fault f) :
    f = .halted ∨ f = .fillDoesNotReturn := by
  unfold step takeStep at h
  split at h
  · split at h
    · cases h
      exact .inl rfl
    · exact takeInput_fault (inv_withInputs inv _) h
  · split at h
    · cases h
    · exact takeInput_fault (inv_withInputs inv _) h

/-- Settles O56: no fault but two, and what `Play` meets in a session. -/
theorem playGoesOnThroughoutASession : Obligations.PlayGoesOnThroughoutASession := by
  refine ⟨fun s inv fault => ?_, fun s inv active => play_outcome inv active⟩
  rcases step_fault inv fault with other | other <;> cases other

end Sys2Proof.Machine

namespace Sys2Proof.Machine

/-! ## The decoder's table and the encoder -/

/-- A word is the one assembled from its fields (R47). -/
theorem assemble_eq_of_fields {w : Word} {op : BitVec 8} {aux : BitVec 24} {arg : Count} (hop : opField w = op)
    (haux : auxField w = aux) (harg : argField w = arg) : assemble op aux arg = w := by
  rw [← hop, ← haux, ← harg, assemble_fields]

/-- Every way a word can decode: as a row it hits, or it hits none and is rejected (R51). -/
theorem decode_cases (w : Word) :
    (∃ r ∈ opcodeTable, r.hits w = true ∧ decode w = .instr (r.build w)) ∨
    ((∀ r ∈ opcodeTable, r.hits w = false) ∧ ∃ why, decode w = .reject why) := by
  unfold decode
  cases found : opcodeTable.find? fun r => r.hits w with
  | some r => exact .inl ⟨r, List.mem_of_find?_eq_some found, by simpa using List.find?_some found, rfl⟩
  | none => exact .inr ⟨by simpa using found, _, rfl⟩

/-- A word that hits a row is the word of the row's command: the mask leaves free exactly the bits the command holds
(R47, R49). -/
theorem encode_of_hits {r : Row} {w : Word} (row : r ∈ opcodeTable) (hit : r.hits w = true) :
    encode (r.build w) = w := by
  have masked : w &&& r.mask = r.pattern := of_decide_eq_true hit
  have formatZ {op : BitVec 8} (h : w &&& maskZ = assemble op 0#24 0#32) : assemble op 0#24 0#32 = w := by
    rwa [and_maskZ, eq_comm] at h
  have formatB {op : BitVec 8} (h : w &&& maskB = assemble op 0#24 0#32) :
      assemble op (auxOfValid (validField w)) (argField w) = w := by
    obtain ⟨hop, reserved⟩ := (matches_formatB w op).1 h
    exact assemble_eq_of_fields hop (auxOfValid_eq reserved).symm rfl
  fin_cases row
  · exact formatZ (masked.trans pattern_10)
  · exact formatZ (masked.trans pattern_11)
  · obtain ⟨hop, haux⟩ := (matches_formatA w _).1 (masked.trans pattern_12)
    exact assemble_eq_of_fields hop haux rfl
  · exact formatB (masked.trans pattern_13)
  · exact formatB (masked.trans pattern_14)
  · exact formatB (masked.trans pattern_20)
  · exact formatB (masked.trans pattern_21)
  · exact assemble_eq_of_fields ((matches_formatS w _).1 (masked.trans pattern_22)) rfl rfl
  · exact formatZ (masked.trans pattern_23)
  · exact formatZ (masked.trans pattern_24)
  · exact formatZ (masked.trans pattern_25)

theorem mnemonicOf_build {r : Row} (w : Word) (row : r ∈ opcodeTable) : mnemonicOf (r.build w) = r.mnemonic := by
  fin_cases row <;> rfl

/-- The encoder is the decoder's one inverse (R49, R51). -/
theorem decode_eq_instr_iff {w : Word} {i : Instr} : decode w = .instr i ↔ encode i = w := by
  refine ⟨fun decoded => ?_, fun encoded => encoded ▸ decode_encode i⟩
  rcases decode_cases w with ⟨r, row, hit, built⟩ | ⟨-, why, rejected⟩
  · cases built.symm.trans decoded
    exact encode_of_hits row hit
  · cases rejected.symm.trans decoded

/-- Settles O1: by the fields of each command's word, which its bytes carry. -/
theorem decodeOfEncodeIsTheCommand : Obligations.DecodeOfEncodeIsTheCommand := by
  intro i
  refine ⟨decode_encode i, ?_⟩
  rw [encodeBytes, decodeBytes_bytesOfWord, decode_encode]

/-- Settles O2: a decoded word hits a row, and a word that hits a row is the word of the row's command. -/
theorem decodedWordIsTheEncoding : Obligations.DecodedWordIsTheEncoding :=
  fun _ _ => decode_eq_instr_iff.1

/-- Two rows a word hits build the same command, since the word is each command's word (R51). -/
theorem mnemonic_eq_of_hits {q r : Row} {w : Word} (rowQ : q ∈ opcodeTable) (hitQ : q.hits w = true)
    (rowR : r ∈ opcodeTable) (hitR : r.hits w = true) : q.mnemonic = r.mnemonic := by
  have built : Decoded.instr (q.build w) = .instr (r.build w) :=
    (decode_eq_instr_iff.2 (encode_of_hits rowQ hitQ)).symm.trans (decode_eq_instr_iff.2 (encode_of_hits rowR hitR))
  rw [← mnemonicOf_build w rowQ, ← mnemonicOf_build w rowR, Decoded.instr.inj built]

/-- `TX_START` halts the block on a duty cycle out of range (R75, R94). -/
theorem exec_txStart_badDuty {freq : Count} {duty : BitVec 24} {s : State} (ready : s.hostReady) (idle : s.engine = .idle)
    (slot : s.cbData.valid = true) (range : duty = 0#24 ∨ 65536 < duty.toNat) :
    exec (.txStart freq duty) s = .next (raiseFatal s s .badDutyCycle 0x22#8) := by
  have bad : dutyLegal duty = false := by
    rcases range with rfl | large
    · rfl
    · simp [dutyLegal, large]
  have legal : legalInIdle s.engine = true := by rw [idle]; rfl
  show execTxStart freq duty s = _
  rw [execTxStart_legal ready legal, slot, bad]
  rfl

/-- Settles O3: the rows by `decode_cases`, `TX_START` by its fields, and the duty cycle by the order of R75's checks. -/
theorem decodingIsTotalAndUnambiguous : Obligations.DecodingIsTotalAndUnambiguous := by
  refine ⟨fun w => ?_, fun w op => ?_, fun freq duty s ready idle slot range => ?_⟩
  · refine (decode_cases w).imp_left fun ⟨r, row, hit, decoded⟩ => ⟨r, row, hit, decoded, fun q rowQ hitQ => ?_⟩
    exact mnemonic_eq_of_hits rowQ hitQ row hit
  · exact decode_eq_instr_iff.2 (assemble_eq_of_fields op rfl rfl)
  · exact exec_txStart_badDuty ready idle slot range

/-- Every command's word has the fields its format allows (R47, R49). -/
theorem wellFormed_encode (i : Instr) : (rawOf (encode i)).wellFormed = true := by
  have law : Laws.Encoding.Statement i := by
    cases i with
    | rxStart => exact Laws.Encoding.rxStart
    | rxStop => exact Laws.Encoding.rxStop
    | rxSetTimeout t => exact Laws.Encoding.rxSetTimeout t
    | rxSetCaptureCb v c => exact Laws.Encoding.rxSetCaptureCb v c
    | rxSetTimeoutCb v c => exact Laws.Encoding.rxSetTimeoutCb v c
    | txSetDataCb v c => exact Laws.Encoding.txSetDataCb v c
    | txSetSentCb v c => exact Laws.Encoding.txSetSentCb v c
    | txStart f d => exact Laws.Encoding.txStart f d
    | txStop => exact Laws.Encoding.txStop
    | txWaitTerm => exact Laws.Encoding.txWaitTerm
    | txIsComplete => exact Laws.Encoding.txIsComplete
  exact law.2

theorem wellFormed_iff {c : RawCommand} :
    c.wellFormed = true ↔ ∃ f, formatOf c.op = some f ∧ f.reservedZero c = true := by
  cases h : formatOf c.op <;> simp [RawCommand.wellFormed, h]

/-- A word whose fields its opcode's format allows is a command's word (R50). -/
theorem exists_encode_of_wellFormed {w : Word} (allowed : (rawOf w).wellFormed = true) : ∃ i, encode i = w := by
  obtain ⟨f, format, reserved⟩ := wellFormed_iff.1 allowed
  unfold formatOf at format
  split_ifs at format with opZ opA opB opS <;> cases format
  · simp only [Format.reservedZero, Bool.and_eq_true, decide_eq_true_eq] at reserved
    obtain ⟨aux, arg⟩ := reserved
    rcases opZ with op | op | op | op | op
    · exact ⟨.rxStart, assemble_eq_of_fields op aux arg⟩
    · exact ⟨.rxStop, assemble_eq_of_fields op aux arg⟩
    · exact ⟨.txStop, assemble_eq_of_fields op aux arg⟩
    · exact ⟨.txWaitTerm, assemble_eq_of_fields op aux arg⟩
    · exact ⟨.txIsComplete, assemble_eq_of_fields op aux arg⟩
  · exact ⟨.rxSetTimeout (argField w), assemble_eq_of_fields opA (of_decide_eq_true reserved) rfl⟩
  · have aux : auxField w = auxOfValid (validField w) := (auxOfValid_eq (of_decide_eq_true reserved)).symm
    rcases opB with op | op | op | op
    · exact ⟨.rxSetCaptureCb (validField w) (argField w), assemble_eq_of_fields op aux rfl⟩
    · exact ⟨.rxSetTimeoutCb (validField w) (argField w), assemble_eq_of_fields op aux rfl⟩
    · exact ⟨.txSetDataCb (validField w) (argField w), assemble_eq_of_fields op aux rfl⟩
    · exact ⟨.txSetSentCb (validField w) (argField w), assemble_eq_of_fields op aux rfl⟩
  · exact ⟨.txStart (argField w) (auxField w), assemble_eq_of_fields opS rfl rfl⟩

/-- Settles O4: the words that decode are the commands' words, and so are the words with well-formed fields. -/
theorem masksAgreeWithFormats : Obligations.MasksAgreeWithFormats := by
  intro w
  simp only [decode_eq_instr_iff]
  refine ⟨?_, exists_encode_of_wellFormed⟩
  rintro ⟨i, rfl⟩
  exact wellFormed_encode i

/-- Settles O5: each word is run through the decoder. -/
theorem sampleWordsDecode : Obligations.SampleWordsDecode := by
  unfold Obligations.SampleWordsDecode
  decide

/-! ## The producer's answers -/

@[simp] theorem statusCode_statusOf (c : BitVec 2) : statusCode (statusOf c) = c := by
  revert c
  decide

/-- Settles O6: the fields stand where `answerOf` reads them, and a status is its code. -/
theorem producerAnswerFields : Obligations.ProducerAnswerFields :=
  ⟨answerOf_answerWord, fun a => ⟨rfl, statusCode_statusOf (a.extractLsb' 32 2), rfl⟩⟩

/-! ## Illegal words -/

/-- A ready host that writes an illegal word halts the block, before any check of `STATE` (R50, R52). -/
theorem hostWrite_reject {w : Word} {why : Reject} {s : State} (ready : s.hostReady) (rejected : decode w = .reject why) :
    hostWrite (bytesOfWord w) s = .next (raiseFatal s s .illegalCommand (opField w)) := by
  unfold hostWrite
  rw [decodeBytes_bytesOfWord, rejected]
  cases why with
  | notEightBytes => exact absurd rejected (decode_ne_notEightBytes w)
  | unassignedOpcode | reservedBitSet => exact hostGate_of_ready _ ready.1 ready.2

/-- Settles O9: a word that hits no row is rejected, and the supplied write is taken to the port. -/
theorem illegalWordHalts : Obligations.IllegalWordHalts := by
  intro s w rest ready supplied noRow
  rw [step_eq_takeInput ready.1 supplied]
  rcases decode_cases w with ⟨r, row, hit, -⟩ | ⟨-, why, rejected⟩
  · rw [noRow r row] at hit
    nomatch hit
  · exact hostWrite_reject (s := { s with inputs := rest }) ready rejected

end Sys2Proof.Machine

namespace Sys2Proof.Machine

/-! ## The commands of the RX capturer -/

/-- A command other than `TX_START` with one legal state: its effect in that state, and the halt with `BadState` in any
other (R52, R80, R95). -/
theorem exec_of_one_legal_state {i : Instr} {e : EngineState} {s t : State} (ready : s.hostReady)
    (legal : legalState i s.engine = decide (s.engine = e)) (did : Commanded i s t)
    (noStart : ∀ f d, i ≠ .txStart f d) :
    (s.engine = e → exec i s = .next t) ∧
    (s.engine ≠ e →
      exec i s = .next { s with halted := true, faultCause := 0x01#8, faultOp := opcodeOf i }) :=
  ⟨fun there => exec_legal ready (legal.trans (decide_eq_true there)) did noStart,
    fun elsewhere => exec_illegal ready (legal.trans (decide_eq_false elsewhere))⟩

/-- Settles O16: the word is the command's, whose one legal state is `Idle`. -/
theorem rxStartBeginsASession : Obligations.RxStartBeginsASession :=
  ⟨decode_eq_instr_iff.2 pattern_10.symm,
    fun _ ready => exec_of_one_legal_state ready (legalState_eq _ _) rfl nofun⟩

/-- Settles O17: the word is the command's, whose one legal state is `AsyncRx`. -/
theorem rxStopEndsASession : Obligations.RxStopEndsASession :=
  ⟨decode_eq_instr_iff.2 pattern_11.symm,
    fun _ ready => exec_of_one_legal_state ready (legalState_eq _ _) rfl nofun⟩

/-- Settles O19: each command's one legal state is `Idle`. -/
theorem rxCallbackCommandsWriteTheirSlot : Obligations.RxCallbackCommandsWriteTheirSlot := by
  intro valid ctx s ready
  obtain ⟨capture, captureHalts⟩ :=
    exec_of_one_legal_state (i := .rxSetCaptureCb valid ctx) ready (legalState_eq _ _) rfl nofun
  obtain ⟨timeout, timeoutHalts⟩ :=
    exec_of_one_legal_state (i := .rxSetTimeoutCb valid ctx) ready (legalState_eq _ _) rfl nofun
  exact ⟨fun idle => ⟨capture idle, timeout idle⟩, fun busy => ⟨captureHalts busy, timeoutHalts busy⟩⟩

/-! ## The environment's steps -/

/-- A tick while the RX timer is off changes nothing (R63). -/
theorem tick_of_disabled {s : State} (disabled : s.rxEn = false) : tick s = s := by
  simp [tick, disabled]

/-- Settles O20: the two cases of the timer's enable. -/
theorem tickCountsAndCompares : Obligations.TickCountsAndCompares := by
  refine fun s => ⟨tick_of_disabled, ?_⟩
  rintro enabled c rfl
  exact tick_eq enabled

/-- A record sent through a slot is appended if the slot is valid, and nothing else changes (R55). -/
theorem notify_eq (s : State) (slot : CbSlot) (record : Count → Callout) :
    s.notify slot record =
      { s with callouts := s.callouts ++ if slot.valid = true then [record slot.ctx] else [] } := by
  unfold State.notify
  split
  · rfl
  · rw [List.append_nil]

/-- `Rise` while the RX timer runs (R64, R67). -/
theorem rise_of_enabled {s : State} (low : s.rxPin = false) (enabled : s.rxEn = true) : rise s = .next { s with
    rxPin := true, rxCcr1 := s.rxCnt, rxCnt := 0#32,
    callouts := s.callouts ++
      if s.cbCap.valid = true then [.capture s.cbCap.ctx true (s.rxCnt - s.prevCh2)] else [] } := by
  simp only [rise, low, cc1Flag, enabled, risingService, notify_eq, Bool.false_eq_true, if_false, if_true]

/-- `Fall` while the RX timer runs (R65, R68). -/
theorem fall_of_enabled {s : State} (high : s.rxPin = true) (enabled : s.rxEn = true) : fall s = .next { s with
    rxPin := false, rxCcr2 := s.rxCnt, prevCh2 := s.rxCnt,
    callouts := s.callouts ++ if s.cbCap.valid = true then [.capture s.cbCap.ctx false s.rxCnt] else [] } := by
  simp only [fall, high, cc2Flag, enabled, fallingService, notify_eq, if_true]

/-- Settles O21: by the pin's level, then the timer's enable. -/
theorem riseCapturesAndReportsTheMark : Obligations.RiseCapturesAndReportsTheMark := by
  refine fun s => ⟨fun high => ?_, fun low disabled => ?_, rise_of_enabled⟩
  · simp [rise, high]
  · simp [rise, low, cc1Flag, disabled]

/-- Settles O22: by the pin's level, then the timer's enable. -/
theorem fallCapturesAndReportsTheSpace : Obligations.FallCapturesAndReportsTheSpace := by
  refine fun s => ⟨fun low => ?_, fun high disabled => ?_, fall_of_enabled⟩
  · simp [fall, low]
  · simp [fall, high, cc2Flag, disabled]

/-! ## The timeout compare -/

theorem tick_rxCnt_le {s : State} (within : s.rxCnt.toNat ≤ s.params.rxPeriod.toNat) :
    (tick s).rxCnt.toNat ≤ s.params.rxPeriod.toNat := by
  rcases tick_rxCnt s with kept | counted
  · rwa [kept]
  · rw [counted, nextCount_toNat within]
    exact Nat.le_of_lt_succ (Nat.mod_lt _ (Nat.succ_pos _))

/-- Only the wrap counts to 0 (R63). -/
theorem eq_period_of_nextCount_eq_zero {c p : Count} (within : c.toNat ≤ p.toNat) (zero : nextCount c p = 0#32) :
    c = p := by
  by_contra below
  have : c.toNat ≠ p.toNat := fun same => below (BitVec.eq_of_toNat_eq same)
  have counted := nextCount_toNat within
  rw [zero, Nat.mod_eq_of_lt (by omega)] at counted
  nomatch counted

/-- A tick whose count is not the compare reports nothing (R63). -/
theorem tick_callouts_of_ne {s : State} (noMatch : (tick s).rxCnt ≠ s.rxCcr3) : (tick s).callouts = s.callouts := by
  cases enabled : s.rxEn with
  | false => rw [tick_of_disabled enabled]
  | true =>
    rw [tick_eq enabled] at noMatch ⊢
    have unreported : ¬(s.rxTmoArmed = true ∧ nextCount s.rxCnt s.params.rxPeriod = s.rxCcr3 ∧ s.rxPin = true ∧
      s.cbTmo.valid = true) := fun ⟨_, matched, _⟩ => noMatch matched
    rw [if_neg unreported, List.append_nil]

/-- Settles O18: the word is assembled from its fields, the command's one legal state is `AsyncRx`, and a tick reports a
timeout only where its count is the compare. -/
theorem rxSetTimeoutArmsTheCompare : Obligations.RxSetTimeoutArmsTheCompare := by
  refine ⟨fun us => ?_, fun us s ready => exec_of_one_legal_state ready (legalState_eq _ _) rfl nofun,
    fun s within => ⟨fun above => ?_, fun zero reported => ?_⟩⟩
  · have fields : 0x12#8 ++ 0#24 = 0x12000000#32 := by decide
    exact decode_eq_instr_iff.2 (congrArg (· ++ us) fields)
  · refine tick_callouts_of_ne fun matched => ?_
    have := tick_rxCnt_le within
    rw [matched] at this
    omega
  · have matched : (tick s).rxCnt = s.rxCcr3 := by_contra fun noMatch => reported (tick_callouts_of_ne noMatch)
    have enabled : s.rxEn = true := by
      by_contra off
      exact reported (by rw [tick_of_disabled (Bool.eq_false_of_not_eq_true off)])
    rw [zero, tick_eq enabled] at matched
    exact eq_period_of_nextCount_eq_zero within matched

/-- A tick reports at most one timeout (R63, R69). -/
theorem timeoutCount_tick_le (s : State) : timeoutCount (tick s).callouts ≤ timeoutCount s.callouts + 1 := by
  cases enabled : s.rxEn with
  | false =>
    rw [tick_of_disabled enabled]
    exact Nat.le_succ _
  | true =>
    rw [tick_eq enabled, timeoutCount, List.countP_append]
    refine Nat.add_le_add_left ?_ _
    split <;> simp

/-- Ticks none of which counts to the compare report nothing (R63). -/
theorem ticks_callouts_of_ne {s : State} {n : Nat} (noMatch : ∀ k < n, (tick^[k + 1] s).rxCnt ≠ s.rxCcr3) :
    (tick^[n] s).callouts = s.callouts := by
  induction n with
  | zero => rfl
  | succ n ih =>
    have last := noMatch n (Nat.lt_succ_self n)
    rw [Function.iterate_succ_apply'] at last ⊢
    rw [tick_callouts_of_ne, ih fun k before => noMatch k (Nat.lt_succ_of_lt before)]
    rwa [ticks_frame n s] at last ⊢

/-- Within one period the RX counter takes no value twice (R63). -/
theorem ticks_rxCnt_ne {s : State} {j k : Nat} (enabled : s.rxEn = true)
    (within : s.rxCnt.toNat ≤ s.params.rxPeriod.toNat) (later : j < k) (near : k - j ≤ s.params.rxPeriod.toNat) :
    (tick^[j] s).rxCnt ≠ (tick^[k] s).rxCnt := by
  intro same
  have congruent : s.rxCnt.toNat + j ≡ s.rxCnt.toNat + k [MOD s.params.rxPeriod.toNat + 1] := by
    rw [Nat.ModEq, ← ticks_count enabled within, ← ticks_count enabled within, same]
  have divides := (Nat.modEq_iff_dvd' later.le).1 congruent.add_left_cancel'
  have := Nat.le_of_dvd (Nat.sub_pos_of_lt later) divides
  omega

/-- Settles O25: if the last tick counts to the compare no earlier one did, so none of them has reported. -/
theorem timeoutAtMostOncePerPeriod : Obligations.TimeoutAtMostOncePerPeriod := by
  intro s n within few
  cases enabled : s.rxEn with
  | false =>
    rw [Function.iterate_fixed (tick_of_disabled enabled)]
    exact Nat.le_succ _
  | true =>
    induction n with
    | zero => exact Nat.le_succ _
    | succ n ih =>
      by_cases matched : (tick^[n + 1] s).rxCnt = s.rxCcr3
      · have unreported : (tick^[n] s).callouts = s.callouts := by
          refine ticks_callouts_of_ne fun k before => ?_
          rw [← matched]
          exact ticks_rxCnt_ne enabled within (Nat.succ_lt_succ before) (by omega)
        rw [Function.iterate_succ_apply', ← unreported]
        exact timeoutCount_tick_le _
      · have unreported : (tick^[n + 1] s).callouts = (tick^[n] s).callouts := by
          rw [Function.iterate_succ_apply'] at matched ⊢
          refine tick_callouts_of_ne ?_
          rwa [ticks_frame n s] at matched ⊢
        rw [unreported]
        exact ih (by omega)

/-! ## The durations reported -/

/-- The count after `n` ticks, as the word a capture latches (R63). -/
theorem ticks_rxCnt {s : State} (enabled : s.rxEn = true) (within : s.rxCnt.toNat ≤ s.params.rxPeriod.toNat)
    (n : Nat) : (tick^[n] s).rxCnt = BitVec.ofNat 32 ((s.rxCnt.toNat + n) % (s.params.rxPeriod.toNat + 1)) := by
  rw [← ticks_count enabled within, BitVec.ofNat_toNat, BitVec.setWidth_eq]

/-- A fall some ticks later in a session with a capture callback reports the count reached (R65, R68). -/
theorem fall_after_ticks {s : State} (high : s.rxPin = true) (enabled : s.rxEn = true) (slot : s.cbCap.valid = true)
    (n : Nat) : ∃ u, fall (tick^[n] s) = .next u ∧
      u.callouts = (tick^[n] s).callouts ++ [.capture s.cbCap.ctx false (tick^[n] s).rxCnt] := by
  have frame := ticks_frame n s
  generalize tick^[n] s = m at frame ⊢
  refine ⟨_, fall_of_enabled (by rwa [frame]) (by rwa [frame]), ?_⟩
  rw [if_pos (by rwa [frame]), frame]

/-- A rise some ticks later in a session with a capture callback reports the count since the stashed one (R64, R67). -/
theorem rise_after_ticks {s : State} (low : s.rxPin = false) (enabled : s.rxEn = true) (slot : s.cbCap.valid = true)
    (n : Nat) : ∃ u, rise (tick^[n] s) = .next u ∧
      u.callouts = (tick^[n] s).callouts ++ [.capture s.cbCap.ctx true ((tick^[n] s).rxCnt - s.prevCh2)] := by
  have frame := ticks_frame n s
  generalize tick^[n] s = m at frame ⊢
  refine ⟨_, rise_of_enabled (by rwa [frame]) (by rwa [frame]), ?_⟩
  rw [if_pos (by rwa [frame]), frame]

/-- Settles O23: the rise zeroes the counter and the ticks count modulo the period. -/
theorem spaceDurationIsTheTicksSinceTheRise : Obligations.SpaceDurationIsTheTicksSinceTheRise := by
  intro s t n enabled slot rose
  obtain ⟨-, ⟨disabled, -⟩ | ⟨-, raised⟩⟩ := rise_next rose
  · exact absurd (disabled.symm.trans enabled) Bool.false_ne_true
  have running : t.rxEn = true := by rwa [raised]
  have zero : t.rxCnt.toNat = 0 := by rw [raised]; rfl
  obtain ⟨u, fell, reported⟩ := fall_after_ticks (s := t) (by rw [raised]) running (by rwa [raised]) n
  rw [ticks_rxCnt running (by omega), zero, Nat.zero_add] at reported
  refine ⟨u, fell, ?_⟩
  rw [reported, raised]

/-- A count less another one is the difference of their values modulo `2^32` (R67). -/
theorem ofNat_sub_eq {c : Count} {m d : Nat} (apart : m % 2 ^ 32 = (c.toNat + d) % 2 ^ 32) :
    BitVec.ofNat 32 m - c = BitVec.ofNat 32 d := by
  have sum : BitVec.ofNat 32 m = c + BitVec.ofNat 32 d := by
    apply BitVec.eq_of_toNat_eq
    simpa using apart
  rw [sum, BitVec.add_comm, BitVec.add_sub_cancel]

/-- Settles O24: the fall stashes the count it captures, so the rise reports how far the counter has moved since. -/
theorem markDurationIsTheTicksSinceTheFall : Obligations.MarkDurationIsTheTicksSinceTheFall := by
  intro s t n enabled slot fell
  obtain ⟨-, ⟨disabled, -⟩ | ⟨-, lowered⟩⟩ := fall_next fell
  · exact absurd (disabled.symm.trans enabled) Bool.false_ne_true
  have running : t.rxEn = true := by rwa [lowered]
  have count : t.rxCnt = s.rxCnt := by rw [lowered]
  have period : t.params.rxPeriod = s.params.rxPeriod := by rw [lowered]
  have moved {d : Nat} (within : s.rxCnt.toNat ≤ s.params.rxPeriod.toNat)
      (apart : (s.rxCnt.toNat + n) % (s.params.rxPeriod.toNat + 1) % 2 ^ 32 = (s.rxCnt.toNat + d) % 2 ^ 32) :
      (tick^[n] t).rxCnt - s.rxCnt = BitVec.ofNat 32 d := by
    rw [ticks_rxCnt running (by rwa [count, period]), count, period]
    exact ofNat_sub_eq apart
  obtain ⟨u, rose, reported⟩ := rise_after_ticks (s := t) (by rw [lowered]) running (by rwa [lowered]) n
  refine ⟨u, (tick^[n] t).rxCnt - s.rxCnt, rose, ?_,
    fun unwrapped => ?_, fun full => ?_, fun within wrapped once => ?_⟩
  · rw [reported, lowered]
  · refine moved (by omega) ?_
    rw [Nat.mod_eq_of_lt (Nat.lt_succ_of_le unwrapped)]
  · refine moved ?_ ?_ <;> rw [full]
    · exact Nat.le_of_lt_succ s.rxCnt.isLt
    · exact Nat.mod_mod _ _
  · refine moved within ?_
    have : s.params.rxPeriod.toNat < 2 ^ 32 := s.params.rxPeriod.isLt
    have reached : (s.rxCnt.toNat + n) % (s.params.rxPeriod.toNat + 1) =
        s.rxCnt.toNat + n - (s.params.rxPeriod.toNat + 1) := by
      rw [Nat.mod_eq_sub_mod wrapped, Nat.mod_eq_of_lt (by omega)]
    omega

end Sys2Proof.Machine

namespace Sys2Proof.Machine

/-! ## The commands of the TX streamer -/

/-- Settles O27: each command's one legal state is `Idle`. -/
theorem txCallbackCommandsWriteTheirSlot : Obligations.TxCallbackCommandsWriteTheirSlot := by
  intro valid ctx s ready
  obtain ⟨data, dataHalts⟩ :=
    exec_of_one_legal_state (i := .txSetDataCb valid ctx) ready (legalState_eq _ _) rfl nofun
  obtain ⟨sent, sentHalts⟩ :=
    exec_of_one_legal_state (i := .txSetSentCb valid ctx) ready (legalState_eq _ _) rfl nofun
  exact ⟨fun idle => ⟨data idle, sent idle⟩, fun busy => ⟨dataHalts busy, sentHalts busy⟩⟩

/-- Settles O32: the word is the command's, legal throughout a session, and `AsyncTx` alone is left. -/
theorem txStopIssueStep : Obligations.TxStopIssueStep := by
  refine ⟨decode_eq_instr_iff.2 pattern_23.symm, fun s ready => ⟨fun steady => ?_, fun session other => ?_, fun idle => ?_⟩⟩
  · exact exec_legal ready (by rw [steady]; rfl) (by simp only [Commanded, steady, afterStopRequest]) nofun
  · have kept : afterStopRequest s.engine = s.engine := by
      cases h : s.engine with
      | asyncTx => exact absurd h other
      | _ => rfl
    exact exec_legal ready ((legalState_eq _ _).trans session) (by simp only [Commanded, kept]) nofun
  · exact exec_illegal ready ((legalState_eq _ _).trans idle)

/-- Settles O33: the word is the command's, legal throughout a session. -/
theorem txWaitTermIssueStep : Obligations.TxWaitTermIssueStep :=
  ⟨decode_eq_instr_iff.2 pattern_24.symm, fun _ ready =>
    ⟨fun session => exec_legal ready ((legalState_eq _ _).trans session) rfl nofun,
      fun idle => exec_illegal ready ((legalState_eq _ _).trans idle)⟩⟩

/-- Settles O34: the two sides of the completion step's enabling condition. -/
theorem completionFreesTheSession : Obligations.CompletionFreesTheSession := by
  refine fun s => ⟨fun held given => if_pos ⟨held, given⟩, fun missing => if_neg ?_⟩
  rintro ⟨held, given⟩
  rcases missing with free | taken
  · exact held free
  · exact Bool.noConfusion (given.symm.trans taken)

/-- Settles O35: the word is the command's, legal in every state. -/
theorem txIsCompletePollsStopped : Obligations.TxIsCompletePollsStopped := by
  refine ⟨decode_eq_instr_iff.2 pattern_25.symm, fun s ready => ?_⟩
  have polled : exec .txIsComplete s = .next { s with resp := if s.engine = .asyncTxStopped then 1#32 else 0#32 } :=
    exec_legal ready (legalState_eq _ _) rfl nofun
  exact ⟨fun stopped => by rw [polled, if_pos stopped], fun other => by rw [polled, if_neg other]⟩

/-! ## Legal states -/

/-- Only `BadState` has its code (R94). -/
theorem raiseFatal_faultCause_ne {s r : State} {c : FatalCause} {op : BitVec 8} (other : c ≠ .badState) :
    (raiseFatal s r c op).faultCause ≠ 0x01#8 := by
  rw [raiseFatal_faultCause]
  revert other
  cases c <;> decide

/-- The causes `TX_START` raises by its own checks and its first fill are not `BadState` (R94), and no other command in its
legal state halts the block. -/
theorem commanded_faultCause {c : Instr} {s t : State} (did : Commanded c s t) :
    t.faultCause = s.faultCause ∨ t.faultCause ≠ 0x01#8 := by
  cases c with
  | txStart f d =>
    rcases did with ⟨-, rfl⟩ | ⟨-, -, rfl⟩ | ⟨-, -, -, rfl⟩ | ⟨-, -, -, ⟨r, -, rfl⟩ | ⟨m, filled, rfl⟩⟩
    · exact .inr (raiseFatal_faultCause_ne nofun)
    · exact .inr (raiseFatal_faultCause_ne nofun)
    · exact .inr (raiseFatal_faultCause_ne nofun)
    · exact .inr (raiseFatal_faultCause_ne nofun)
    · rw [(launched_eq filled).2]
      exact .inl rfl
  | _ =>
    simp only [Commanded] at did
    rw [did]
    exact .inl rfl

/-- Settles O11: a command halts with `BadState` where its state is not listed, and else has its effect. -/
theorem commandsAreLegalExactlyInTheirStates : Obligations.CommandsAreLegalExactlyInTheirStates := by
  refine fun i s ready => ⟨exec_illegal ready, fun legal t run => ?_⟩
  rcases exec_next run with ⟨-, ⟨illegal, -⟩ | ⟨-, did⟩⟩
  · exact absurd (legal.symm.trans illegal) nofun
  · exact commanded_faultCause did

/-! ## The checks of `TX_START` -/

theorem dutyLegal_iff {d : BitVec 24} : dutyLegal d = true ↔ d ≠ 0#24 ∧ d.toNat ≤ 65536 := by
  simp only [dutyLegal, Bool.and_eq_true, decide_eq_true_eq]

theorem freqLegal_iff {p : Params} {f : Count} :
    freqLegal p f = true ↔ p.txFreqMin.toNat ≤ f.toNat ∧ f.toNat ≤ p.txFreqMax.toNat := by
  simp only [freqLegal, Bool.and_eq_true, decide_eq_true_eq]

section
variable {f : Count} {d : BitVec 24} {s : State}

/-- `TX_START` without a data callback halts the block (R75, R94). -/
theorem exec_txStart_noCallback (ready : s.hostReady) (idle : s.engine = .idle) (slot : s.cbData.valid = false) :
    exec (.txStart f d) s = .next (raiseFatal s s .nullDataCallback 0x22#8) := by
  rw [exec, execTxStart_legal ready (decide_eq_true idle), if_pos slot]

/-- `TX_START` halts the block on a frequency out of range, where the duty cycle is legal (R75, R94). -/
theorem exec_txStart_badFrequency (ready : s.hostReady) (idle : s.engine = .idle) (slot : s.cbData.valid = true)
    (duty : dutyLegal d = true) (range : freqLegal s.params f = false) :
    exec (.txStart f d) s = .next (raiseFatal s s .badFrequency 0x22#8) := by
  rw [exec, execTxStart_legal ready (decide_eq_true idle), slot, duty, range]
  rfl

/-- The host is ready, the block idle, and every check of `TX_START` holds (R75). -/
structure StartsSession (f : Count) (d : BitVec 24) (s : State) : Prop where
  ready : s.hostReady
  idle : s.engine = .idle
  slot : s.cbData.valid = true
  duty : dutyLegal d = true
  freq : freqLegal s.params f = true

theorem exec_txStart_filled {m : State} (checks : StartsSession f d s) (filled : fill .b0 (armTx f d s) = .filled m) :
    exec (.txStart f d) s = .next (launchTx m) := by
  rw [exec, execTxStart_legal checks.ready (decide_eq_true checks.idle), checks.slot, checks.duty, checks.freq, filled]
  rfl

theorem exec_txStart_producerError {r : State} (checks : StartsSession f d s)
    (error : fill .b0 (armTx f d s) = .producerError r) :
    exec (.txStart f d) s = .next (raiseFatal s r .producerError 0x22#8) := by
  rw [exec, execTxStart_legal checks.ready (decide_eq_true checks.idle), checks.slot, checks.duty, checks.freq, error]
  rfl

end

/-- Settles O28: each check in turn, with the earlier ones passed. -/
theorem txStartReportsTheFirstFailingCheck : Obligations.TxStartReportsTheFirstFailingCheck := by
  refine fun freq duty s ready => ⟨fun busy => ?_, exec_txStart_noCallback ready, exec_txStart_badDuty ready,
    fun idle slot nonzero small range => ?_⟩
  · exact exec_illegal ready ((legalState_eq _ _).trans (decide_eq_false busy))
  · refine exec_txStart_badFrequency ready idle slot (dutyLegal_iff.2 ⟨nonzero, small⟩) ?_
    rw [Bool.eq_false_iff, Ne, freqLegal_iff]
    omega

/-! ## The first fill -/

/-- A fill whose frame is kept so far has only taken answers off the list. -/
theorem FillFrame.noErrorListed {b : BufIdx} {s t : State} (frame : FillFrame b s t) (none : noErrorListed s) :
    noErrorListed t := by
  obtain ⟨n, producer, -⟩ := frame.taken
  intro a mem
  rw [producer] at mem
  exact none a (List.mem_of_mem_drop mem)

/-- The loop of a fill from `s`, as long as it goes on, is ended by the remainder or the answers still listed. -/
def endingInv (b : BufIdx) (s : State) (n : Nat) (st : Status) (t : State) : Prop :=
  loopInv b s n st t ∧ (st = .ok → t.endsFillAt n)

theorem endingInv_keep (b : BufIdx) (s : State) (n : Nat) (t : State) (m : Nat) (st : Status) (u : State)
    (inv : endingInv b s n .ok t) (free : n < t.params.txBufCap) (iter : fillIter b n t = .go m st u) :
    endingInv b s m st u := by
  obtain ⟨loop, ends⟩ := inv
  refine ⟨loopInv_keep b s n t m st u loop free iter, fun ok => ?_⟩
  subst ok
  exact (fillIter_endsFillAt free (ends rfl) iter).1

/-- A fill that its listed answers end asks for no answer beyond the list, so it meets no `Error` that is not listed. -/
theorem fill_ne_producerError {b : BufIdx} {s r : State} (valid : s.bufValid = true) (none : noErrorListed s)
    (ends : listedAnswersEndFill s.freq s) : fill b s ≠ .producerError r := by
  intro error
  have start : endingInv b s 0 .ok s := ⟨loopInv_init valid, fun _ => endsFillAt_zero ends⟩
  rcases fillLoop_cases (endingInv_keep b s) (fillFuel s) 0 .ok s start with
    ⟨t, returns, -⟩ | ⟨_, -, n, x, ⟨⟨frame, -, -⟩, endsHere⟩, free, iter⟩ | ⟨_, stuck, -⟩
  · cases error.symm.trans returns
  · obtain ⟨noRest, status, -⟩ := fillIter_error iter
    obtain ⟨a, rest, listed⟩ := producer_cons_of_endsFillAt free noRest (endsHere rfl)
    rw [(dataReq_cons listed).1] at status
    exact frame.noErrorListed none a (by simp [listed]) status
  · cases error.symm.trans stuck

/-- The first fill leaves a buffer that may be handed to the DMA, and `AsyncTx` unless that buffer ends the last packet
(R75, R84). -/
theorem firstFill_buffer {f : Count} {d : BitVec 24} {s m : State} (filled : fill .b0 (armTx f d s) = .filled m) :
    ∃ u, m.buf .b0 = some u ∧ u.Playable s.params.txBufCap ∧
      m.engine = if u.lastPacketEnd = true then .asyncTxLast else .asyncTx := by
  obtain ⟨u, first, playable, engine⟩ := (launched_eq filled).1.buffer
  exact ⟨u, first, playable, by simpa [armTx] using engine⟩

/-- Settles O30: with no `Error` listed and the fill ended by the list, the first fill returns, and the session is launched
on what it left. -/
theorem txStartCompletes : Obligations.TxStartCompletes := by
  intro freq duty s ready params idle slot nonzero small low high none ends
  have checks : StartsSession freq duty s :=
    ⟨ready, idle, slot, dutyLegal_iff.2 ⟨nonzero, small⟩, freqLegal_iff.2 ⟨low, high⟩⟩
  have cap : 1 ≤ s.params.txBufCap := by
    simp only [Params.wf, Bool.and_eq_true, decide_eq_true_eq] at params
    omega
  cases filled : fill .b0 (armTx freq duty s) with
  | producerError r => exact absurd filled (fill_ne_producerError rfl none ends)
  | stuck f => exact absurd filled (fill_ne_stuck rfl cap ends)
  | filled m =>
    obtain ⟨spec, launched⟩ := launched_eq filled
    obtain ⟨u, first, playable, engine⟩ := firstFill_buffer filled
    have running : (launchTx m).halted = false := by rw [launched]; exact ready.1
    refine ⟨launchTx m, u, exec_txStart_filled checks filled, running, ?_, ?_, first, playable, spec.frame.other, engine,
      ?_, ?_, rfl, rfl, rfl, rfl, rfl⟩ <;> rw [launched]

/-! ## A first fill that meets `Error` -/

/-- An `Ok` sample that one entry holds (R83, R84). -/
def takesOneEntry (freq : Count) (a : AnswerWord) : Prop :=
  (answerOf a).status = .ok ∧ 1 ≤ numCycles (answerOf a).duration.toNat freq.toNat ∧
    numCycles (answerOf a).duration.toNat freq.toNat ≤ 65536

/-- The record of a data request that was answered so (R37, R55). -/
def requestRecord (ctx : Count) (a : AnswerWord) : Callout := .dataReq ctx (answerOf a)

/-- An iteration that takes a listed `Error` (R84 step 2). -/
theorem fillIter_listedError {b : BufIdx} {n : Nat} {s : State} {a : AnswerWord} {rest : List AnswerWord}
    (noRest : s.restDuration = 0#64) (listed : s.producer = a :: rest) (error : (answerOf a).status = .error) :
    fillIter b n s = .producerError s.dataReq.2 := by
  have status : s.dataReq.1.status = .error := by rw [(dataReq_cons listed).1, error]
  simp only [fillIter, pullSample, noRest, status, if_true]

theorem fillLoop_error {b : BufIdx} {fuel n : Nat} {s r : State} (free : n < s.params.txBufCap)
    (iter : fillIter b n s = .producerError r) : fillLoop b (fuel + 1) n .ok s = .producerError r := by
  simp [fillLoop, free, iter]

/-- A loop without a remainder that finds listed as many one-entry samples as fit and then an `Error` has taken these
answers and recorded each request. -/
theorem fillLoop_listedError {b : BufIdx} {good : List AnswerWord} {bad : AnswerWord} {rest : List AnswerWord}
    {fuel n : Nat} {s : State} {u : Buffer} (allocated : s.buf b = some u) (noRest : s.restDuration = 0#64)
    (listed : s.producer = good ++ bad :: rest) (fits : n + good.length < s.params.txBufCap) (enough : good.length < fuel)
    (small : ∀ a ∈ good, takesOneEntry s.freq a) (error : (answerOf bad).status = .error) :
    ∃ r, fillLoop b fuel n .ok s = .producerError r ∧ r.producer = rest ∧ r.draws = s.draws ∧
      r.callouts = s.callouts ++ (good ++ [bad]).map (requestRecord s.cbData.ctx) := by
  induction good generalizing fuel n s u with
  | nil =>
    obtain ⟨fuel, rfl⟩ := Nat.exists_eq_succ_of_ne_zero (Nat.ne_of_gt enough)
    refine ⟨_, fillLoop_error fits (fillIter_listedError noRest listed error), (dataReq_cons listed).2, ?_, ?_⟩
    · simp [nextAnswer_cons listed]
    · rw [dataReq_callouts, (dataReq_cons listed).1]
      rfl
  | cons a good ih =>
    obtain ⟨fuel, rfl⟩ := Nat.exists_eq_succ_of_ne_zero (Nat.ne_of_gt (Nat.zero_lt_of_lt enough))
    rw [List.length_cons] at fits enough
    obtain ⟨ok, atLeast, atMost⟩ := small a (List.mem_cons_self ..)
    have free : n < s.params.txBufCap := by omega
    obtain ⟨t, v, iter, buf, params, freq, noRest', producer, draws, cbData, callouts⟩ :=
      fillIter_pullOk allocated free noRest listed ok atLeast atMost
    obtain ⟨r, loop, taken, drawn, recorded⟩ := ih (s := t) buf noRest' producer (fuel := fuel) (n := n + 1)
      (by rw [params]; omega) (by omega) (fun c mem => freq ▸ small c (List.mem_cons_of_mem _ mem))
    refine ⟨r, (fillLoop_go free iter).trans loop, taken, drawn.trans draws, ?_⟩
    rw [recorded, callouts, cbData]
    simp [requestRecord]

/-- Settles O29: the first fill takes the samples and meets the `Error`, and the halt keeps only its requests. -/
theorem txStartProducerErrorKeepsTheRequests : Obligations.TxStartProducerErrorKeepsTheRequests := by
  intro freq duty s good bad rest ready idle slot nonzero small low high listed fits good_ok error
  have checks : StartsSession freq duty s :=
    ⟨ready, idle, slot, dutyLegal_iff.2 ⟨nonzero, small⟩, freqLegal_iff.2 ⟨low, high⟩⟩
  have enough : good.length < fillFuel (armTx freq duty s) := by
    have length : (armTx freq duty s).producer.length = (good ++ bad :: rest).length := congrArg List.length listed
    simp only [fillFuel, length, List.length_append, List.length_cons]
    omega
  obtain ⟨r, met, producer, draws, callouts⟩ := fillLoop_listedError (b := .b0) (n := 0) (s := armTx freq duty s) rfl rfl
    listed (by rwa [Nat.zero_add]) enough good_ok error
  obtain ⟨-, -, -, trace, -⟩ := firstFill_error met
  rw [exec_txStart_producerError checks met, raiseFatal, producer, draws, callouts, trace]
  rfl

/-! ## The entries a fill writes -/

/-- The end of a fill keeps the entries written, or writes the forced one where there is none, and keeps the remainder and
the callouts (R84). -/
theorem closeFill_entries {b : BufIdx} {n : Nat} {st : Status} {s t : State} {u : Buffer} {es : List Entry}
    (allocated : s.buf b = some u) (length : es.length = n) (read : ∀ i, i < n → Memory.read u.cells i = es[i]?)
    (closed : closeFill b n st s = .filled t) :
    ∃ v, t.buf b = some v ∧ v.entries = (if n = 0 then [degenerateEntry] else es) ∧
      t.restDuration = s.restDuration ∧ t.restLevel = s.restLevel ∧ t.restStatus = s.restStatus ∧
      t.callouts = s.callouts := by
  obtain ⟨m, cells, buf, shape, frame⟩ := close_shape allocated closed
  refine ⟨_, buf, ?_, by rw [frame], by rw [frame], by rw [frame], by rw [frame]⟩
  rcases shape with ⟨rfl, rfl, rfl⟩ | ⟨some, rfl, rfl⟩
  · refine entries_eq rfl rfl fun i below => ?_
    obtain rfl : i = 0 := Nat.lt_one_iff.1 below
    exact Memory.read_write_same _ _ _
  · rw [if_neg some]
    exact entries_eq rfl length read

/-- What a fill that returns makes of the entries due: the remainder's before and those of the samples it took (R84, R85). -/
structure FillEntries (s t : State) (u : Buffer) (answers : List Answer) : Prop where
  conserved : s.entriesDue answers ≠ [] → u.entries ++ t.restEntries = s.entriesDue answers
  forced : s.entriesDue answers = [] → u.entries = [degenerateEntry] ∧ t.restDuration = 0#64
  restStatus : t.restDuration ≠ 0#64 → t.restStatus = s.lastStatus answers

theorem fill_entries {b : BufIdx} {s t : State} (valid : s.bufValid = true) (filled : fill b s = .filled t) :
    ∃ u l, t.buf b = some u ∧ t.callouts = s.callouts ++ l ∧ (∀ c ∈ l, ∃ a, c = .dataReq s.cbData.ctx a) ∧
      FillEntries s t u (requestedAnswers l) := by
  obtain ⟨n, st, x, ⟨-, -, w, l, es, buf, callouts, requests, length, read, due, left, -⟩, ended, closed⟩ :=
    fill_final valid filled
  obtain ⟨u, closedBuf, entries, restDuration, restLevel, restStatus, keptCallouts⟩ :=
    closeFill_entries buf length read closed
  have cap := fill_filled_cap filled
  have rest : t.restEntries = x.restEntries := by simp only [State.restEntries, restDuration, restLevel]
  have noRest (empty : n = 0) : x.restDuration = 0#64 := by
    by_contra some
    exact ended ⟨by omega, (left some).1⟩
  have restEntries_nil (empty : x.restDuration = 0#64) : x.restEntries = [] := by
    rw [State.restEntries, empty]
    exact splitEntries_zero _
  refine ⟨u, l, closedBuf, keptCallouts.trans callouts, requests, fun some => ?_, fun none => ?_, fun some => ?_⟩
  · rw [entries, rest, if_neg ?_, due]
    intro empty
    rw [← due, List.length_eq_zero_iff.1 (length.trans empty), restEntries_nil (noRest empty)] at some
    exact some rfl
  · rw [none, List.append_eq_nil_iff] at due
    have empty : n = 0 := by rw [← length, due.1, List.length_nil]
    rw [entries, if_pos empty, restDuration]
    exact ⟨rfl, noRest empty⟩
  · rw [restStatus]
    exact (left (restDuration ▸ some)).2

/-- Settles O31: the frame of a launched session, and the entries of a first fill, which finds no remainder. -/
theorem txStartResultAndFrame : Obligations.TxStartResultAndFrame := by
  intro freq duty s t params run running
  rcases exec_next run with ⟨-, ⟨-, rfl⟩ | ⟨-, did⟩⟩
  · nomatch running
  obtain ⟨m, filled, rfl⟩ := txStart_launched did running
  obtain ⟨spec, launched⟩ := launched_eq filled
  obtain ⟨u, l, buf, callouts, requests, ⟨conserved, forced, restStatus⟩⟩ := fill_entries (s := armTx freq duty s) rfl filled
  obtain ⟨u', buf', -, engine⟩ := firstFill_buffer filled
  cases buf.symm.trans buf'
  have due : (armTx freq duty s).entriesDue (requestedAnswers l) =
      (requestedAnswers l).flatMap (sampleEntries freq) := by
    show splitEntries false 0 ++ _ = _
    rw [splitEntries_zero]
    rfl
  rw [due] at conserved forced
  refine ⟨launched, spec.frame.other, u, l, buf, callouts, requests, engine, conserved,
    fun none => (forced none).1, fun rest => ?_⟩
  cases last : (requestedAnswers l).getLast? with
  | none =>
    rw [List.getLast?_eq_none_iff] at last
    exact absurd (forced (by rw [last]; rfl)).2 rest
  | some a => exact ⟨a, rfl, (restStatus rest).trans (by rw [State.lastStatus, last])⟩

/-! ## Who asks the producer -/

/-- From `s` to `t` the producer was not asked: no answer was taken and no data request recorded. -/
def AsksNothing (s t : State) : Prop :=
  t.producer = s.producer ∧ t.draws = s.draws ∧ requestedAnswers t.callouts = requestedAnswers s.callouts

/-- Records of other kinds carry no answer. -/
theorem requestedAnswers_append_other {l m : List Callout} (other : ∀ c ∈ m, ∀ x a, c ≠ .dataReq x a) :
    requestedAnswers (l ++ m) = requestedAnswers l := by
  have none : requestedAnswers m = [] := by
    rw [requestedAnswers, List.filterMap_eq_nil_iff]
    intro c mem
    cases c with
    | dataReq x a => exact absurd rfl (other _ mem x a)
    | _ => rfl
  rw [requestedAnswers_append, none, List.append_nil]

/-- Of the commands only `TX_START` in `Idle` asks the producer (R75). -/
theorem exec_asks {c : Instr} {s t : State} (run : exec c s = .next t) :
    AsksNothing s t ∨ (s.engine = .idle ∧ ∃ f d, c = .txStart f d) := by
  rcases exec_next run with ⟨-, ⟨-, rfl⟩ | ⟨legal, did⟩⟩
  · exact .inl ⟨rfl, rfl, rfl⟩
  cases c with
  | txStart f d => exact .inr ⟨engine_idle_of_txStart legal, f, d, rfl⟩
  | _ =>
    simp only [Commanded] at did
    subst did
    exact .inl ⟨rfl, rfl, rfl⟩

/-- `Play` asks the producer in `AsyncTx` only (R89). -/
theorem play_asks {s t : State} (h : play s = .next t) : AsksNothing s t ∨ s.engine = .asyncTx := by
  by_cases steady : s.engine = .asyncTx
  · exact .inr steady
  obtain ⟨u, e, l, -, -, -, -, -, idle, ⟨engine, -⟩ | ⟨-, callouts⟩⟩ := play_frame h
  · exact absurd engine steady
  obtain ⟨rfl, producer, draws⟩ := idle steady
  refine .inl ⟨producer, draws, ?_⟩
  rw [callouts, List.append_nil]
  refine requestedAnswers_append_other fun c mem x a => ?_
  split at mem
  · rw [List.mem_singleton.1 mem]
    nofun
  · nomatch mem

/-- Which steps ask the producer, the reset apart. -/
theorem takeInput_asks {i : Input} {s t : State} (noReset : i ≠ .reset) (taken : takeInput i s = .next t) :
    AsksNothing s t ∨ (s.engine = .asyncTx ∧ i = .play) ∨
      (s.engine = .idle ∧ ∃ bytes f d, i = .portWrite bytes ∧ decodeBytes bytes = .instr (.txStart f d)) := by
  cases i with
  | portWrite bytes =>
    rcases write_outcome taken with ⟨c, decoded, run⟩ | ⟨-, w, -, -, rfl⟩
    · rcases exec_asks run with nothing | ⟨idle, f, d, rfl⟩
      · exact .inl nothing
      · exact .inr (.inr ⟨idle, bytes, f, d, rfl, decoded⟩)
    · exact .inl ⟨rfl, rfl, rfl⟩
  | complete =>
    rw [(complete_next taken).2]
    exact .inl ⟨rfl, rfl, rfl⟩
  | tick =>
    cases taken
    obtain ⟨l, timeouts, ticked⟩ := tick_out s
    rw [ticked]
    refine .inl ⟨rfl, rfl, requestedAnswers_append_other fun c mem x a => ?_⟩
    obtain ⟨ctx, rfl⟩ := timeouts c mem
    nofun
  | rise =>
    obtain ⟨-, ⟨-, rfl⟩ | ⟨-, rfl⟩⟩ := rise_next taken
    · exact .inl ⟨rfl, rfl, rfl⟩
    · exact .inl ⟨rfl, rfl, requestedAnswers_append_other (by split <;> simp)⟩
  | fall =>
    obtain ⟨-, ⟨-, rfl⟩ | ⟨-, rfl⟩⟩ := fall_next taken
    · exact .inl ⟨rfl, rfl, rfl⟩
    · exact .inl ⟨rfl, rfl, requestedAnswers_append_other (by split <;> simp)⟩
  | play => exact (play_asks taken).imp_right fun steady => .inl ⟨steady, rfl⟩
  | reset => exact absurd rfl noReset

/-- Settles O55: agent by agent. -/
theorem producerIsAskedOnlyWhileDataIsDue : Obligations.ProducerIsAskedOnlyWhileDataIsDue := by
  intro s t h asked
  have something : ¬ AsksNothing s t := by
    rintro ⟨producer, draws, answers⟩
    exact asked.elim (absurd producer) (Or.rec (absurd draws) (absurd answers))
  rcases step_cases h with ⟨rest, reset⟩ | ⟨-, rfl⟩ | ⟨-, i, rest, supplied, noReset, taken⟩
  · exact .inl (reset_form reset)
  · exact absurd ⟨rfl, rfl, rfl⟩ something
  rw [supplied, List.head?_cons]
  rcases takeInput_asks noReset taken with nothing | ⟨steady, rfl⟩ | ⟨idle, bytes, f, d, rfl, decoded⟩
  · exact absurd nothing something
  · exact .inr (.inl ⟨steady, rfl⟩)
  · exact .inr (.inr ⟨idle, bytes, f, d, rfl, decoded⟩)

/-! ## Transitions of `STATE` -/

/-- A command keeps `STATE` or makes a listed transition; a `TX_START` whose first fill ends the last packet makes two
(R72, R75). -/
theorem commanded_engine {c : Instr} {s t : State} (legal : legalState c s.engine = true) (did : Commanded c s t)
    (running : t.halted = false) :
    t.engine = s.engine ∨ listedTransition s.engine t.engine = true ∨
      (s.engine = .idle ∧ t.engine = .asyncTxLast ∧ (∃ f d, c = .txStart f d) ∧
        ∃ u, t.buf .b0 = some u ∧ u.lastPacketEnd = true) := by
  rw [legalState_eq] at legal
  cases c with
  | txStart f d =>
    have idle : s.engine = .idle := of_decide_eq_true legal
    obtain ⟨m, filled, rfl⟩ := txStart_launched did running
    obtain ⟨u, first, -, engine⟩ := firstFill_buffer filled
    have session : (launchTx m).engine = m.engine := rfl
    rw [session, engine, idle]
    by_cases last : u.lastPacketEnd = true
    · rw [if_pos last]
      exact .inr (.inr ⟨rfl, rfl, ⟨f, d, rfl⟩, u, first, last⟩)
    · rw [if_neg last]
      exact .inr (.inl rfl)
  | rxStart =>
    have idle : s.engine = .idle := of_decide_eq_true legal
    simp only [Commanded] at did
    rw [did, idle]
    exact .inr (.inl rfl)
  | rxStop =>
    have receiving : s.engine = .asyncRx := of_decide_eq_true legal
    simp only [Commanded] at did
    rw [did, receiving]
    exact .inr (.inl rfl)
  | txStop =>
    simp only [Commanded] at did
    rw [did]
    cases s.engine with
    | asyncTx => exact .inr (.inl rfl)
    | _ => exact .inl rfl
  | _ =>
    simp only [Commanded] at did
    rw [did]
    exact .inl rfl

/-- The transfer-complete service keeps `STATE`, ends the session, or puts the flush buffer on (R90). -/
theorem transferComplete_engine {s t : State} {u : Buffer} (playing : s.buf s.dmaBuf = some u)
    (h : transferCompleteService s = .next t) :
    t.engine = s.engine ∨ (s.engine = .asyncTxStopInProgress ∧ t.engine = .asyncTxStopped) ∨
      (s.engine ≠ .asyncTxStopInProgress ∧ (u.lastPacketEnd = true ∨ s.engine = .asyncTxStopRequested) ∧
        t.engine = .asyncTxStopInProgress) := by
  obtain ⟨v, w, playing', handed, rfl⟩ := transferComplete_next h
  cases playing.symm.trans playing'
  rw [signalPacket_eq]
  rcases handOver_cases handed with ⟨flushed, rfl⟩ | ⟨other, stops, x, -, rfl⟩ | ⟨-, -, -, rfl⟩
  · exact .inr (.inl ⟨flushed, rfl⟩)
  · exact .inr (.inr ⟨other, stops, rfl⟩)
  · exact .inl rfl

/-- A refill in `AsyncTx` stays there or moves to `AsyncTxLast` (D30). -/
theorem refilled_engine {n : Nat} {s t : State} (h : refilled n s t) (valid : s.bufValid = true) :
    (s.engine = .asyncTx ∧ (t.engine = .asyncTx ∨ t.engine = .asyncTxLast)) ∨ t.engine = s.engine := by
  rcases h with ⟨-, steady, filled⟩ | ⟨-, rfl⟩
  · obtain ⟨v, -, -, engine⟩ := (fill_filled' valid filled).buffer
    rw [steady] at engine
    refine .inl ⟨steady, ?_⟩
    split at engine
    · exact .inr engine
    · exact .inl engine
  · exact .inr rfl

/-- Where the half-transfer service answers, the playing buffer is untouched (R41, R89). -/
theorem refilled_playing {n : Nat} {s t : State} (h : refilled n s t) (valid : s.bufValid = true) :
    t.buf t.dmaBuf = s.buf s.dmaBuf := by
  rcases h with ⟨-, -, filled⟩ | ⟨-, rfl⟩
  · obtain ⟨dmaBuf, -, other⟩ := (fill_filled' valid filled).dma
    rw [otherBuf_otherBuf] at other
    rw [dmaBuf, other]
  · rfl

/-- `Play` keeps `STATE` or makes a listed transition (R72, R89, R90). -/
theorem play_engine {s t : State} (inv : s.Inv) (h : play s = .next t) :
    t.engine = s.engine ∨ listedTransition s.engine t.engine = true := by
  obtain ⟨enabled, u, e, playing, -, -, ⟨-, -, r, -, rfl⟩ | ⟨m, refill, ended⟩⟩ := play_next h
  · exact .inl rfl
  have active : txActive s.engine = true := inv.txEn ▸ enabled
  have valid : (transferEntry e s).bufValid = true := buf_eq_some_bufValid (s := s) playing
  have notLast (steady : s.engine = .asyncTx) : u.lastPacketEnd = false := by
    obtain ⟨u', -, playing', -, notLast, -⟩ := (inv.streaming active).steady steady
    cases playing.symm.trans playing'
    exact notLast
  have served : m.engine = s.engine ∨ (s.engine = .asyncTx ∧ m.engine = .asyncTxLast) := by
    rcases refilled_engine refill valid with ⟨steady, same | last⟩ | same
    · exact .inl (same.trans steady.symm)
    · exact .inr ⟨steady, last⟩
    · exact .inl same
  have kept (same : t.engine = m.engine) : t.engine = s.engine ∨ listedTransition s.engine t.engine = true := by
    rw [same]
    exact served.imp_right fun ⟨steady, last⟩ => by rw [steady, last]; rfl
  rcases ended with ⟨-, rfl⟩ | ⟨-, complete⟩
  · exact kept rfl
  rcases transferComplete_engine ((refilled_playing refill valid).trans playing) complete with
    same | ⟨flushed, stopped⟩ | ⟨other, stops, flush⟩
  · exact kept same
  · rcases served with same | ⟨-, last⟩
    · rw [stopped, ← same, flushed]
      exact .inr rfl
    · nomatch last.symm.trans flushed
  · have notSteady : s.engine ≠ .asyncTx := by
      intro steady
      rcases stops with last | requested
      · nomatch (notLast steady).symm.trans last
      · rcases served with same | ⟨-, last⟩
        · nomatch requested.symm.trans (same.trans steady)
        · nomatch requested.symm.trans last
    rw [flush]
    cases engine : s.engine with
    | asyncTx => exact absurd engine notSteady
    | asyncTxLast | asyncTxStopRequested => exact .inr rfl
    | asyncTxStopInProgress => exact .inl rfl
    | idle | asyncRx | asyncTxStopped => nomatch engine ▸ active

/-- A step of an agent other than the reset keeps `STATE`, or makes listed transitions. -/
theorem takeInput_engine {i : Input} {s t : State} (inv : s.Inv) (noReset : i ≠ .reset) (taken : takeInput i s = .next t) :
    t.engine = s.engine ∨ listedTransition s.engine t.engine = true ∨
      (s.engine = .idle ∧ t.engine = .asyncTxLast ∧
        (∃ bytes f d, i = .portWrite bytes ∧ decodeBytes bytes = .instr (.txStart f d)) ∧
        ∃ u, t.buf .b0 = some u ∧ u.lastPacketEnd = true) := by
  cases i with
  | portWrite bytes =>
    rcases hostWrite_outcome taken with ⟨l, halt⟩ | ⟨c, decoded, legal, did, running⟩
    · exact .inl (by rw [halt])
    · refine (commanded_engine legal did running).imp_right (Or.imp_right ?_)
      rintro ⟨idle, last, ⟨f, d, rfl⟩, first⟩
      exact ⟨idle, last, ⟨bytes, f, d, rfl, decoded⟩, first⟩
  | complete =>
    obtain ⟨given, rfl⟩ := complete_next taken
    rw [inv.termSem.1 given]
    exact .inr (.inl rfl)
  | tick =>
    cases taken
    exact .inl (by rw [tick_frame])
  | rise => obtain ⟨-, ⟨-, rfl⟩ | ⟨-, rfl⟩⟩ := rise_next taken <;> exact .inl rfl
  | fall => obtain ⟨-, ⟨-, rfl⟩ | ⟨-, rfl⟩⟩ := fall_next taken <;> exact .inl rfl
  | play => exact (play_engine inv taken).imp_right .inl
  | reset => exact absurd rfl noReset

/-- Settles O51: agent by agent. -/
theorem onlyListedTransitionsHappen : Obligations.OnlyListedTransitionsHappen := by
  intro s t inv h
  rcases step_cases h with ⟨rest, reset⟩ | ⟨-, rfl⟩ | ⟨-, i, rest, supplied, noReset, taken⟩
  · exact .inr (.inr (.inr (reset_form reset)))
  · exact .inl rfl
  rw [supplied, List.head?_cons]
  rcases takeInput_engine (inv_withInputs inv rest) noReset taken with
    same | listed | ⟨idle, last, ⟨bytes, f, d, rfl, decoded⟩, first⟩
  · exact .inl same
  · exact .inr (.inl listed)
  · exact .inr (.inr (.inl ⟨idle, last, ⟨bytes, f, d, rfl, decoded⟩, first⟩))

/-! ## How a session winds down -/

/-- The entries due once the playing buffer `u` is played out, where no more samples are taken (R87, R90). -/
def State.dueAfter (s : State) (u : Buffer) : List Entry :=
  match s.engine with
  | .asyncTx | .asyncTxStopRequested => [flushEntry, flushEntry]
  | .asyncTxLast =>
    (if u.lastPacketEnd then [] else s.bufEntries (otherBuf s.dmaBuf)) ++ [flushEntry, flushEntry]
  | .asyncTxStopInProgress | .idle | .asyncRx | .asyncTxStopped => []

/-- While the DMA runs, the rest of the playing buffer is due first. -/
theorem windDownEntries_eq {s : State} {u : Buffer} (playing : s.buf s.dmaBuf = some u)
    (active : txActive s.engine = true) : s.windDownEntries = u.entries.drop s.dmaPos ++ s.dueAfter u := by
  simp only [State.windDownEntries, State.dueAfter, playing]
  cases engine : s.engine with
  | idle | asyncRx | asyncTxStopped => nomatch engine ▸ active
  | asyncTx | asyncTxStopRequested => rfl
  | asyncTxLast => simp only [List.append_assoc]
  | asyncTxStopInProgress => simp only [List.append_nil]

/-- Nothing is due in `AsyncTxStopped`. -/
theorem windDownEntries_of_stopped {s : State} (stopped : s.engine = .asyncTxStopped) : s.windDownEntries = [] := by
  unfold State.windDownEntries
  rw [stopped]
  split <;> rfl

theorem windDownPackets_of_stopped {s : State} (stopped : s.engine = .asyncTxStopped) : s.windDownPackets = 0 := by
  unfold State.windDownPackets
  rw [stopped]
  split <;> rfl

/-- While the DMA runs an entry is due (R21, R25). -/
theorem windDownEntries_ne_nil {s : State} (inv : s.Inv) (active : txActive s.engine = true) : s.windDownEntries ≠ [] := by
  obtain ⟨u, playing, playable, left⟩ := (inv.streaming active).playing
  obtain ⟨e, read⟩ := Option.isSome_iff_exists.1 (playable.written _ left)
  rw [windDownEntries_eq playing active, drop_entries playable left read]
  nofun

/-- A stop request moves `STATE` only to where the same is due (R76). -/
theorem windDown_afterStopRequest (s : State) :
    { s with engine := afterStopRequest s.engine }.windDownEntries = s.windDownEntries ∧
      { s with engine := afterStopRequest s.engine }.windDownPackets = s.windDownPackets := by
  unfold State.windDownEntries State.windDownPackets
  cases s.engine <;> exact ⟨rfl, rfl⟩

/-- The signal-sent records still due (R91). -/
def State.signalsDue (s : State) : List Callout :=
  List.replicate (if s.cbSent.valid then s.windDownPackets else 0) (.signalSent s.cbSent.ctx)

/-- What a session that takes no more samples leaves. -/
structure Ending where
  txTrace  : List Entry
  callouts : List Callout
  producer : List AnswerWord
  draws    : Nat
  halted   : Bool

/-- What the session of a state will have left once all that is due has been played. -/
def State.ending (s : State) : Ending :=
  { txTrace := s.txTrace ++ s.windDownEntries, callouts := s.callouts ++ s.signalsDue, producer := s.producer,
    draws := s.draws, halted := s.halted }

/-- A stop request leaves the ending as it was: whatever the engine then takes no more of was not due. -/
theorem ending_afterStopRequest (s : State) : { s with engine := afterStopRequest s.engine }.ending = s.ending := by
  obtain ⟨entries, packets⟩ := windDown_afterStopRequest s
  simp only [State.ending, State.signalsDue, entries, packets]

/-- The end of the playing buffer `u` moves `s` to `w`: what `w` has due is what was due after `u`, and one packet fewer is
to finish where `u` ends one (R90, R91). -/
structure HandsOn (u : Buffer) (s w : State) : Prop where
  noMore : w.engine ≠ .asyncTx
  entries : w.windDownEntries = s.dueAfter u
  packets : s.windDownPackets =
    (if u.packetEnd = true ∧ w.engine ≠ .asyncTxStopped then 1 else 0) + w.windDownPackets

section
variable {s : State} {u v : Buffer}

/-- The flush buffer ends: nothing is due, and it finishes no packet. -/
theorem finishTx_handsOn (playing : s.buf s.dmaBuf = some u) (flushing : s.engine = .asyncTxStopInProgress) :
    HandsOn u s (finishTx s) where
  noMore := nofun
  entries := by
    rw [windDownEntries_of_stopped rfl]
    simp only [State.dueAfter, flushing]
  packets := by
    rw [windDownPackets_of_stopped (s := finishTx s) rfl, if_neg fun ends => ends.2 rfl]
    simp only [State.windDownPackets, playing, flushing]

/-- A buffer after which the session ends hands over to the flush buffer, which is then all that is due. -/
theorem flush_handsOn {bufs : Buffers} (playing : s.buf s.dmaBuf = some u)
    (flush : { s with bufs := bufs }.buf (otherBuf s.dmaBuf) = some v) (isFlush : v.IsFlush)
    (ends : s.engine = .asyncTxStopRequested ∨ (s.engine = .asyncTxLast ∧ u.lastPacketEnd = true)) :
    HandsOn u s
      { s with dmaBuf := otherBuf s.dmaBuf, dmaPos := 0, engine := .asyncTxStopInProgress, bufs := bufs } := by
  generalize moved : { s with
    dmaBuf := otherBuf s.dmaBuf, dmaPos := 0, engine := .asyncTxStopInProgress, bufs := bufs } = w
  have engine : w.engine = .asyncTxStopInProgress := by rw [← moved]
  have next : w.buf w.dmaBuf = some v := by rw [← moved]; exact flush
  have start : w.dmaPos = 0 := by rw [← moved]
  have due : w.windDownEntries = [flushEntry, flushEntry] := by
    simp only [State.windDownEntries, next, engine, start, List.drop_zero, flush_entries isFlush]
  have packets : w.windDownPackets = 0 := by simp only [State.windDownPackets, next, engine]
  refine ⟨by rw [engine]; nofun, due.trans ?_, ?_⟩
  · rcases ends with requested | ⟨last, isLast⟩
    · simp only [State.dueAfter, requested]
    · simp only [State.dueAfter, last, isLast, if_true, List.nil_append]
  · rw [packets, engine]
    rcases ends with requested | ⟨last, isLast⟩
    · simp [State.windDownPackets, playing, requested]
    · simp [State.windDownPackets, playing, last, isLast]

/-- In `AsyncTxLast` a buffer before the last packet's hands over to that one. -/
theorem switchBuf_handsOn (playing : s.buf s.dmaBuf = some u) (other : s.buf (otherBuf s.dmaBuf) = some v)
    (last : s.engine = .asyncTxLast) (notLast : u.lastPacketEnd = false) (packetEnd : v.packetEnd = true)
    (isLast : v.lastPacketEnd = true) : HandsOn u s (switchBuf s) := by
  have engine : (switchBuf s).engine = .asyncTxLast := last
  have next : (switchBuf s).buf (switchBuf s).dmaBuf = some v := other
  have start : (switchBuf s).dmaPos = 0 := rfl
  refine ⟨by rw [engine]; nofun, ?_, ?_⟩
  · simp only [State.windDownEntries, State.dueAfter, State.bufEntries, next, engine, start, other, last, notLast, isLast,
      List.drop_zero, if_true, List.append_nil, Bool.false_eq_true, if_false]
  · simp [State.windDownPackets, playing, next, engine, last, notLast, packetEnd, isLast]

/-- Every hand-over of a session that takes no more samples. -/
theorem handOver_handsOn {w : State} (handed : handOver u s = some w) (playing : s.buf s.dmaBuf = some u)
    (cap : 2 ≤ s.params.txBufCap) (active : txActive s.engine = true) (noMore : s.engine ≠ .asyncTx)
    (last : s.engine = .asyncTxLast → u.lastPacketEnd = true ∨
      ∃ v, s.buf (otherBuf s.dmaBuf) = some v ∧ v.packetEnd = true ∧ v.lastPacketEnd = true) : HandsOn u s w := by
  have engines : s.engine = .asyncTxLast ∨ s.engine = .asyncTxStopRequested ∨ s.engine = .asyncTxStopInProgress := by
    cases engine : s.engine with
    | asyncTxLast => exact .inl rfl
    | asyncTxStopRequested => exact .inr (.inl rfl)
    | asyncTxStopInProgress => exact .inr (.inr rfl)
    | asyncTx => exact absurd engine noMore
    | idle | asyncRx | asyncTxStopped => nomatch engine ▸ active
  rcases handOver_cases handed with ⟨flushing, rfl⟩ | ⟨other, stops, t, filled, rfl⟩ | ⟨other, notLast, unasked, rfl⟩
  · exact finishTx_handsOn playing flushing
  · obtain ⟨t', v, filled', -, -, flush, isFlush, -, -⟩ :=
      fillFlush_spec (b := otherBuf s.dmaBuf) (buf_eq_some_bufValid playing) cap
    cases filled.symm.trans filled'
    refine flush_handsOn playing flush isFlush ?_
    rcases engines with inLast | requested | flushing
    · exact .inr ⟨inLast, stops.resolve_right (by rw [inLast]; nofun)⟩
    · exact .inl requested
    · exact absurd flushing other
  · have inLast : s.engine = .asyncTxLast := engines.resolve_right (Or.rec unasked other)
    rcases last inLast with isLast | ⟨v, next, packetEnd, isLast⟩
    · nomatch notLast.symm.trans isLast
    · exact switchBuf_handsOn playing next inLast notLast packetEnd isLast

end

/-- The signal-sent callout leaves what is due (R91). -/
theorem signalPacket_due (u : Buffer) (s : State) :
    (signalPacket u s).windDownEntries = s.windDownEntries ∧ (signalPacket u s).windDownPackets = s.windDownPackets := by
  rw [signalPacket_eq]
  exact ⟨rfl, rfl⟩

/-- A `Play` step of a session that takes no more samples plays the first entry due, and finishes a packet where the
playing buffer ends one. -/
theorem play_due {s t : State} (inv : s.Inv) (noMore : s.engine ≠ .asyncTx) (h : play s = .next t) :
    ∃ u e, s.buf s.dmaBuf = some u ∧ s.bufRead s.dmaBuf s.dmaPos = some e ∧ t.engine ≠ .asyncTx ∧
      s.windDownEntries = e :: t.windDownEntries ∧
      s.windDownPackets = (if s.dmaPos + 1 = u.count ∧ u.packetEnd = true ∧ t.engine ≠ .asyncTxStopped then 1 else 0) +
        t.windDownPackets := by
  obtain ⟨enabled, u, e, playing, left, read, ⟨-, steady, -⟩ | ⟨m, ⟨-, steady, -⟩ | ⟨-, rfl⟩, ended⟩⟩ := play_next h
  · exact absurd steady noMore
  · exact absurd steady noMore
  have active : txActive s.engine = true := inv.txEn ▸ enabled
  have S := inv.streaming active
  obtain ⟨u', playing', playable, -⟩ := S.playing
  cases playing.symm.trans playing'
  have readCell : Memory.read u.cells s.dmaPos = some e := by
    simpa only [State.bufRead, playing, if_pos left] using read
  have due := windDownEntries_eq playing active
  rw [drop_entries playable left readCell] at due
  refine ⟨u, e, playing, read, ?_⟩
  rcases ended with ⟨inside, rfl⟩ | ⟨atEnd, complete⟩
  · have inside : s.dmaPos + 1 ≠ u.count := inside
    have kept : (transferEntry e s).windDownPackets = s.windDownPackets := rfl
    refine ⟨noMore, due.trans ?_, ?_⟩
    · rw [windDownEntries_eq (s := transferEntry e s) playing active]
      rfl
    · rw [if_neg (fun ends => inside ends.1), kept, Nat.zero_add]
  · have atEnd : s.dmaPos + 1 = u.count := atEnd
    have cap : 2 ≤ s.params.txBufCap := two_le_txBufCap inv
    have kept : (transferEntry e s).windDownPackets = s.windDownPackets := rfl
    obtain ⟨v, w, playing'', handed, rfl⟩ := transferComplete_next complete
    cases playing.symm.trans playing''
    obtain ⟨done, entries, packets⟩ := handOver_handsOn handed playing cap active noMore fun inLast => by
      obtain ⟨x, v, playing', other, last⟩ := S.last inLast
      cases playing.symm.trans playing'
      exact last.imp_right fun ⟨playable, isLast⟩ => ⟨v, other, playable.lastIsEnd isLast, isLast⟩
    obtain ⟨sameEntries, samePackets⟩ := signalPacket_due u w
    have sameEngine : (signalPacket u w).engine = w.engine := by rw [signalPacket_eq]
    rw [sameEntries, samePackets, sameEngine, due, atEnd, drop_all playable, entries]
    refine ⟨done, rfl, ?_⟩
    rw [← kept, packets]
    simp only [true_and]

/-- A `Play` step of a session that takes no more samples leaves its ending as it was. -/
theorem play_ending {s t : State} (inv : s.Inv) (noMore : s.engine ≠ .asyncTx) (h : play s = .next t) :
    t.ending = s.ending ∧ t.windDownEntries.length + 1 = s.windDownEntries.length := by
  obtain ⟨u, e, playing, read, -, entries, packets⟩ := play_due inv noMore h
  obtain ⟨u', e', l, playing', -, read', trace, -, idle, ⟨steady, -⟩ | ⟨outside, callouts⟩⟩ := play_frame h
  · exact absurd steady noMore
  cases playing.symm.trans playing'
  cases read.symm.trans read'
  obtain ⟨rfl, producer, draws⟩ := idle noMore
  have halted : t.halted = s.halted := field_of_outsidePlay State.halted outside
  have cbSent : t.cbSent = s.cbSent := field_of_outsidePlay State.cbSent outside
  have signals : t.callouts ++ t.signalsDue = s.callouts ++ s.signalsDue := by
    rw [callouts, List.append_nil, State.signalsDue, State.signalsDue, cbSent, packets]
    by_cases slot : s.cbSent.valid = true
    · by_cases ends : s.dmaPos + 1 = u.count ∧ u.packetEnd = true ∧ t.engine ≠ .asyncTxStopped
      · rw [if_pos (by tauto), if_pos slot, if_pos slot, if_pos ends, List.replicate_add]
        simp
      · rw [if_neg (by tauto), if_pos slot, if_pos slot, if_neg ends]
        simp
    · rw [if_neg (by tauto), if_neg slot, if_neg slot]
      simp
  refine ⟨?_, by rw [entries, List.length_cons]⟩
  simp only [State.ending, trace, entries, signals, producer, draws, halted, List.append_assoc, List.singleton_append]

/-- While a command is held and the DMA does not run, the session is over and not completed (R77, R78). -/
theorem stopped_of_held {s : State} (inv : s.Inv) (held : s.hostHeld ≠ .free) (idle : txActive s.engine ≠ true) :
    s.engine = .asyncTxStopped := by
  have session := inv.held held
  cases engine : s.engine with
  | asyncTxStopped => rfl
  | idle | asyncRx => nomatch engine ▸ session
  | _ => exact absurd (by rw [engine]; rfl) idle

/-- A supplied `Play` step of a session that takes no more samples plays one entry due and leaves the ending as it was. -/
theorem step_play_due {s : State} {rest : List Input} (inv : s.Inv) (running : s.halted = false)
    (active : txActive s.engine = true) (noMore : s.engine ≠ .asyncTx) (supplied : s.inputs = .play :: rest) :
    ∃ t, step s = .next t ∧ t.Inv ∧ t.engine ≠ .asyncTx ∧ t.hostHeld = s.hostHeld ∧ t.inputs = rest ∧
      t.ending = s.ending ∧ t.windDownEntries.length + 1 = s.windDownEntries.length := by
  have inv' : (s.withInputs rest).Inv := inv_withInputs inv rest
  rcases play_outcome inv' active with ⟨t, played⟩ | ⟨steady, -⟩
  · obtain ⟨-, -, -, -, noMore', -⟩ := play_due inv' noMore played
    obtain ⟨ending, shorter⟩ := play_ending inv' noMore played
    obtain ⟨-, -, -, -, -, -, -, -, -, ⟨steady, -⟩ | ⟨outside, -⟩⟩ := play_frame played
    · exact absurd steady noMore
    have held : t.hostHeld = (s.withInputs rest).hostHeld := field_of_outsidePlay State.hostHeld outside
    have inputs : t.inputs = (s.withInputs rest).inputs := field_of_outsidePlay State.inputs outside
    exact ⟨t, (step_play running supplied).trans played, inv_play inv' played, noMore', held, inputs, ending, shorter⟩
  · exact absurd steady noMore

/-- The `Play` steps for all that is due, taken one after another, end in `AsyncTxStopped` with the ending of the session. -/
theorem run_windDown {n : Nat} {s : State} {rest : List Input} (inv : s.Inv) (running : s.halted = false)
    (held : s.hostHeld ≠ .free) (noMore : s.engine ≠ .asyncTx) (due : s.windDownEntries.length = n)
    (supplied : s.inputs = List.replicate n .play ++ rest) :
    ∃ t : State, (∀ k, Sys2Proof.core.run (n + k) s = Sys2Proof.core.run k t) ∧ t.Inv ∧ t.engine = .asyncTxStopped ∧
      t.hostHeld = s.hostHeld ∧ t.inputs = rest ∧ t.ending = s.ending := by
  induction n generalizing s with
  | zero =>
    have idle : txActive s.engine ≠ true := fun active =>
      windDownEntries_ne_nil inv active (List.length_eq_zero_iff.1 due)
    exact ⟨s, fun k => by rw [Nat.zero_add], inv, stopped_of_held inv held idle, rfl, supplied, rfl⟩
  | succ n ih =>
    have active : txActive s.engine = true := by
      by_contra idle
      rw [windDownEntries_of_stopped (stopped_of_held inv held idle)] at due
      nomatch due
    obtain ⟨x, played, invX, noMoreX, heldX, inputsX, endingX, shorter⟩ := step_play_due inv running active noMore supplied
    have runningX : x.halted = false := (congrArg Ending.halted endingX).trans running
    obtain ⟨t, runs, invT, stopped, heldT, inputsT, endingT⟩ :=
      ih invX runningX (heldX ▸ held) noMoreX (Nat.succ_injective (shorter.trans due)) inputsX
    refine ⟨t, fun k => ?_, invT, stopped, heldT.trans heldX, inputsT, endingT.trans endingX⟩
    rw [Nat.add_right_comm, run_next Sys2Proof.core (n + k) played]
    exact runs k

/-- The issue step of a supplied `TX_STOP` (R76): the command is held, and what is due stays due. -/
theorem step_txStop {s : State} {rest : List Input} (ready : s.hostReady) (session : txOrLater s.engine = true)
    (supplied : s.inputs = .portWrite (encodeBytes .txStop) :: rest) :
    ∃ t, step s = .next t ∧ t.inputs = rest ∧ t.hostHeld = .stop ∧ t.engine ≠ .asyncTx ∧ t.ending = s.ending ∧
      t.windDownEntries = s.windDownEntries := by
  have decoded : decodeBytes (encodeBytes .txStop) = .instr .txStop := (decodeOfEncodeIsTheCommand .txStop).2
  have issued : step s =
      .next { s with inputs := rest, engine := afterStopRequest s.engine, hostHeld := .stop } := by
    rw [step_eq_takeInput ready.1 supplied]
    exact (hostWrite_instr decoded _).trans
      (exec_legal (s := { s with inputs := rest }) ready ((legalState_eq _ _).trans session) rfl nofun)
  refine ⟨_, issued, rfl, rfl, ?_, ending_afterStopRequest s, (windDown_afterStopRequest s).1⟩
  show afterStopRequest s.engine ≠ .asyncTx
  cases s.engine <;> nofun

/-- Settles O57: the stop request leaves what is due, the `Play` steps play it, and the completion step frees the session. -/
theorem stopReturnsToIdle : Obligations.StopReturnsToIdle := by
  intro s rest inv ready session supplied
  obtain ⟨x, issued, inputsX, heldX, noMoreX, endingX, dueX⟩ := step_txStop ready session supplied
  have invX : x.Inv := everyStepKeepsTheInvariant s x inv issued
  have runningX : x.halted = false := (congrArg Ending.halted endingX).trans ready.1
  have held : x.hostHeld ≠ .free := by rw [heldX]; nofun
  obtain ⟨t, runs, invT, stopped, heldT, inputsT, endingT⟩ :=
    run_windDown invX runningX held noMoreX (by rw [dueX]) inputsX
  have ending : t.ending = s.ending := endingT.trans endingX
  simp only [State.ending, State.signalsDue, windDownEntries_of_stopped stopped, windDownPackets_of_stopped stopped, ite_self,
    List.replicate_zero, List.append_nil, Ending.mk.injEq] at ending
  obtain ⟨trace, callouts, producer, draws, halted⟩ := ending
  have running : t.halted = false := halted.trans ready.1
  have given : t.termSem = true := invT.termSem.2 stopped
  have off : t.txEn = false := by rw [invT.txEn, stopped]; rfl
  have completed : step t = .next { t with
      inputs := rest, termSem := false, semValid := false, bufs := Buffers.freed, engine := .idle, hostHeld := .free } := by
    rw [step_eq_takeInput running inputsT]
    exact (completionFreesTheSession { t with inputs := rest }).1 (by rw [heldT]; exact held) given
  have ran : Sys2Proof.core.run (s.windDownEntries.length + 2) s = .next { t with
      inputs := rest, termSem := false, semValid := false, bufs := Buffers.freed, engine := .idle, hostHeld := .free } := by
    rw [run_next Sys2Proof.core (s.windDownEntries.length + 1) issued, runs 1, run_next Sys2Proof.core 0 completed]
    rfl
  exact ⟨_, ran, rfl, rfl, rfl, rfl, rfl, rfl, off, by simp [State.txPin, running, off], trace, callouts, producer, draws⟩

end Sys2Proof.Machine

namespace Sys2Proof.Machine

/-! ## Conversion and flush -/

/-- Settles O36: the two bounds leave room for one number only. -/
theorem numCyclesRoundsToNearest : Obligations.NumCyclesRoundsToNearest := by
  have nearest (d f c : Nat) : numCycles d f = c ↔
      2 * (c * 1000000) ≤ 2 * (d * f) + 1000000 ∧ 2 * (d * f) < 2 * (c * 1000000) + 1000000 := by
    have bound := numCycles_bound d f
    exact ⟨fun same => same ▸ bound, fun within => by omega⟩
  refine ⟨nearest, fun d f => ?_, fun f => ?_, by decide, by decide, by decide, fun d f => numCycles_lt d.isLt f.isLt⟩
  · rw [nearest]
    omega
  · rw [nearest]
    omega

/-- The least capacity of R6. -/
theorem Params.two_le_txBufCap {p : Params} (wf : p.wf = true) : 2 ≤ p.txBufCap := by
  simp only [Params.wf, Bool.and_eq_true, decide_eq_true_eq] at wf
  omega

/-- Settles O42: the flush buffer of `fillFlush_spec`, read back. -/
theorem flushBufferIsTwoLowEntries : Obligations.FlushBufferIsTwoLowEntries := by
  intro b s valid wf
  obtain ⟨t, u, flushed, frame, -, buf, isFlush, packetEnd, lastPacketEnd⟩ :=
    fillFlush_spec (b := b) valid (Params.two_le_txBufCap wf)
  exact ⟨t, u, flushed, buf, flush_entries isFlush, isFlush.1, packetEnd, lastPacketEnd, frame.other,
    outsidePlay_fillFlush flushed, rfl⟩

/-! ## The ticks of a fill -/

/-- Settles O37: the entries of a fill are those due. -/
theorem fillConservesEveryTick : Obligations.FillConservesEveryTick := by
  intro b s t valid _ filled
  obtain ⟨u, l, buf, callouts, requests, entries⟩ := fill_entries valid filled
  exact ⟨u, l, buf, callouts, requests, entries.conserved, entries.forced⟩

/-- The tick values of a sample's entries add up to one less than its cycles (R83, R85). -/
theorem cycleEntries_sum (level : Bool) (c : Nat) : ((cycleEntries level c).map fun e => e.ticks.toNat).sum = c - 1 := by
  unfold cycleEntries
  split
  · next none => rw [none]; rfl
  · split
    · next one => rw [one]; rfl
    · exact splitEntries_sum level (c - 1)

/-- The tick values of the entries due add up to the remainder and the ticks of the samples (R83, R85). -/
theorem entriesDue_sum (s : State) (answers : List Answer) :
    ((s.entriesDue answers).map fun e => e.ticks.toNat).sum =
      s.restDuration.toNat + (answers.map fun a => numCycles a.duration.toNat s.freq.toNat - 1).sum := by
  have samples : ((answers.flatMap (sampleEntries s.freq)).map fun e => e.ticks.toNat).sum =
      (answers.map fun a => numCycles a.duration.toNat s.freq.toNat - 1).sum := by
    induction answers with
    | nil => rfl
    | cons a answers ih =>
      rw [List.flatMap_cons, List.map_append, List.sum_append, ih, sampleEntries, cycleEntries_sum, List.map_cons,
        List.sum_cons]
  rw [State.entriesDue, List.map_append, List.sum_append, State.restEntries, splitEntries_sum, samples]

/-- Settles O38: the sums of the two sides of O37. -/
theorem fillTicksAddUp : Obligations.FillTicksAddUp := by
  intro b s t valid _ filled
  obtain ⟨u, l, buf, callouts, -, entries⟩ := fill_entries valid filled
  refine ⟨u, l, buf, callouts, ?_⟩
  rw [← entriesDue_sum]
  by_cases none : s.entriesDue (requestedAnswers l) = []
  · obtain ⟨forced, noRest⟩ := entries.forced none
    rw [none, forced, noRest]
    rfl
  · rw [← entries.conserved none, List.map_append, List.sum_append, State.restEntries, splitEntries_sum]

/-! ## The end of a fill -/

/-- The end of a fill writes the count, one at least, and the flags of the standing status (R84). -/
theorem closeFill_flags {b : BufIdx} {n : Nat} {st : Status} {s t : State} {u : Buffer} (allocated : s.buf b = some u)
    (closed : closeFill b n st s = .filled t) :
    ∃ v, t.buf b = some v ∧ v.count = max n 1 ∧ v.packetEnd = packetEndOf st ∧ v.lastPacketEnd = lastPacketEndOf st ∧
      t.restDuration = s.restDuration ∧ t.callouts = s.callouts := by
  obtain ⟨m, cells, buf, shape, frame⟩ := close_shape allocated closed
  refine ⟨_, buf, ?_, rfl, rfl, by rw [frame], by rw [frame]⟩
  rcases shape with ⟨rfl, rfl, -⟩ | ⟨some, rfl, -⟩
  · rfl
  · exact (max_eq_left (Nat.one_le_iff_ne_zero.2 some)).symm

/-- A sample of no cycle makes no entry due (R83). -/
theorem entriesDue_concat_of_noCycle {s : State} {pre : List Answer} {a : Answer}
    (noCycle : numCycles a.duration.toNat s.freq.toNat = 0) : s.entriesDue (pre ++ [a]) = s.entriesDue pre := by
  have none : sampleEntries s.freq a = [] := by
    rw [sampleEntries, noCycle]
    rfl
  simp only [State.entriesDue, List.flatMap_append, List.flatMap_singleton, none, List.append_nil]

/-- What a fill from `s` to `t` that took these answers records in its buffer, and when it ended (R84). -/
structure FillEnding (s t : State) (u : Buffer) (answers : List Answer) : Prop where
  packetEnd : u.packetEnd = packetEndOf (endStatus s t answers)
  lastPacketEnd : u.lastPacketEnd = lastPacketEndOf (endStatus s t answers)
  ended : u.count = s.params.txBufCap ∨ endStatus s t answers ≠ .ok
  asked : ∀ pre a post, answers = pre ++ a :: post →
    (s.entriesDue pre).length < s.params.txBufCap ∧ (post ≠ [] → s.goesOnAfter pre a)
  /-- Corner cases 2 and 3: a `Done` of no cycle ends a fill only where an entry is due before it. -/
  notEmpty : ∀ pre a, answers = pre ++ [a] → a.status = .done → numCycles a.duration.toNat s.freq.toNat = 0 →
    s.entriesDue pre ≠ []
  noError : ∀ a ∈ answers, a.status ≠ .error

theorem fill_ending {b : BufIdx} {s t : State} (valid : s.bufValid = true) (filled : fill b s = .filled t) :
    ∃ u l, t.buf b = some u ∧ t.callouts = s.callouts ++ l ∧ FillEnding s t u (requestedAnswers l) := by
  obtain ⟨n, st, x, ⟨-, fits, w, l, es, buf, callouts, -, length, -, due, left, drained, -, asked, noError, notDone, -⟩,
    ended, closed⟩ := fill_final valid filled
  obtain ⟨u, closedBuf, count, packetEnd, lastPacketEnd, restDuration, keptCallouts⟩ := closeFill_flags buf closed
  have cap := fill_filled_cap filled
  have last (noRest : x.restDuration = 0#64) : st = s.lastStatus (requestedAnswers l) :=
    (drained noRest).resolve_left fun ⟨ok, empty⟩ => ended ⟨by omega, ok⟩
  have standing : st = endStatus s t (requestedAnswers l) := by
    rw [endStatus, restDuration]
    split
    · next rest => exact (left rest).1
    · next noRest => exact last (not_not.1 noRest)
  refine ⟨u, l, closedBuf, keptCallouts.trans callouts, ?_⟩
  constructor
  case packetEnd => rw [packetEnd, standing]
  case lastPacketEnd => rw [lastPacketEnd, standing]
  case ended =>
    rw [← standing, count]
    by_cases ok : st = .ok
    · exact .inl (by have full : ¬ n < s.params.txBufCap := fun free => ended ⟨free, ok⟩; omega)
    · exact .inr ok
  case asked => exact asked
  case notEmpty =>
    intro pre a answers done noCycle none
    rw [answers, entriesDue_concat_of_noCycle noCycle, none, List.append_eq_nil_iff] at due
    have empty : n = 0 := by rw [← length, due.1, List.length_nil]
    have noRest : x.restDuration = 0#64 := BitVec.eq_of_toNat_eq (splitEntries_eq_nil due.2)
    refine notDone empty ?_
    rw [last noRest, answers, lastStatus_concat, done]
  case noError => exact noError

/-- The statuses that end a packet (R84 step 3). -/
theorem packetEndOf_eq_true {st : Status} : packetEndOf st = true ↔ st = .done ∨ st = .lastDone := by
  cases st <;> decide

theorem lastPacketEndOf_eq_true {st : Status} : lastPacketEndOf st = true ↔ st = .lastDone := by
  cases st <;> decide

/-- Settles O39: the end of the fill, with the playable buffer it leaves and its remainder's status. -/
theorem fillRecordsTheEndOfThePacket : Obligations.FillRecordsTheEndOfThePacket := by
  intro b s t valid _ filled
  obtain ⟨u, l, buf, callouts, ending⟩ := fill_ending valid filled
  obtain ⟨u', l', buf', callouts', -, entries⟩ := fill_entries valid filled
  obtain ⟨-, u'', buf'', playable, engine⟩ := fill_filled' valid filled
  cases buf.symm.trans buf'
  cases buf.symm.trans buf''
  cases List.append_cancel_left (callouts.symm.trans callouts')
  refine ⟨u, l, buf, callouts, playable.nonempty, playable.fits, fun i below => ?_, ?_, ?_, ending.ended,
    fun pre a post taken => ?_, entries.restStatus, ending.noError, engine⟩
  · obtain ⟨e, read⟩ := bufRead_of_playable buf playable below
    exact Option.isSome_of_eq_some read
  · rw [ending.packetEnd, packetEndOf_eq_true]
  · rw [ending.lastPacketEnd, lastPacketEndOf_eq_true]
  · obtain ⟨free, goesOn⟩ := ending.asked pre a post taken
    exact ⟨free, goesOn, fun isLast => ending.notEmpty pre a (isLast ▸ taken)⟩

/-! ## A remainder of a buffer's length -/

/-- From `s` to `x` a fill of buffer `b` has written `n` entries of the remainder and done nothing else (R86). -/
structure Drained (b : BufIdx) (s : State) (n : Nat) (x : State) : Prop where
  cells : ∃ u, x.buf b = some u ∧ ∀ i, i < n → Memory.read u.cells i =
    some { pol := s.restLevel, ticks := BitVec.ofNat 16 (splitTicks s.restDuration.toNat i) }
  rest : x.restDuration.toNat = s.restDuration.toNat - n * tickMax
  params : x.params = s.params
  restLevel : x.restLevel = s.restLevel
  producer : x.producer = s.producer
  draws : x.draws = s.draws
  callouts : x.callouts = s.callouts

theorem drained_zero {b : BufIdx} {s : State} (valid : s.bufValid = true) : Drained b s 0 s where
  cells := (exists_buf valid b).imp fun _ buf => ⟨buf, nofun⟩
  rest := by rw [Nat.zero_mul, Nat.sub_zero]
  params := rfl
  restLevel := rfl
  producer := rfl
  draws := rfl
  callouts := rfl

/-- Before each of the entries the remainder splits into, some of it is left (R85). -/
theorem mul_tickMax_lt_of_lt_splitCount {n r : Nat} (h : n < splitCount r) : n * tickMax < r := by
  unfold splitCount tickMax at *
  omega

/-- While the remainder lasts, the next iteration writes its next entry and goes on, unless it was its last (R84 step 1). -/
theorem Drained.next {b : BufIdx} {s x : State} {n : Nat} (drained : Drained b s n x) (free : n < s.params.txBufCap)
    (lasts : n < splitCount s.restDuration.toNat) :
    ∃ y st, fillIter b n x = .go (n + 1) st y ∧ Drained b s (n + 1) y ∧
      (n + 1 < splitCount s.restDuration.toNat → st = .ok) := by
  obtain ⟨⟨u, buf, read⟩, rest, params, restLevel, producer, draws, callouts⟩ := drained
  have left := mul_tickMax_lt_of_lt_splitCount lasts
  obtain ⟨y, st, iter, buf', rest', goesOn, params', restLevel', producer', draws', callouts'⟩ :=
    fillIter_drain buf (params ▸ free) (show x.restDuration.toNat ≠ 0 by omega)
  have shorter : y.restDuration.toNat = s.restDuration.toNat - (n + 1) * tickMax := by
    rw [rest', rest, Nat.succ_mul]
    omega
  refine ⟨y, st, iter, ⟨⟨_, buf', fun i below => ?_⟩, shorter, params'.trans params, restLevel'.trans restLevel,
    producer'.trans producer, draws'.trans draws, callouts'.trans callouts⟩, fun more => goesOn ?_⟩
  · by_cases new : i = n
    · rw [new, Memory.read_write_same, restLevel, rest, splitTicks, Nat.min_comm]
    · rw [Memory.read_write_other _ _ new]
      exact read i (by omega)
  · have := mul_tickMax_lt_of_lt_splitCount more
    omega

/-- The loop drains the remainder until the buffer is full, and then ends (R86). -/
theorem fillLoop_drained {b : BufIdx} {s : State} (long : s.params.txBufCap ≤ splitCount s.restDuration.toNat) :
    ∀ k {fuel n : Nat} {st : Status} {x : State}, Drained b s n x → n + k = s.params.txBufCap → k ≤ fuel →
      (n < s.params.txBufCap → st = .ok) →
      ∃ st' y, fillLoop b fuel n st x = closeFill b s.params.txBufCap st' y ∧ Drained b s s.params.txBufCap y := by
  intro k
  induction k with
  | zero =>
    intro fuel n st x drained full _ _
    obtain rfl : n = s.params.txBufCap := full
    exact ⟨st, x, fillLoop_end fun more => by rw [drained.params] at more; omega, drained⟩
  | succ k ih =>
    intro fuel n st x drained full enough ok
    obtain ⟨fuel, rfl⟩ : ∃ m, fuel = m + 1 := ⟨fuel - 1, by omega⟩
    have free : n < s.params.txBufCap := by omega
    obtain ⟨y, st', iter, drained', goesOn⟩ := drained.next free (by omega)
    rw [ok free, fillLoop_go (drained.params ▸ free) iter]
    exact ih drained' (by omega) (by omega) fun free' => goesOn (by omega)

/-- Settles O41: the loop drains an entry of the remainder for each place of the buffer. -/
theorem remainderIsDrainedBeforeAnyRequest : Obligations.RemainderIsDrainedBeforeAnyRequest := by
  intro b s valid wf long
  have cap := Params.two_le_txBufCap wf
  obtain ⟨st, x, loop, drained⟩ := fillLoop_drained (fuel := fillFuel s) (st := .ok) long s.params.txBufCap
    (drained_zero (b := b) valid) (Nat.zero_add _) (by unfold fillFuel; omega) fun _ => rfl
  have nonempty : s.params.txBufCap ≠ 0 := by omega
  obtain ⟨t, closed⟩ : ∃ t, closeFill b s.params.txBufCap st x = .filled t := by
    rw [closeFill, if_neg nonempty]
    exact ⟨_, rfl⟩
  obtain ⟨u, buf, read⟩ := drained.cells
  obtain ⟨m, cells, closedBuf, ⟨empty, -⟩ | ⟨-, rfl, rfl⟩, frame⟩ := close_shape buf closed
  · exact absurd empty nonempty
  refine ⟨t, _, loop.trans closed, ?_, ?_, ?_, closedBuf, rfl, fun i below => ?_, ?_⟩
  · rw [frame]; exact drained.producer
  · rw [frame]; exact drained.draws
  · rw [frame]; exact drained.callouts
  · rw [State.bufRead, closedBuf]
    exact (if_pos below).trans (read i below)
  · rw [frame]; exact drained.rest

end Sys2Proof.Machine

namespace Sys2Proof.Machine

/-! ## One transfer -/

/-- Settles O43: the two refusals are `Play`'s own guards, and where no service is due the transfer is all there is. -/
theorem playMovesOneEntryWhileEnabled : Obligations.PlayMovesOneEntryWhileEnabled := by
  intro s
  refine ⟨fun off => ?_, fun u enabled playing playedOut => ?_, fun u e enabled playing inside read noRefill => ?_⟩
  · rw [play, if_neg (by rw [off]; nofun)]
  · rw [play, if_pos enabled, playing]
    exact if_neg (Nat.not_lt.2 playedOut)
  · rw [play_no_refill enabled playing (Nat.lt_of_succ_lt inside) read noRefill, if_neg (Nat.ne_of_lt inside)]
    rfl

section
variable {s : State} {u : Buffer} {e : Entry} (enabled : s.txEn = true) (playing : s.buf s.dmaBuf = some u)
  (left : s.dmaPos < u.count) (read : s.bufRead s.dmaBuf s.dmaPos = some e) (half : s.dmaPos + 1 = htPoint u.count)
  (steady : s.engine = .asyncTx)
include enabled playing left read half steady

/-- `Play` where a refill is due that returns (R88, R89). -/
theorem play_refill_filled {m : State} (refill : fill (otherBuf s.dmaBuf) (transferEntry e s) = .filled m) :
    play s = if s.dmaPos + 1 = u.count then transferCompleteService m else .next m := by
  have pos : m.dmaPos = s.dmaPos + 1 :=
    (fill_filled' (s := transferEntry e s) (buf_eq_some_bufValid playing) refill).dma.2.1
  have service : halfTransferService (transferEntry e s) = .filled m :=
    (if_pos (show (transferEntry e s).engine = .asyncTx from steady)).trans refill
  rw [play_enabled enabled playing left read, if_pos half, service]
  dsimp only
  rw [pos]

/-- `Play` where a refill is due that meets `Error`: the pair, the requests and the answers taken stay (R89, R95). -/
theorem play_refill_producerError {r : State}
    (refill : fill (otherBuf s.dmaBuf) (transferEntry e s) = .producerError r) :
    play s = .next { s with
      halted := true, faultCause := 0x05#8, faultOp := 0x84#8,
      txTrace := s.txTrace ++ [e], callouts := r.callouts, producer := r.producer, draws := r.draws } := by
  have frame := fill_producerError (s := transferEntry e s) (buf_eq_some_bufValid playing) refill
  have trace : r.txTrace = s.txTrace ++ [e] := congrArg State.txTrace frame.outside
  have service : halfTransferService (transferEntry e s) = .producerError r :=
    (if_pos (show (transferEntry e s).engine = .asyncTx from steady)).trans refill
  rw [play_enabled enabled playing left read, if_pos half, service]
  dsimp only
  rw [raiseFatal, trace]
  rfl

end

/-- Settles O44: half of two entries or more is not their end. -/
theorem halfTransferRefillsTheOtherBuffer : Obligations.HalfTransferRefillsTheOtherBuffer := by
  intro s u e enabled playing two half read steady
  have left : s.dmaPos < u.count := by omega
  have inside : s.dmaPos + 1 ≠ u.count := by omega
  exact ⟨fun m refill => (play_refill_filled enabled playing left read half steady refill).trans (if_neg inside),
    fun r refill => play_refill_producerError enabled playing left read half steady refill⟩

/-! ## The end of a buffer -/

section
variable {s w : State} {u : Buffer}

/-- The signal-sent record due at the end of buffer `u`, while the session is not over (R91). -/
def State.signalFor (s : State) (u : Buffer) : List Callout :=
  if u.packetEnd = true ∧ s.cbSent.valid = true then [.signalSent s.cbSent.ctx] else []

theorem signalPacket_running (running : s.engine ≠ .asyncTxStopped) :
    signalPacket u s = { s with callouts := s.callouts ++ s.signalFor u } := by
  rw [signalPacket_eq, signalPacket_callouts]
  simp only [State.signalFor, running, ne_eq, not_false_eq_true, true_and]

/-- The terminal completion sends nothing (R90, R91). -/
theorem signalPacket_stopped (stopped : s.engine = .asyncTxStopped) : signalPacket u s = s :=
  if_neg fun ends => ends.2 stopped

theorem transferComplete_of_handOver (playing : s.buf s.dmaBuf = some u) (handed : handOver u s = some w) :
    transferCompleteService s = .next (signalPacket u w) := by
  rw [transferComplete_eq playing, handed]

/-- The first branch of R90: the flush buffer has ended. -/
theorem transferComplete_flushing (playing : s.buf s.dmaBuf = some u) (flushing : s.engine = .asyncTxStopInProgress) :
    transferCompleteService s = .next (finishTx s) := by
  rw [transferComplete_of_handOver playing (if_pos flushing), signalPacket_stopped rfl]

/-- The second branch of R90: the session ends, and the flush buffer plays next. -/
theorem transferComplete_ending {t : State} (playing : s.buf s.dmaBuf = some u)
    (notFlushing : s.engine ≠ .asyncTxStopInProgress) (ends : u.lastPacketEnd = true ∨ s.engine = .asyncTxStopRequested)
    (flushed : fillFlush (otherBuf s.dmaBuf) s = some t) :
    transferCompleteService s = .next { s with
      dmaBuf := otherBuf s.dmaBuf, dmaPos := 0, engine := .asyncTxStopInProgress, bufs := t.bufs,
      callouts := s.callouts ++ s.signalFor u } := by
  have handed : handOver u s = some { switchBuf t with engine := .asyncTxStopInProgress } := by
    rw [handOver, if_neg notFlushing, if_pos ends, flushed]
  rw [transferComplete_of_handOver playing handed,
    signalPacket_running (s := { switchBuf t with engine := .asyncTxStopInProgress }) nofun]
  generalize bufs : t.bufs = b
  rw [outsidePlay_fillFlush flushed, bufs]
  rfl

/-- The third branch of R90: the other buffer plays next. -/
theorem transferComplete_goingOn (playing : s.buf s.dmaBuf = some u) (steady : s.engine = .asyncTx ∨ s.engine = .asyncTxLast)
    (notLast : u.lastPacketEnd = false) :
    transferCompleteService s = .next { s with
      dmaBuf := otherBuf s.dmaBuf, dmaPos := 0,
      callouts := s.callouts ++ s.signalFor u } := by
  have other (e : EngineState) (first : e ≠ .asyncTx) (second : e ≠ .asyncTxLast) : s.engine ≠ e := by
    rintro rfl
    exact steady.elim first second
  have goesOn : ¬ (u.lastPacketEnd = true ∨ s.engine = .asyncTxStopRequested) := by
    rw [notLast]
    exact Or.rec nofun (other .asyncTxStopRequested nofun nofun)
  have handed : handOver u s = some (switchBuf s) := by
    rw [handOver, if_neg (other .asyncTxStopInProgress nofun nofun), if_neg goesOn]
  rw [transferComplete_of_handOver playing handed, signalPacket_running (s := switchBuf s) (other .asyncTxStopped nofun nofun)]
  rfl

end

/-- Settles O45: no refill is due, and the transfer-complete service takes one of its three branches. -/
theorem transferCompleteHandsOver : Obligations.TransferCompleteHandsOver := by
  intro s u e wf enabled playing atEnd read two
  have played : play s = transferCompleteService (transferEntry e s) := by
    have noRefill (steady : s.engine = .asyncTx) : s.dmaPos + 1 ≠ htPoint u.count := by
      have := two steady
      unfold htPoint
      omega
    rw [play_no_refill enabled playing (by omega) read noRefill, if_pos atEnd]
  have playing' : (transferEntry e s).buf (transferEntry e s).dmaBuf = some u := playing
  rw [played]
  refine ⟨fun flushing => ?_, fun notFlushing ends => ?_, fun steady notLast => ?_⟩
  · rw [transferComplete_flushing playing' flushing, ← atEnd]
    rfl
  · obtain ⟨t, v, flushed, frame, -, buf, isFlush, packetEnd, lastPacketEnd⟩ :=
      fillFlush_spec (b := otherBuf s.dmaBuf) (buf_eq_some_bufValid playing')
        (show 2 ≤ (transferEntry e s).params.txBufCap from Params.two_le_txBufCap wf)
    have kept := frame.other
    rw [otherBuf_otherBuf] at kept
    exact ⟨_, v, transferComplete_ending playing' notFlushing ends flushed, buf, flush_entries isFlush, packetEnd,
      lastPacketEnd, kept.trans playing, rfl⟩
  · exact transferComplete_goingOn playing' steady notLast

/-- Settles O46: half of one entry is its end, so that both services run. -/
theorem oneEntryBufferRefillsThenHandsOver : Obligations.OneEntryBufferRefillsThenHandsOver := by
  intro s u e enabled playing one start read steady
  have left : s.dmaPos < u.count := by omega
  have half : s.dmaPos + 1 = htPoint u.count := by rw [one, start]; rfl
  have atEnd : s.dmaPos + 1 = u.count := by omega
  have transferred : { s with txLevel := e.pol, txArr := e.ticks, dmaPos := 1, txTrace := s.txTrace ++ [e] } =
      transferEntry e s := by
    rw [transferEntry, start]
    rfl
  rw [transferred]
  rw [← start] at read
  refine ⟨fun m notLast refill => ?_,
    fun r refill => play_refill_producerError enabled playing left read half steady refill⟩
  have spec := fill_filled' (s := transferEntry e s) (buf_eq_some_bufValid playing) refill
  obtain ⟨dmaBuf, -, other⟩ := spec.dma
  obtain ⟨v, -, -, engine⟩ := spec.buffer
  have engines : m.engine = .asyncTx ∨ m.engine = .asyncTxLast := by
    rw [engine]
    split
    · exact .inr rfl
    · exact .inl steady
  have cbSent : m.cbSent = s.cbSent := (congrArg State.cbSent spec.state_eq).trans rfl
  have playing' : m.buf m.dmaBuf = some u := by
    rw [dmaBuf]
    rw [otherBuf_otherBuf] at other
    exact other.trans playing
  rw [play_refill_filled enabled playing left read half steady refill, if_pos atEnd,
    transferComplete_goingOn playing' engines notLast, State.signalFor, dmaBuf, cbSent]
  rfl

/-! ## The signal-sent records -/

/-- Records of other kinds are not counted. -/
theorem signalSentCount_append_other {l m : List Callout} (other : ∀ c ∈ m, ∀ x, c ≠ .signalSent x) :
    signalSentCount (l ++ m) = signalSentCount l := by
  rw [signalSentCount_append, signalSentCount_zero other, Nat.add_zero]

theorem signalSentCount_append_dataReqs {l m : List Callout} {x : Count} (requests : ∀ c ∈ m, ∃ a, c = .dataReq x a) :
    signalSentCount (l ++ m) = signalSentCount l := by
  refine signalSentCount_append_other fun c mem y => ?_
  obtain ⟨a, rfl⟩ := requests c mem
  nofun

/-- A command sends no signal-sent record. -/
theorem commanded_signals {c : Instr} {s t : State} (did : Commanded c s t) (running : t.halted = false) :
    signalSentCount t.callouts = signalSentCount s.callouts := by
  cases c with
  | txStart f d =>
    obtain ⟨m, filled, rfl⟩ := txStart_launched did running
    obtain ⟨spec, launched⟩ := launched_eq filled
    obtain ⟨l, callouts, requests⟩ := spec.frame.requests
    rw [launched]
    exact (congrArg signalSentCount callouts).trans (signalSentCount_append_dataReqs requests)
  | _ =>
    simp only [Commanded] at did
    subst did
    rfl

/-- Of the steps that do not halt the block only `Play` and the reset change the number of signal-sent records. -/
theorem takeInput_signals {i : Input} {s t : State} (noReset : i ≠ .reset) (noPlay : i ≠ .play)
    (taken : takeInput i s = .next t) (running : t.halted = false) :
    signalSentCount t.callouts = signalSentCount s.callouts := by
  cases i with
  | portWrite bytes =>
    rcases hostWrite_outcome taken with ⟨l, halt⟩ | ⟨c, -, -, did, -⟩
    · rw [halt] at running
      nomatch running
    · exact commanded_signals did running
  | complete => rw [(complete_next taken).2]
  | tick =>
    cases taken
    obtain ⟨l, timeouts, ticked⟩ := tick_out s
    rw [ticked]
    refine signalSentCount_append_other fun c mem x => ?_
    obtain ⟨ctx, rfl⟩ := timeouts c mem
    nofun
  | rise =>
    obtain ⟨-, ⟨-, rfl⟩ | ⟨-, rfl⟩⟩ := rise_next taken
    · rfl
    · exact signalSentCount_append_other (by split <;> simp)
  | fall =>
    obtain ⟨-, ⟨-, rfl⟩ | ⟨-, rfl⟩⟩ := fall_next taken
    · rfl
    · exact signalSentCount_append_other (by split <;> simp)
  | play => exact absurd rfl noPlay
  | reset => exact absurd rfl noReset

/-- A `Play` step sends one signal-sent record at the end of a packet's last buffer, and no other (R91). -/
theorem play_signals {s t : State} (h : play s = .next t) (running : t.halted = false) :
    ∃ u, s.buf s.dmaBuf = some u ∧ signalSentCount t.callouts = signalSentCount s.callouts +
      if s.dmaPos + 1 = u.count ∧ u.packetEnd = true ∧ t.engine ≠ .asyncTxStopped ∧ s.cbSent.valid = true
      then 1 else 0 := by
  obtain ⟨u, e, l, playing, -, -, -, requests, -, ⟨-, -, halt⟩ | ⟨-, callouts⟩⟩ := play_frame h
  · rw [halt] at running
    nomatch running
  refine ⟨u, playing, ?_⟩
  rw [callouts, signalSentCount_append, signalSentCount_append_dataReqs requests]
  split <;> rfl

/-- Settles O47: `Play` counts as R91 says, and no other agent's step sends a signal-sent record. -/
theorem signalSentOncePerFinishedPacket : Obligations.SignalSentOncePerFinishedPacket := by
  intro s t running h noReset running'
  have kept (noPlay : s.inputs.head? ≠ some .play) (same : signalSentCount t.callouts = signalSentCount s.callouts) :
      signalSentCount t.callouts = signalSentCount s.callouts +
        if s.inputs.head? = some .play ∧ (∃ u, s.buf s.dmaBuf = some u ∧ s.dmaPos + 1 = u.count ∧ u.packetEnd = true) ∧
          t.engine ≠ .asyncTxStopped ∧ s.cbSent.valid = true then 1 else 0 := by
    rw [if_neg fun sends => noPlay sends.1, same, Nat.add_zero]
  rcases step_running_cases running h with ⟨rest, supplied, -⟩ | ⟨supplied, rfl⟩ | ⟨i, rest, supplied, notReset, taken⟩
  · exact absurd (by rw [supplied, List.head?_cons]) noReset
  · exact kept (by rw [supplied]; nofun) rfl
  have head : s.inputs.head? = some i := by rw [supplied, List.head?_cons]
  by_cases isPlay : i = .play
  · subst isPlay
    obtain ⟨u, playing, count⟩ := play_signals (s := { s with inputs := rest }) taken running'
    have playing : s.buf s.dmaBuf = some u := playing
    rw [count]
    congr 1
    simp only [head, playing, Option.some.injEq, true_and, exists_eq_left', and_assoc]
  · refine kept ?_ (takeInput_signals (s := { s with inputs := rest }) notReset isPlay taken running')
    rw [head, ne_eq, Option.some.injEq]
    exact isPlay

end Sys2Proof.Machine

namespace Sys2Proof.Machine

/-! ## The halted block -/

/-- Every command begins at the port's gate, which faults in a halted block (R52, R95). -/
theorem exec_of_halted {s : State} (i : Instr) (halted : s.halted = true) : exec i s = .fault .halted := by
  cases i <;> exact if_pos halted

/-- Only steps before the next reset are dropped (log 6). -/
theorem fromReset_suffix (l : List Input) : fromReset l <:+ l := by
  induction l with
  | nil => exact List.suffix_rfl
  | cons i rest ih =>
    cases i with
    | reset => exact List.suffix_rfl
    | _ => exact ih.trans (List.suffix_cons _ rest)

theorem fromReset_eq_nil {l : List Input} (noReset : .reset ∉ l) : fromReset l = [] := by
  rcases fromReset_cases l with nothing | ⟨rest, found⟩
  · exact nothing
  · refine absurd ((fromReset_suffix l).subset ?_) noReset
    rw [found]
    exact List.mem_cons_self

/-- With no reset supplied a halted block is stuck (U4). -/
theorem step_halted_of_no_reset {s : State} (halted : s.halted = true) (noReset : .reset ∉ s.inputs) :
    step s = .fault .halted := by
  rw [step, takeStep, if_pos halted, fromReset_eq_nil noReset]

/-- Settles O13: the gate faults, and the next reset supplied is the one step there is. -/
theorem onlyResetLeavesTheHalt : Obligations.OnlyResetLeavesTheHalt := by
  refine fun s halted => ⟨fun i => exec_of_halted i halted, fun t h => ?_, step_halted_of_no_reset halted⟩
  obtain ⟨rest, found, rfl⟩ := takeStep_halted halted h
  exact ⟨rfl, rest, found ▸ fromReset_suffix s.inputs, rfl⟩

/-! ## What halts the block -/

/-- The check of `TX_START` that fails first in `s`, with its cause and what was reached by then (R75, R94, R100). -/
inductive StartFails (f : Count) (d : BitVec 24) (s : State) : State → FatalCause → Prop
  | callback (slot : s.cbData.valid = false) : StartFails f d s s .nullDataCallback
  | duty (slot : s.cbData.valid = true) (illegal : dutyLegal d = false) : StartFails f d s s .badDutyCycle
  | freq (slot : s.cbData.valid = true) (duty : dutyLegal d = true) (illegal : freqLegal s.params f = false) :
    StartFails f d s s .badFrequency
  | producer {r : State} (slot : s.cbData.valid = true) (duty : dutyLegal d = true)
    (freq : freqLegal s.params f = true) (error : fill .b0 (armTx f d s) = .producerError r) :
    StartFails f d s r .producerError

/-- The row of R94 by which a supplied step that halts the block in `s` does so: the step and what holds when it raises the
cause, the state `r` reached by then, the cause and its `FAULT_OP`. -/
inductive Raises (s : State) : Input → State → FatalCause → BitVec 8 → Prop
  | badState {bytes : List Byte} {c : Instr} (decoded : decodeBytes bytes = .instr c)
    (illegal : legalState c s.engine = false) : Raises s (.portWrite bytes) s .badState (opcodeOf c)
  | txStart {bytes : List Byte} {f : Count} {d : BitVec 24} {r : State} {cause : FatalCause}
    (decoded : decodeBytes bytes = .instr (.txStart f d)) (idle : s.engine = .idle) (fails : StartFails f d s r cause) :
    Raises s (.portWrite bytes) r cause (opcodeOf (.txStart f d))
  | illegalWord {w : Word} (noRow : ∀ r ∈ opcodeTable, r.hits w = false) :
    Raises s (.portWrite (bytesOfWord w)) s .illegalCommand (opField w)
  | refill {e : Entry} {r : State} (steady : s.engine = .asyncTx) (valid : s.bufValid = true)
    (read : s.bufRead s.dmaBuf s.dmaPos = some e)
    (error : fill (otherBuf s.dmaBuf) (transferEntry e s) = .producerError r) : Raises s .play r .producerError eventHt

/-- Of the commands in their legal states only `TX_START` halts the block (R94). -/
theorem commanded_halts {c : Instr} {s t : State} (did : Commanded c s t) (running : s.halted = false)
    (halted : t.halted = true) :
    ∃ f d r cause, c = .txStart f d ∧ StartFails f d s r cause ∧ t = raiseFatal s r cause 0x22#8 := by
  cases c with
  | txStart f d =>
    rcases did with ⟨slot, rfl⟩ | ⟨slot, duty, rfl⟩ | ⟨slot, duty, freq, rfl⟩ |
      ⟨slot, duty, freq, ⟨r, error, rfl⟩ | ⟨m, filled, rfl⟩⟩
    · exact ⟨f, d, s, _, rfl, .callback slot, rfl⟩
    · exact ⟨f, d, s, _, rfl, .duty slot duty, rfl⟩
    · exact ⟨f, d, s, _, rfl, .freq slot duty freq, rfl⟩
    · exact ⟨f, d, r, _, rfl, .producer slot duty freq error, rfl⟩
    · rw [(launched_eq filled).2] at halted
      exact absurd (running.symm.trans halted) nofun
  | _ =>
    simp only [Commanded] at did
    subst did
    exact absurd (running.symm.trans halted) nofun

theorem hostWrite_halts {bytes : List Byte} {s t : State} (taken : hostWrite bytes s = .next t)
    (running : s.halted = false) (halted : t.halted = true) :
    ∃ r cause op, Raises s (.portWrite bytes) r cause op ∧ t = raiseFatal s r cause op := by
  rcases write_outcome taken with ⟨c, decoded, run⟩ | ⟨-, w, rfl, noRow, rfl⟩
  · rcases exec_next run with ⟨-, ⟨illegal, rfl⟩ | ⟨legal, did⟩⟩
    · exact ⟨s, _, _, .badState decoded illegal, rfl⟩
    · obtain ⟨f, d, r, cause, rfl, fails, rfl⟩ := commanded_halts did running halted
      exact ⟨r, cause, _, .txStart decoded (engine_idle_of_txStart legal) fails, rfl⟩
  · exact ⟨s, _, _, .illegalWord noRow, rfl⟩

/-- The half-transfer service that answers does not halt the block (R89). -/
theorem refilled_halted {n : Nat} {s t : State} (h : refilled n s t) (valid : s.bufValid = true) :
    t.halted = s.halted := by
  rcases h with ⟨-, -, filled⟩ | ⟨-, rfl⟩
  · exact field_of_outsidePlay State.halted (outsidePlay_of_fill (fill_filled' valid filled))
  · rfl

/-- The transfer-complete service does not halt the block (R90). -/
theorem transferComplete_halted {s t : State} (h : transferCompleteService s = .next t) : t.halted = s.halted := by
  obtain ⟨u, w, -, handed, rfl⟩ := transferComplete_next h
  rw [signalPacket_eq]
  exact field_of_outsidePlay State.halted (handOver_frame handed).1

/-- `Play` halts the block on a refill that meets `Error` only (R89, R94). -/
theorem play_halts {s t : State} (taken : play s = .next t) (running : s.halted = false) (halted : t.halted = true) :
    ∃ r, Raises s .play r .producerError eventHt ∧ t = raiseFatal s r .producerError eventHt := by
  obtain ⟨-, u, e, playing, -, read, ⟨-, steady, r, error, rfl⟩ | ⟨m, service, ends⟩⟩ := play_next taken
  · exact ⟨r, .refill steady (buf_eq_some_bufValid playing) read error, rfl⟩
  · have kept : m.halted = s.halted := refilled_halted (s := transferEntry e s) service (buf_eq_some_bufValid playing)
    have same : t.halted = s.halted := by
      rcases ends with ⟨-, rfl⟩ | ⟨-, completed⟩
      · exact kept
      · exact (transferComplete_halted completed).trans kept
    exact absurd (running.symm.trans (same.symm.trans halted)) nofun

/-- A supplied step that halts the block raises a fatal assertion of R94's table. -/
theorem takeInput_halts {i : Input} {s t : State} (taken : takeInput i s = .next t) (running : s.halted = false)
    (halted : t.halted = true) : ∃ r cause op, Raises s i r cause op ∧ t = raiseFatal s r cause op := by
  have goesOn (same : t.halted = s.halted) : False := nomatch running.symm.trans (same.symm.trans halted)
  cases i with
  | portWrite bytes => exact hostWrite_halts taken running halted
  | play =>
    obtain ⟨r, raised⟩ := play_halts taken running halted
    exact ⟨r, _, _, raised⟩
  | complete => exact (goesOn (by rw [(complete_next taken).2])).elim
  | tick =>
    cases taken
    exact (goesOn (by rw [tick_frame])).elim
  | rise => obtain ⟨-, ⟨-, rfl⟩ | ⟨-, rfl⟩⟩ := rise_next taken <;> exact (goesOn rfl).elim
  | fall => obtain ⟨-, ⟨-, rfl⟩ | ⟨-, rfl⟩⟩ := fall_next taken <;> exact (goesOn rfl).elim
  | reset =>
    cases taken
    nomatch halted

/-- The same for a step of a running block: it takes the first step supplied, and that raises the assertion. -/
theorem step_halts {s t : State} (running : s.halted = false) (h : step s = .next t) (halted : t.halted = true) :
    ∃ i rest r cause op, s.inputs = i :: rest ∧ Raises { s with inputs := rest } i r cause op ∧
      t = raiseFatal { s with inputs := rest } r cause op := by
  rcases step_running_cases running h with ⟨rest, -, rfl⟩ | ⟨-, rfl⟩ | ⟨i, rest, supplied, -, taken⟩
  · nomatch halted
  · exact absurd (running.symm.trans halted) nofun
  · obtain ⟨r, cause, op, raised⟩ := takeInput_halts (s := { s with inputs := rest }) taken running halted
    exact ⟨i, rest, r, cause, op, supplied, raised⟩

/-! ## What stays of a step that halts the block -/

/-- A `TX_START` that fails has made its data requests, where its first fill met `Error`, and nothing else (R95). -/
theorem StartFails.reached {f : Count} {d : BitVec 24} {s r : State} {cause : FatalCause}
    (fails : StartFails f d s r cause) :
    (∃ n, (cause ≠ .producerError → n = 0) ∧ madeRequests n s r) ∧ r.txTrace = s.txTrace := by
  cases fails with
  | callback | duty | freq => exact ⟨⟨0, fun _ => rfl, madeRequests_zero rfl rfl rfl⟩, rfl⟩
  | producer slot duty freq error =>
    have frame := fill_producerError (s := armTx f d s) rfl error
    obtain ⟨n, made⟩ := frame.taken
    exact ⟨⟨n, fun other => absurd rfl other, made⟩, (congrArg State.txTrace frame.outside :)⟩

/-- What a step that halts the block has appended to the trace, by what was supplied: a `Play` step the entry transferred
(R88). -/
def State.transferred (s : State) (supplied : Option Input) : List Entry :=
  if supplied = some .play then (s.bufRead s.dmaBuf s.dmaPos).toList else []

/-- What a step that halts the block has done outside it: data requests, on a producer's `Error` only, and the transfer of
a `Play` step (R95). -/
theorem Raises.reached {s r : State} {i : Input} {cause : FatalCause} {op : BitVec 8} (raised : Raises s i r cause op) :
    (∃ n, (cause ≠ .producerError → n = 0) ∧ madeRequests n s r) ∧
      (some i = some .play → (s.bufRead s.dmaBuf s.dmaPos).isSome = true) ∧
      r.txTrace = s.txTrace ++ s.transferred (some i) := by
  cases raised with
  | badState | illegalWord =>
    exact ⟨⟨0, fun _ => rfl, madeRequests_zero rfl rfl rfl⟩, nofun, (List.append_nil _).symm⟩
  | txStart decoded idle fails =>
    obtain ⟨requests, trace⟩ := fails.reached
    exact ⟨requests, nofun, trace.trans (List.append_nil _).symm⟩
  | @refill e r steady valid read error =>
    have frame := fill_producerError (s := transferEntry e s) valid error
    obtain ⟨n, made⟩ := frame.taken
    refine ⟨⟨n, fun other => absurd rfl other, made⟩, fun _ => Option.isSome_of_eq_some read, ?_⟩
    have trace : r.txTrace = s.txTrace ++ [e] := congrArg State.txTrace frame.outside
    rw [trace, State.transferred, if_pos rfl, read, Option.toList_some]

/-- Settles O12: the fatal assertion keeps the block as it was, with what was done outside it. -/
theorem fatalDiscardsTheStep : Obligations.FatalDiscardsTheStep := by
  intro s t running h halted
  obtain ⟨i, rest, r, cause, op, supplied, raised, rfl⟩ := step_halts running h halted
  obtain ⟨⟨n, unasked, producer, draws, callouts⟩, read, trace⟩ := raised.reached
  rw [supplied, List.head?_cons, List.tail_cons]
  refine ⟨n, fun other => unasked (by rintro rfl; exact other rfl), read, ?_⟩
  rw [raiseFatal, producer, draws, callouts, trace]
  rfl

/-! ## The table of causes -/

theorem dutyLegal_eq_false {d : BitVec 24} (illegal : dutyLegal d = false) : d = 0#24 ∨ 65536 < d.toNat := by
  by_contra inside
  rw [not_or, Nat.not_lt] at inside
  exact absurd (illegal.symm.trans (dutyLegal_iff.2 inside)) nofun

theorem freqLegal_eq_false {p : Params} {f : Count} (illegal : freqLegal p f = false) :
    f.toNat < p.txFreqMin.toNat ∨ p.txFreqMax.toNat < f.toNat := by
  by_contra inside
  rw [not_or, Nat.not_lt, Nat.not_lt] at inside
  exact absurd (illegal.symm.trans (freqLegal_iff.2 inside)) nofun

/-- Settles O15: the rows of the table, cause by cause. -/
theorem fatalCausesAreThoseOfTheTable : Obligations.FatalCausesAreThoseOfTheTable := by
  intro s t running h halted
  obtain ⟨i, rest, r, cause, op, supplied, raised, rfl⟩ := step_halts running h halted
  rw [supplied, List.head?_cons]
  cases raised with
  | @badState bytes c decoded illegal => exact .inl ⟨bytes, c, rfl, decoded, rfl, .inl ⟨rfl, illegal⟩⟩
  | @txStart bytes f d r cause decoded idle fails =>
    refine .inl ⟨bytes, _, rfl, decoded, rfl, .inr ⟨f, d, rfl, idle, ?_⟩⟩
    cases fails with
    | callback slot => exact .inl ⟨rfl, slot⟩
    | duty slot illegal => exact .inr (.inl ⟨rfl, slot, dutyLegal_eq_false illegal⟩)
    | freq slot duty illegal =>
      obtain ⟨nonzero, small⟩ := dutyLegal_iff.1 duty
      exact .inr (.inr (.inl ⟨rfl, slot, nonzero, small, freqLegal_eq_false illegal⟩))
    | producer slot duty freq error =>
      obtain ⟨nonzero, small⟩ := dutyLegal_iff.1 duty
      obtain ⟨low, high⟩ := freqLegal_iff.1 freq
      exact .inr (.inr (.inr ⟨rfl, slot, nonzero, small, low, high,
        fill_producerError_last (s := armTx f d { s with inputs := rest }) (r := r) rfl error⟩))
  | illegalWord noRow => exact .inr (.inl ⟨_, rfl, noRow, rfl, rfl⟩)
  | @refill e r steady valid _ error =>
    exact .inr (.inr ⟨rfl, steady, rfl, rfl,
      fill_producerError_last (s := transferEntry e { s with inputs := rest }) (r := r) valid error⟩)

end Sys2Proof.Machine

namespace Sys2Proof.Machine

/-! ## The reset step -/

/-- A halted block still takes a reset that is supplied next: it is the one step R96 leaves it. -/
theorem step_reset_of_halted {s : State} {rest : List Input} (halted : s.halted = true)
    (supplied : s.inputs = .reset :: rest) : step s = .next (resetBlock { s with inputs := rest }) := by
  rw [step, takeStep, if_pos halted, supplied, fromReset]
  rfl

/-- A block that is not halted takes the reset as it takes any step (R104). -/
theorem step_reset_of_running {s : State} {rest : List Input} (running : s.halted = false)
    (supplied : s.inputs = .reset :: rest) : step s = .next (resetBlock { s with inputs := rest }) :=
  step_eq_takeInput running supplied

/-- Settles O58: halted or not, a reset supplied next is taken, and `resetBlock` keeps only the pin and the model's own
fields. -/
theorem resetStepRestoresTheResetValues : Obligations.ResetStepRestoresTheResetValues := by
  intro s rest supplied
  cases h : s.halted with
  | true => exact step_reset_of_halted h supplied
  | false => exact step_reset_of_running h supplied

end Sys2Proof.Machine
